-- ==== Sys2Proof/Word.lean ====
section
/-! DEFINITION. The word types of the block: R7 (`WORD_BITS`, `REQ_BITS`, `ACK_BITS`, `DAPADDR_BITS`) and R8 (every value is unsigned, bit 0 is the least significant). -/

namespace Sys2Proof

/-- A 32-bit value: `DATA`, a `WORDS` entry, a command word, a host register (R7, R28, R39). -/
abbrev Word := BitVec 32

/-- An 8-bit value: a byte on the wire, a request header, `RESULT` (R7, R29). -/
abbrev Byte := BitVec 8

/-- The 4-bit DAP address: bit 0 `APnDP`, bit 1 `RnW`, bit 2 `A2`, bit 3 `A3` (R86). -/
abbrev DapAddr := BitVec 4

/-- The 3-bit acknowledge as received, `ack[0]` first on the wire (R91). -/
abbrev AckBits := BitVec 3

/-- The 4-bit packet result held by `ACK` and `ACCUM` (R93). -/
abbrev PacketResult := BitVec 4

end Sys2Proof
end

