-- ==== Sys2Proof/Syntax.lean ====
section
/-! DEFINITION. The instructions: one constructor per row of the opcode table, 13 command rows (R82) and 16 request-header rows (R90). -/

namespace Sys2Proof

/-- Operand types are exact, so every term is an instruction the encoding admits (R81, R84). -/
inductive Instr where
  -- the transceiver's bit commands (R111 to R114)
  | setClock (level : Bool)
  | setData (level : Bool)
  | readData
  | setDir (output : Bool)
  -- the transceiver's byte commands (R119 to R121)
  | shiftOut (byte : Byte)
  | shiftIn
  | shiftReset
  -- the packet framer (R150)
  | shiftPacket (request retry : Byte)
  -- the DAP transaction sequencer (R180)
  | dapMove (count : Byte) (dap : DapAddr) (final : Bool)
  -- the target control sequencer (R205 to R208)
  | connect
  | lineReset
  | disconnect
  | clearErrors
  -- the request headers the packet framer sends, DAP address 0x0 to 0xF (R90)
  | reqDpAbortWr
  | reqAp0Wr
  | reqDpIdcodeRd
  | reqAp0Rd
  | reqDpCtrlstatWr
  | reqAp4Wr
  | reqDpCtrlstatRd
  | reqAp4Rd
  | reqDpSelectWr
  | reqAp8Wr
  | reqDapA
  | reqAp8Rd
  | reqDapC
  | reqApCWr
  | reqDpRdbuffRd
  | reqApCRd
  deriving DecidableEq, Repr

end Sys2Proof
end

