-- ==== Sys2Proof/Decode.lean ====
section
/-! DEFINITION. The decoder of command words and request headers (R80 to R84, R87, R90), total and rejecting by name; after it the encoder, written from the field layout of R80 and R87. -/

namespace Sys2Proof

/-- The two formats of the opcode table: a command word (`cmd32`, R80) and a request header (`swd_request8`, R87). -/
inductive Code where
  | cmd32 (w : Word)
  | request8 (b : Byte)
  deriving DecidableEq, Repr

/-- Why bits are no instruction (R83, R84, R99). -/
inductive DecodeError where
  /-- Command opcode 0x0, 0xE or 0xF. -/
  | reservedOpcode
  /-- A nonzero bit in bits 31:25, or in a field the opcode does not use. -/
  | nonzeroUnusedField
  /-- A byte that is `REQ(dap)` for no DAP address. -/
  | notARequestHeader
  deriving DecidableEq, Repr

/-- Fields of a command word (R80). -/
def Word.op (w : Word) : BitVec 4 := w.extractLsb' 0 4
def Word.fieldA (w : Word) : DapAddr := w.extractLsb' 4 4
def Word.arg8 (w : Word) : Byte := w.extractLsb' 8 8
def Word.retry (w : Word) : Byte := w.extractLsb' 16 8
def Word.flagF (w : Word) : Bool := w.getLsbD 24
/-- `ARG8[0]`: the 1-bit operand of `SET_CLOCK`, `SET_DATA` and `SET_DIR` (R81). -/
def Word.arg0 (w : Word) : Bool := w.getLsbD 8

/-- One `cmd32` row of the opcode table: a word belongs to it when `(w & mask) == pattern` (R83). -/
structure CmdRow where
  pattern : Word
  mask : Word
  build : Word → Instr

/-- Whether word `w` falls under the row (R83). -/
def CmdRow.admits (r : CmdRow) (w : Word) : Bool := w &&& r.mask == r.pattern

/-- The 13 `cmd32` rows with their match and mask (R82, R111 to R114, R119 to R121, R150, R180, R205 to R208), and the operands of R81. -/
def cmdRows : List CmdRow :=
  [ ⟨0x00000001#32, 0xFFFFFEFF#32, fun w => .setClock (Word.arg0 w)⟩,
    ⟨0x00000002#32, 0xFFFFFEFF#32, fun w => .setData (Word.arg0 w)⟩,
    ⟨0x00000003#32, 0xFFFFFFFF#32, fun _ => .readData⟩,
    ⟨0x00000004#32, 0xFFFFFEFF#32, fun w => .setDir (Word.arg0 w)⟩,
    ⟨0x00000005#32, 0xFFFF00FF#32, fun w => .shiftOut (Word.arg8 w)⟩,
    ⟨0x00000006#32, 0xFFFFFFFF#32, fun _ => .shiftIn⟩,
    ⟨0x00000007#32, 0xFFFFFFFF#32, fun _ => .shiftReset⟩,
    ⟨0x00000008#32, 0xFF0000FF#32, fun w => .shiftPacket (Word.arg8 w) (Word.retry w)⟩ ] ++
  [ ⟨0x00000009#32, 0xFEFF000F#32, fun w => .dapMove (Word.arg8 w) (Word.fieldA w) (Word.flagF w)⟩,
    ⟨0x0000000A#32, 0xFFFFFFFF#32, fun _ => .connect⟩,
    ⟨0x0000000B#32, 0xFFFFFFFF#32, fun _ => .lineReset⟩,
    ⟨0x0000000C#32, 0xFFFFFFFF#32, fun _ => .disconnect⟩,
    ⟨0x0000000D#32, 0xFFFFFFFF#32, fun _ => .clearErrors⟩ ]

/-- A command word issues the command whose row admits it; rows never overlap, so the first is the only one (R83). -/
def decodeCmd (w : Word) : Except DecodeError Instr :=
  match cmdRows.find? (fun r => r.admits w) with
  | some r => .ok (r.build w)
  | none =>
    if Word.op w = 0x0#4 ∨ Word.op w = 0xE#4 ∨ Word.op w = 0xF#4 then .error .reservedOpcode
    else .error .nonzeroUnusedField

/-- The 16 `swd_request8` rows of the table (R90). -/
def requestRows : List (Byte × Instr) :=
  [ (0x81#8, .reqDpAbortWr), (0xA3#8, .reqAp0Wr), (0xA5#8, .reqDpIdcodeRd), (0x87#8, .reqAp0Rd),
    (0xA9#8, .reqDpCtrlstatWr), (0x8B#8, .reqAp4Wr), (0x8D#8, .reqDpCtrlstatRd), (0xAF#8, .reqAp4Rd) ] ++
  [ (0xB1#8, .reqDpSelectWr), (0x93#8, .reqAp8Wr), (0x95#8, .reqDapA), (0xB7#8, .reqAp8Rd),
    (0x99#8, .reqDapC), (0xBB#8, .reqApCWr), (0xBD#8, .reqDpRdbuffRd), (0x9F#8, .reqApCRd) ]

/-- A request header is the row it equals in all 8 bits (R90, R99). -/
def decodeRequest (b : Byte) : Except DecodeError Instr :=
  match requestRows.find? (fun r => r.1 == b) with
  | some r => .ok r.2
  | none => .error .notARequestHeader

/-- The decoder. -/
def decode : Code → Except DecodeError Instr
  | .cmd32 w => decodeCmd w
  | .request8 b => decodeRequest b

/-- `decode`, without the reason of a rejection. -/
def decode? (c : Code) : Option Instr :=
  match decode c with
  | .ok i => some i
  | .error _ => none

/-- The bits `w` of an opcode-table row of `nbits` bits, as the code the block is given: 8 bits are a request header, 32 a command word. -/
def codeOfTable (nbits w : Nat) : Option Code :=
  if nbits = 8 then some (.request8 (BitVec.ofNat 8 w))
  else if nbits = 32 then some (.cmd32 (BitVec.ofNat 32 w))
  else none

/-- The instruction the decoder reads from an instruction whose bits are `w`. -/
def decodeTableWord (nbits w : Nat) : Option Instr :=
  match codeOfTable nbits w with
  | some c => decode? c
  | none => none

/-- The command word with the given fields, bits 31:25 zero (R80). -/
def cmdWord (op : BitVec 4) (a : DapAddr) (arg8 retry : Byte) (f : Bool) : Word :=
  0#7 ++ BitVec.ofBool f ++ retry ++ arg8 ++ a ++ op

/-- An operand that uses `ARG8[0]` alone (R81). -/
def arg8OfBit (b : Bool) : Byte := 0#7 ++ BitVec.ofBool b

/-- A command that uses `OP` alone (R82). -/
def plainCmd (op : BitVec 4) : Code := .cmd32 (cmdWord op 0#4 0#8 0#8 false)

/-- The header with fields start = 1, APnDP, RnW, A2, A3, parity, stop = 0, park = 1, from bit 0 up (R87). -/
def headerByte (apndp rnw a2 a3 parity : Bool) : Byte :=
  1#1 ++ 0#1 ++ BitVec.ofBool parity ++ BitVec.ofBool a3 ++ BitVec.ofBool a2 ++ BitVec.ofBool rnw ++
    BitVec.ofBool apndp ++ 1#1

/-- A header whose parity bit makes the ones of its four address bits and itself even in number (R87, R89). -/
def headerOf (apndp rnw a2 a3 : Bool) : Code :=
  .request8 (headerByte apndp rnw a2 a3 (apndp ^^ rnw ^^ a2 ^^ a3))

/-- The encoder: the fields of R81 at the places of R80, and the headers of R87 and R98. -/
def encode : Instr → Code
  | .setClock l => .cmd32 (cmdWord 0x1#4 0#4 (arg8OfBit l) 0#8 false)
  | .setData l => .cmd32 (cmdWord 0x2#4 0#4 (arg8OfBit l) 0#8 false)
  | .readData => plainCmd 0x3#4
  | .setDir d => .cmd32 (cmdWord 0x4#4 0#4 (arg8OfBit d) 0#8 false)
  | .shiftOut b => .cmd32 (cmdWord 0x5#4 0#4 b 0#8 false)
  | .shiftIn => plainCmd 0x6#4
  | .shiftReset => plainCmd 0x7#4
  | .shiftPacket q r => .cmd32 (cmdWord 0x8#4 0#4 q r false)
  | .dapMove c d f => .cmd32 (cmdWord 0x9#4 d c 0#8 f)
  | .connect => plainCmd 0xA#4
  | .lineReset => plainCmd 0xB#4
  | .disconnect => plainCmd 0xC#4
  | .clearErrors => plainCmd 0xD#4
  | .reqDpAbortWr => headerOf false false false false
  | .reqAp0Wr => headerOf true false false false
  | .reqDpIdcodeRd => headerOf false true false false
  | .reqAp0Rd => headerOf true true false false
  | .reqDpCtrlstatWr => headerOf false false true false
  | .reqAp4Wr => headerOf true false true false
  | .reqDpCtrlstatRd => headerOf false true true false
  | .reqAp4Rd => headerOf true true true false
  | .reqDpSelectWr => headerOf false false false true
  | .reqAp8Wr => headerOf true false false true
  | .reqDapA => headerOf false true false true
  | .reqAp8Rd => headerOf true true false true
  | .reqDapC => headerOf false false true true
  | .reqApCWr => headerOf true false true true
  | .reqDpRdbuffRd => headerOf false true true true
  | .reqApCRd => headerOf true true true true

end Sys2Proof
end

