-- ==== Sys2Proof/Config.lean ====
section
/-! DEFINITION. What the spec leaves OPEN (R7, R39, R278) and the free values. Every constant here has no body: nothing in Lean can evaluate it. -/

namespace Sys2Proof

/-- `WAIT_DELAY(attempt, remaining)`: block clock cycles waited after a WAIT acknowledge (R7, R143, R151; log entry 3). -/
opaque Config.waitDelay (attempt remaining : Nat) : Nat

/-- `T_PHASE - 1`: the spec only says that `T_PHASE` is at least 1 (R7, R278; log entry 4). -/
opaque Config.tPhaseLessOne : Nat

/-- `T_PHASE`: block clock cycles per SWCLK high or low phase (R7, R278). -/
def Config.tPhase : Nat := Config.tPhaseLessOne + 1

/-- `T_CMD`: block clock cycles from the CMD write to the command's first pin change (R7, R278; log entry 4). -/
opaque Config.tCmd : Nat

/-- `HOST_BASE`: where the host register interface sits in the host's address space (R39; log entry 4). -/
opaque Config.hostBase : Nat

/-- The bit the target answers at the `n`-th sample when State lists no pending draw: a free value (R6, R23, R25; log entry 5). -/
opaque Config.freeDraw (n : Nat) : Bool

/-- The value of the `n`-th host read of `DATA`, `RESULT` or `WORDS` made while `BUSY = 1`: a free value (R48; log entry 6). -/
opaque Config.busyRead (n : Nat) : Word

end Sys2Proof
end

