-- ==== Sys2Proof/Machine/Bits.lean ====
section
/-! DEFINITION. Bits of values: single-bit and byte replacement, bytes of a word, parity (R8, R66, R89). -/

namespace Sys2Proof.Machine

/-- `v[i] <- b`, bit 0 the least significant (R8). -/
def setBit {n : Nat} (v : BitVec n) (i : Nat) (b : Bool) : BitVec n :=
  if b then v ||| BitVec.twoPow n i else v &&& ~~~(BitVec.twoPow n i)

/-- `w[8k+7:8k]` (R8, R66). -/
def byteAt (w : Word) (k : Nat) : Byte := w.extractLsb' (8 * k) 8

/-- `w[8k+7:8k] <- b` (R8, R66). -/
def setByte (w : Word) (k : Nat) (b : Byte) : Word :=
  (w &&& ~~~(0xFF#32 <<< (8 * k))) ||| (b.setWidth 32 <<< (8 * k))

/-- `v[0] ^ v[1] ^ … ^ v[k-1]` (R89). -/
def parityTo {n : Nat} (v : BitVec n) : Nat → Bool
  | 0 => false
  | k + 1 => parityTo v k ^^ v.getLsbD k

/-- `ParityN(v)`: true when `v` has an odd number of one bits (R89). -/
def parity {n : Nat} (v : BitVec n) : Bool := parityTo v n

end Sys2Proof.Machine
end

