-- ==== Sys2Proof/Machine/Operands.lean ====
section
/-! DEFINITION. What the commands' operands stand for (R81) and the fixed parameters of R7: attempts, words of a move, request headers, named DAP addresses. -/

namespace Sys2Proof.Machine

/-- `DEFAULT_RETRY` (R7, R37). -/
def defaultRetry : Nat := 255

/-- `LINE_RESET_PULSES` (R7, R121). -/
def lineResetPulses : Nat := 64

/-- `WORDS_DEPTH` (R7, R36). -/
def wordsDepth : Nat := 256

/-- `ABORT_MASK` (R7, R208). -/
def abortMask : Word := 0x0000001E#32

/-- `N`, the attempts a packet may make: `(retry == 0) ? 255 : zext_8(retry)` (R81, R143). -/
def attemptLimit (retry : Byte) : Nat := if retry = 0#8 then defaultRetry else retry.toNat

/-- `n = zext_9(count) + 1`, the words a move transfers (R81, R172). -/
def moveLength (count : Byte) : Nat := count.toNat + 1

/-- `dap[0]`, 1 for an AP register (R86). -/
def isAp (dap : DapAddr) : Bool := dap.getLsbD 0

/-- `dap[1]`, 1 for a read (R86). -/
def isRead (dap : DapAddr) : Bool := dap.getLsbD 1

/-- `req[2]`: the framer takes read or write from this bit alone (R87, R142). -/
def headerIsRead (req : Byte) : Bool := req.getLsbD 2

/-- `REQ(dap) = 0x81 | (zext_8(dap) << 1) | (Parity4(dap) << 5)` (R88). -/
def reqHeader (dap : DapAddr) : Byte :=
  0x81#8 ||| (dap.setWidth 8 <<< 1) ||| ((BitVec.ofBool (parity dap)).setWidth 8 <<< 5)

/-- The DAP addresses the block's own sequences use (R98). -/
def dpAbortWr : DapAddr := 0x0#4
def dpIdcodeRd : DapAddr := 0x2#4
def dpCtrlstatRd : DapAddr := 0x6#4
def dpRdbuffRd : DapAddr := 0xE#4

end Sys2Proof.Machine
end

