-- ==== Sys2Proof/Machine/Flags.lean ====
section
/-! DEFINITION. The result codes: packet results (R92, R93), the status map (R95, R177), the connection states (R34). -/

namespace Sys2Proof.Machine

/-- The acknowledge pattern that asks for a retry (R92, R143). -/
def ackWait : AckBits := 0b010#3

/-- Packet results (R93, R231). -/
def resultOk : PacketResult := 0x1#4
def resultWait : PacketResult := 0x2#4
def resultFault : PacketResult := 0x4#4
def resultParityError : PacketResult := 0x8#4

/-- The classes of R92 and R93 a packet result falls into. -/
inductive ResultClass where
  | ok | wait | fault | protocolError | parityError | neverProduced
  deriving DecidableEq, Repr

/-- 0x1 OK, 0x2 WAIT, 0x4 FAULT, 0x0/0x3/0x5/0x6/0x7 PROTOCOL_ERROR, 0x8 PARITY_ERROR, 0x9 to 0xF never produced (R93). -/
def classify (r : PacketResult) : ResultClass :=
  if r = resultOk then .ok
  else if r = resultWait then .wait
  else if r = resultFault then .fault
  else if r = resultParityError then .parityError
  else if r.toNat < 8 then .protocolError
  else .neverProduced

/-- The packet result of a read after its data phase: PARITY_ERROR replaces OK when the parity bit is not `Parity32` of the word (R146). -/
def readResult (v : Word) (p : Bool) : PacketResult :=
  if p = parity v then resultOk else resultParityError

/-- `ACCUM` after a packet: a non-OK result overwrites it (R149). -/
def accumulate (accum code : PacketResult) : PacketResult := if code = resultOk then accum else code

/-- Host status codes (R95). -/
def statusOk : BitVec 3 := 0#3
def statusApTimeout : BitVec 3 := 1#3
def statusAckFault : BitVec 3 := 2#3
def statusWireError : BitVec 3 := 3#3
def statusInvalidCommand : BitVec 3 := 5#3

/-- `MapStatus`: OK to OK, WAIT to AP_TIMEOUT, FAULT to ACK_FAULT, anything else to WIRE_ERROR (R177). -/
def mapStatus (r : PacketResult) : BitVec 3 :=
  if r = resultOk then statusOk
  else if r = resultWait then statusApTimeout
  else if r = resultFault then statusAckFault
  else statusWireError

/-- Connection states (R34, R200). -/
def linkDisconnected : BitVec 2 := 0#2
def linkLineResetPending : BitVec 2 := 1#2
def linkConnected : BitVec 2 := 2#2

/-- `LINK` after a line reset: `(code == 0x1) ? 2 : 1` (R200, R202). -/
def linkAfter (code : PacketResult) : BitVec 2 :=
  if code = resultOk then linkConnected else linkLineResetPending

end Sys2Proof.Machine
end

