-- ==== Sys2Proof/Machine/State.lean ====
section
/-! DEFINITION. The machine's state: everything R20 gives the block, its SWD port with the target's pending answers and the wire trace (R6, R11, R12), and the agents around it (R6, R260) as plain data. -/

namespace Sys2Proof.Machine

/-- The four output latches (R20, R21, R22). -/
structure Pins where
  clkOe : Bool
  clk : Bool
  dioOe : Bool
  dioOut : Bool
  deriving DecidableEq, Repr

/-- One event of the wire trace (R11). -/
inductive Event where
  | pins (p : Pins)
  | sample (b : Bool)
  | delay (cycles : Nat)
  deriving DecidableEq, Repr

/-- One slot, the notation of one `Pulse()` (R12): `0`/`1`, `z`, `L`/`H`. -/
inductive Slot where
  | driven (b : Bool)
  | released
  | sampled (b : Bool)
  deriving DecidableEq, Repr

/-- The SWD port: the latches, what the target will answer, and what has been seen on the wire. -/
structure Port where
  /-- the output latches (R20) -/
  pins : Pins
  /-- the bits the target will answer at the next samples, in order: the draws of R6 (log entry 5) -/
  draws : List Bool
  /-- how many samples have been taken: the argument of the free value that stands for an unlisted draw (log entry 5) -/
  drawn : Nat
  /-- the wire trace of R11, newest event first (log entry 11) -/
  trace : List Event
  /-- the slots of R12, newest first (log entry 11) -/
  slots : List Slot
  deriving DecidableEq, Repr

/-- Where a sampled bit goes: a bit of the byte, a bit of the acknowledge, the parity bit (R116, R144, R146). -/
inductive SampleTo where
  | byteBit (i : Nat)
  | ackBit (i : Nat)
  | parity
  deriving DecidableEq, Repr

/-- One step still to run of the commands' pseudocode: a statement, a routine call or a loop test (log entry 2). The numbers are the routine counters of R31: bit index, pulse count, attempt number, word index. -/
inductive Micro where
  -- latch writes
  | clkOe (b : Bool)
  | clk (b : Bool)
  | dioOe (b : Bool)
  | dioOut (b : Bool)
  /-- the `CLK <- 1` of a `Pulse()`, where the slot is (R12) -/
  | pulseRise
  -- samples and the values they build
  | sampleBit
  | resultFromBit
  | sampleTo (dst : SampleTo)
  | clearByte
  | clearAck
  | clearWord
  | resultFromByte
  | wordByte (k : Nat)
  | delay (attempt remaining : Nat)
  -- routines of the transceiver (R10, R115, R116, R117, R118, R121)
  | pulse
  | readBit (dst : SampleTo)
  | shiftOutByte (b : Byte)
  | shiftOutFrom (b : Byte) (i : Nat)
  | shiftInByte
  | shiftInFrom (i : Nat)
  | idlePulse
  | pulses (k : Nat)
  | shiftResetSeq
  -- the packet framer (R141)
  | shiftPacket (req retry : Byte)
  | attempt (req : Byte) (a n : Nat)
  | ackFrom (i : Nat)
  | afterAck (req : Byte) (a n : Nat)
  | readByteFrom (k : Nat)
  | dataFromWord
  | checkParity
  | dataByteOut (k : Nat)
  | writeByteFrom (k : Nat)
  | parityOut
  | ackFromCode
  | accumFromCode
  -- the DAP transaction sequencer (R179)
  | accumOk
  | storeWord (i : Nat)
  | loadWord (i : Nat)
  | moveRead (h : Byte) (i n : Nat)
  | moveWrite (h : Byte) (i n : Nat)
  | statusFromAccum
  -- the target control sequencer (R201 to R208)
  | idleLines
  | jtagToSwd
  | swdToJtag
  | lineResetSeq
  | link (v : BitVec 2)
  | linkFromCode
  | data (w : Word)
  deriving DecidableEq, Repr

/-- The pseudocode's local variables while a command runs: `b`, `v` of a byte, `ack`, `v` of a word, `p` and `code`. -/
structure Locals where
  bit : Bool := false
  byte : Byte := 0
  ack : AckBits := 0
  word : Word := 0
  parity : Bool := false
  code : PacketResult := 0
  deriving DecidableEq, Repr

/-- The microsequencer position (R31): idle, or what is left of the running command. -/
inductive Position where
  | idle
  | running (todo : List Micro) (locals : Locals)
  deriving DecidableEq, Repr

/-- What acts on the block from outside, in order (R6, R39, R100, R260; log entries 9 and 16). -/
inductive Input where
  /-- the host writes `value` at byte offset `offset` with an access of `width` bits (R39, R47) -/
  | write (width offset : Nat) (value : Word)
  /-- the host reads at byte offset `offset` with an access of `width` bits (R39, R47) -/
  | read (width offset : Nat)
  /-- the host polls `CSR` until `BUSY = 0` (`WAIT_IDLE`, R100, R270) -/
  | waitIdle
  /-- nothing from outside: a running command advances by one statement (R31) -/
  | tick
  /-- the platform drives `RST_N` to `level` (R260) -/
  | rstN (level : Bool)
  /-- a request header reaches the packet framer (R1, R90; log entry 8) -/
  | request (header : Byte)
  deriving DecidableEq, Repr

/-- How the model follows a command: R5 lets a model take either level (log entry 1). -/
inductive Level where
  | command
  | slot
  deriving DecidableEq, Repr

/-- The whole machine. The first ten fields are the block's state (R20). -/
structure State where
  /-- the SWD port with the latches `CLK_OE`, `CLK`, `DIO_OE`, `DIO_OUT` -/
  port : Port
  /-- `DATA` (R28) -/
  data : Word
  /-- `RESULT` (R29) -/
  result : Byte
  /-- `ACK` (R30) -/
  ack : PacketResult
  /-- `ACCUM` (R32) -/
  accum : PacketResult
  /-- `STATUS` (R33) -/
  status : BitVec 3
  /-- `LINK` (R34) -/
  link : BitVec 2
  /-- `BUSY` (R35) -/
  busy : Bool
  /-- `WORDS` (R36): index and entry, indices strictly rising; an unlisted entry is one nothing has written since reset -/
  words : List (Nat × Word)
  /-- the microsequencer position (R31) -/
  pos : Position
  /-- the level of the reset input `RST_N`, active low (R260) -/
  rstN : Bool
  /-- what the host and the platform do next, in order (log entry 9) -/
  inputs : List Input
  /-- the values host reads have returned, newest first (R49; log entry 15) -/
  replies : List Word
  /-- how many unspecified host reads have been answered: the argument of their free value (log entry 6) -/
  loose : Nat
  /-- the level at which commands are followed (log entry 1) -/
  level : Level
  deriving DecidableEq, Repr

/-- The reasons the machine stops with a fault. -/
inductive Fault where
  /-- `WORDS[index]` is read and nothing has written it since reset: raised by `DAP_MOVE` write paths and by host reads of `WORDS` (R174, U7). Safe. -/
  | unwrittenWord (index : Nat)
  deriving DecidableEq, Repr

/-- The reasons the machine refuses. -/
inductive Refusal where
  /-- An instruction that has no meaning yet: raised by exec's arms only. Safe. -/
  | notModelled (mnemonic : String)
  /-- A host access that is not 32 bits wide or not at a multiple of 4: no defined effect, "a model refuses it" (R47, U2). Raised by host accesses. Safe. -/
  | badHostAccess (width offset : Nat)
  deriving DecidableEq, Repr

/-- The latches after reset: both lines released (R50). -/
def Pins.reset : Pins := ⟨false, false, false, false⟩

/-- The machine right after reset (R50, R260), with `RST_N` back at 1 and nothing listed of what host and target will do (log entries 5, 6, 9, 11, 15). -/
def State.reset : State where
  port := { pins := Pins.reset, draws := [], drawn := 0, trace := [], slots := [] }
  data := 0x00000000#32
  result := 0x00#8
  ack := 0x0#4
  accum := 0x1#4
  status := 0#3
  link := 0#2
  busy := false
  words := []
  pos := .idle
  rstN := true
  inputs := []
  replies := []
  loose := 0
  level := .command

end Sys2Proof.Machine
end

