-- ==== Sys2Proof/Machine/Memory.lean ====
section
/-! DEFINITION. The word buffer `WORDS`, the block's only memory (R9, R36, R61): word-addressed, held as a list of written entries in one canonical form. -/

namespace Sys2Proof.Machine

/-- The written entries of `WORDS`, by index (log entry 7). -/
abbrev Memory := List (Nat × Word)

/-- `WORDS[i]`, if anything has written it since reset (R50, U7). -/
def Memory.read : Memory → Nat → Option Word
  | [], _ => none
  | (j, v) :: rest, i => if i = j then some v else Memory.read rest i

/-- `WORDS[i] <- w`, keeping the indices strictly rising. -/
def Memory.write : Memory → Nat → Word → Memory
  | [], i, w => [(i, w)]
  | (j, v) :: rest, i, w =>
    if i < j then (i, w) :: (j, v) :: rest
    else if i = j then (i, w) :: rest
    else (j, v) :: Memory.write rest i w

/-- Every index is at least `lo` and below the depth, and they rise strictly. -/
def Memory.risesFrom : Nat → Memory → Bool
  | _, [] => true
  | lo, (j, _) :: rest => decide (lo ≤ j) && decide (j < wordsDepth) && Memory.risesFrom (j + 1) rest

/-- The canonical form: indices strictly rising and all in 0..255 (R36, R61). -/
def Memory.wf (m : Memory) : Bool := Memory.risesFrom 0 m

/-- `WORDS[i], …, WORDS[i+n-1]` in order, or the first index of them that nothing has written (R174). -/
def Memory.gather (m : Memory) : Nat → Nat → Except Nat (List Word)
  | 0, _ => .ok []
  | n + 1, i =>
    match Memory.read m i with
    | none => .error i
    | some w =>
      match Memory.gather m n (i + 1) with
      | .ok ws => .ok (w :: ws)
      | .error j => .error j

end Sys2Proof.Machine
end

