-- ==== Sys2Proof/Machine/Ops.lean ====
section
/-! DEFINITION. The shared operations: the wire primitives (R10, R11), the transceiver routines (R115 to R118, R121), the packet framer (R140 to R149), and the block's only error entries (R149, R233): it has no exceptions (R238, R240). -/

namespace Sys2Proof.Machine

/-! ### Latches and wire primitives -/

/-- A write of the latch tuple: one `Pins` event when it changes value (R11). -/
def Port.setPins (q : Pins) (p : Port) : Port :=
  if q = p.pins then p else { p with pins := q, trace := .pins q :: p.trace }

/-- `CLK_OE <- b` (R21). -/
def Port.setClkOe (b : Bool) (p : Port) : Port := p.setPins { p.pins with clkOe := b }

/-- `CLK <- b` (R21). -/
def Port.setClk (b : Bool) (p : Port) : Port := p.setPins { p.pins with clk := b }

/-- `DIO_OE <- b`, `DIO_OUT` unchanged (R22). -/
def Port.setDioOe (b : Bool) (p : Port) : Port := p.setPins { p.pins with dioOe := b }

/-- `DIO_OUT <- b`, `DIO_OE` unchanged (R22). -/
def Port.setDioOut (b : Bool) (p : Port) : Port := p.setPins { p.pins with dioOut := b }

/-- The slot of a `Pulse()`, as SWDIO stands at the rising edge (R12). -/
def slotOf (q : Pins) : Slot := if q.dioOe then .driven q.dioOut else .released

/-- `CLK <- 1` within a `Pulse()`. The slot is counted here, so one that a reset cuts short counts from its `CLK <- 1` on: DESIGN CHOICE (R12, R261; log entry 18). -/
def Port.pulseRise (p : Port) : Port :=
  let q := p.setClk true
  { q with slots := slotOf q.pins :: q.slots }

/-- `Pulse()`: `CLK_OE <- 1; CLK <- 1; CLK <- 0` (R10). -/
def Port.pulse (p : Port) : Port := (p.setClkOe true).pulseRise.setClk false

/-- The next draw: the target's listed answer, else a free value (R6, R25). -/
def Port.nextDraw (p : Port) : Bool :=
  match p.draws with
  | b :: _ => b
  | [] => Config.freeDraw p.drawn

/-- `Sample()`: reads SWDIO and appends `Sample(b)` to the trace (R10, R11, R23). -/
def Port.sample (p : Port) : Bool × Port :=
  (p.nextDraw, { p with draws := p.draws.tail, drawn := p.drawn + 1, trace := .sample p.nextDraw :: p.trace })

/-- A released slot that is sampled after its pulse reads `L` or `H` (R12). -/
def markSampled (b : Bool) : List Slot → List Slot
  | .released :: rest => .sampled b :: rest
  | slots => slots

/-- `Sample()` right after a `Pulse()`: the slot before it becomes `L` or `H` (R12). -/
def Port.sampleSlot (p : Port) : Bool × Port :=
  let r := p.sample
  (r.1, { r.2 with slots := markSampled r.1 r.2.slots })

/-- `Delay(d)`: no pin changes; a trace event when `d > 0` (R10, R11, R151). -/
def Port.delay (d : Nat) (p : Port) : Port :=
  { p with trace := if 0 < d then .delay d :: p.trace else p.trace }

/-! ### Transceiver routines -/

/-- `for i in i..i+n-1: DIO_OUT <- b[i]; Pulse()` (R115). -/
def Port.shiftOutFrom (b : Byte) : Nat → Nat → Port → Port
  | 0, _, p => p
  | n + 1, i, p => Port.shiftOutFrom b n (i + 1) (p.setDioOut (b.getLsbD i)).pulse

/-- `ShiftOutByte(b)` (R115). -/
def Port.shiftOutByte (b : Byte) (p : Port) : Port := Port.shiftOutFrom b 8 0 (p.setDioOe true)

/-- `ReadBit()`: `Pulse(); return Sample()` (R117). -/
def Port.readBit (p : Port) : Bool × Port := p.pulse.sampleSlot

/-- `for i in i..i+n-1: v[i] <- ReadBit()` (R116, R144). -/
def Port.readBitsFrom {m : Nat} : Nat → Nat → BitVec m → Port → BitVec m × Port
  | 0, _, v, p => (v, p)
  | n + 1, i, v, p => Port.readBitsFrom n (i + 1) (setBit v i p.readBit.1) p.readBit.2

/-- `ShiftInByte()` (R116). -/
def Port.shiftInByte (p : Port) : Byte × Port := Port.readBitsFrom 8 0 0x00#8 (p.setDioOe false)

/-- `IdlePulse()` (R118). -/
def Port.idlePulse (p : Port) : Port := ((p.setDioOe true).setDioOut false).pulse

/-- `n` times `Pulse()`. -/
def Port.pulses : Nat → Port → Port
  | 0, p => p
  | n + 1, p => Port.pulses n p.pulse

/-- `ShiftResetSeq()` (R121). -/
def Port.shiftResetSeq (p : Port) : Port := Port.pulses lineResetPulses ((p.setDioOut true).setDioOe true)

/-! ### The packet framer -/

/-- One attempt: idle pulse, header, turnaround, three acknowledge bits (R144). -/
def Port.attempt (req : Byte) (p : Port) : AckBits × Port :=
  Port.readBitsFrom 3 0 0b000#3 ((p.idlePulse.shiftOutByte req).setDioOe false).pulse

/-- Attempt number `a` with `more` attempts allowed after it: WAIT is the only retryable acknowledge (R143). -/
def Port.attempts (req : Byte) : Nat → Nat → Port → AckBits × Port
  | 0, _, p => p.attempt req
  | more + 1, a, p =>
    let r := p.attempt req
    if r.1 = ackWait then Port.attempts req more (a + 1) (r.2.delay (Config.waitDelay a (more + 1)))
    else r

/-- `for k in k..k+n-1: v[8k+7:8k] <- ShiftInByte()` (R146). -/
def Port.readBytesFrom : Nat → Nat → Word → Port → Word × Port
  | 0, _, v, p => (v, p)
  | n + 1, k, v, p => Port.readBytesFrom n (k + 1) (setByte v k p.shiftInByte.1) p.shiftInByte.2

/-- The read data phase: four bytes, then the parity bit (R146). -/
def Port.readPhase (p : Port) : Word × Bool × Port :=
  let r := Port.readBytesFrom 4 0 0x00000000#32 p
  (r.1, r.2.readBit)

/-- `for k in k..k+n-1: ShiftOutByte(w[8k+7:8k])` (R147). -/
def Port.writeBytesFrom (w : Word) : Nat → Nat → Port → Port
  | 0, _, p => p
  | n + 1, k, p => Port.writeBytesFrom w n (k + 1) (p.shiftOutByte (byteAt w k))

/-- The write data phase: turnaround with `DIO_OUT` unchanged, four bytes, the parity bit (R147). -/
def Port.writePhase (w : Word) (p : Port) : Port :=
  ((Port.writeBytesFrom w 4 0 (p.setDioOe true).pulse).setDioOut (parity w)).pulse

/-- Step 6: the data phase, which only an OK acknowledge has (R145, R146, R147). -/
def dataPhase (req : Byte) (code : PacketResult) (s : State) : PacketResult × State :=
  if code = resultOk then
    if headerIsRead req then
      let r := s.port.readPhase
      (readResult r.1 r.2.1, { s with port := r.2.2, data := r.1 })
    else (code, { s with port := s.port.writePhase s.data })
  else (code, s)

/-- Step 8, the packet-level error record: `ACK <- code`, and `ACCUM <- code` when it is not OK (R149, R231). -/
def State.recordResult (code : PacketResult) (s : State) : State :=
  { s with ack := code, accum := accumulate s.accum code }

/-- Steps 7 and 8: the final idle pulse, then the record (R148, R149). -/
def State.endPacket (code : PacketResult) (s : State) : State :=
  State.recordResult code { s with port := s.port.idlePulse }

/-- `ShiftPacket(req, retry)` (R141). -/
def shiftPacket (req retry : Byte) (s : State) : PacketResult × State :=
  let r := Port.attempts req (attemptLimit retry - 1) 1 s.port
  let d := dataPhase req (r.1.setWidth 4) { s with port := r.2 }
  (d.1, d.2.endPacket d.1)

/-! ### Registers and the start and end of a command -/

/-- `WORDS[i] <- w` (R9). -/
def State.writeWord (i : Nat) (w : Word) (s : State) : State := { s with words := Memory.write s.words i w }

/-- Acceptance of a valid command word: `BUSY <- 1` (R85). -/
def State.accept (s : State) : State := { s with busy := true }

/-- The end of a command: `BUSY <- 0` (R85). -/
def State.finish (s : State) : State := { s with busy := false }

/-- A command at the command level: `BUSY <- 1`, its pseudocode from first to last statement, `BUSY <- 0` (R5, R85). -/
def runCommand (body : State → State) (s : State) : Host.Outcome State Fault Refusal :=
  .next (body s.accept).finish

/-- A command whose pseudocode touches the SWD port alone. -/
def runPort (body : Port → Port) (s : State) : Host.Outcome State Fault Refusal :=
  runCommand (fun t => { t with port := body t.port }) s

/-- A packet as a command: `ShiftPacket(req, retry)` (R150). -/
def runPacket (req retry : Byte) (s : State) : Host.Outcome State Fault Refusal :=
  runCommand (fun t => (shiftPacket req retry t).2) s

/-- The whole report of an invalid command word: `STATUS <- 5` (R83, R233). -/
def State.reportInvalid (s : State) : State := { s with status := statusInvalidCommand }

/-- The block's reset: every piece of its state takes its reset value (R50, R260, R261); what lies around the block stays (log entry 10). -/
def State.blockReset (s : State) : State :=
  { s with
    port := s.port.setPins Pins.reset
    data := State.reset.data
    result := State.reset.result
    ack := State.reset.ack
    accum := State.reset.accum
    status := State.reset.status
    link := State.reset.link
    busy := State.reset.busy
    words := State.reset.words
    pos := State.reset.pos }

end Sys2Proof.Machine
end

