-- ==== Sys2Proof/Machine/DapMove.lean ====
section
/-! DEFINITION. The DAP transaction sequencer: `DAP_MOVE` (R170 to R180). -/

namespace Sys2Proof.Machine

/-- The move's packets all have retry operand 0 (R172). -/
def movePacket (h : Byte) (s : State) : State := (shiftPacket h 0x00#8 s).2

/-- `n` times, for `i` upward: `ShiftPacket(h, 0)`, then `WORDS[i] <- DATA`, whatever the result (R173, R176). -/
def readWords (h : Byte) : Nat → Nat → State → State
  | 0, _, s => s
  | n + 1, i, s => readWords h n (i + 1) ((movePacket h s).writeWord i (movePacket h s).data)

/-- The DP read path: `n` packets, each stored (R173). -/
def moveDpRead (h : Byte) (n : Nat) (s : State) : State := readWords h n 0 s

/-- The AP read path: the first packet's word is not stored, each later one goes one entry behind, and RDBUFF gives the last (R173, R182). -/
def moveApRead (h : Byte) (n : Nat) (s : State) : State :=
  let t := movePacket (reqHeader dpRdbuffRd) (readWords h (n - 1) 0 (movePacket h s))
  t.writeWord (n - 1) t.data

/-- For each word in order: `DATA <- w`, then `ShiftPacket(h, 0)`, whatever the result (R174, R176). -/
def writeWords (h : Byte) : List Word → State → State
  | [], s => s
  | w :: ws, s => writeWords h ws (movePacket h { s with data := w })

/-- The write path and, for an AP write with `final`, the RDBUFF read (R174, R175). -/
def moveWrite (dap : DapAddr) (final : Bool) (ws : List Word) (s : State) : State :=
  let t := writeWords (reqHeader dap) ws s
  if isAp dap && final then movePacket (reqHeader dpRdbuffRd) t else t

/-- A move's start: `ACCUM <- OK` (R171). -/
def startMove (s : State) : State := { s with accum := resultOk }

/-- A move's end: one idle pulse, then the status map (R177, R178). -/
def endMove (s : State) : State := { s with port := s.port.idlePulse, status := mapStatus s.accum }

/-- The read paths of `DapMove(count, dap, final)` (R173, R179). -/
def moveReadPath (count : Byte) (dap : DapAddr) (s : State) : State :=
  if isAp dap then moveApRead (reqHeader dap) (moveLength count) s
  else moveDpRead (reqHeader dap) (moveLength count) s

/-- `DAP_MOVE count, dap [, FINAL]` (R179, R180). A write path that would read an unwritten entry faults (R174); no packet writes `WORDS`, so the entries are read before the first packet (log entry 14). -/
def execDapMove (count : Byte) (dap : DapAddr) (final : Bool) (s : State) : Host.Outcome State Fault Refusal :=
  if isRead dap then runCommand (fun t => endMove (moveReadPath count dap (startMove t))) s
  else
    match Memory.gather s.words (moveLength count) 0 with
    | .ok ws => runCommand (fun t => endMove (moveWrite dap final ws (startMove t))) s
    | .error i => .fault (.unwrittenWord i)

end Sys2Proof.Machine
end

