-- ==== Sys2Proof/Machine/Packet.lean ====
section
/-! DEFINITION. The packet framer's instructions: `SHIFT_PACKET` (R150) and the 16 request headers of the opcode table (R90). -/

namespace Sys2Proof.Machine

/-- `SHIFT_PACKET request [, retry]`: `ShiftPacket(request, retry)`, the byte sent unchanged and unchecked (R150, R156). -/
def execShiftPacket (request retry : Byte) (s : State) : Host.Outcome State Fault Refusal :=
  runPacket request retry s

/-! A request header as an instruction of its own: the framer sends it in one packet with the retry operand 0 that every packet of the block's own has (R90, R172, R209; log entry 8). -/

/-- DAP address 0x0, ABORT write (R90, R98). -/
def execReqDpAbortWr (s : State) : Host.Outcome State Fault Refusal := runPacket (reqHeader 0x0#4) 0x00#8 s
/-- DAP address 0x1, AP register 0x0 write (R90, R98). -/
def execReqAp0Wr (s : State) : Host.Outcome State Fault Refusal := runPacket (reqHeader 0x1#4) 0x00#8 s
/-- DAP address 0x2, IDCODE read (R90, R98). -/
def execReqDpIdcodeRd (s : State) : Host.Outcome State Fault Refusal := runPacket (reqHeader 0x2#4) 0x00#8 s
/-- DAP address 0x3, AP register 0x0 read (R90, R98). -/
def execReqAp0Rd (s : State) : Host.Outcome State Fault Refusal := runPacket (reqHeader 0x3#4) 0x00#8 s
/-- DAP address 0x4, CTRL/STAT write (R90, R98). -/
def execReqDpCtrlstatWr (s : State) : Host.Outcome State Fault Refusal := runPacket (reqHeader 0x4#4) 0x00#8 s
/-- DAP address 0x5, AP register 0x4 write (R90, R98). -/
def execReqAp4Wr (s : State) : Host.Outcome State Fault Refusal := runPacket (reqHeader 0x5#4) 0x00#8 s
/-- DAP address 0x6, CTRL/STAT read (R90, R98). -/
def execReqDpCtrlstatRd (s : State) : Host.Outcome State Fault Refusal := runPacket (reqHeader 0x6#4) 0x00#8 s
/-- DAP address 0x7, AP register 0x4 read (R90, R98). -/
def execReqAp4Rd (s : State) : Host.Outcome State Fault Refusal := runPacket (reqHeader 0x7#4) 0x00#8 s
/-- DAP address 0x8, SELECT write (R90, R98). -/
def execReqDpSelectWr (s : State) : Host.Outcome State Fault Refusal := runPacket (reqHeader 0x8#4) 0x00#8 s
/-- DAP address 0x9, AP register 0x8 write (R90, R98). -/
def execReqAp8Wr (s : State) : Host.Outcome State Fault Refusal := runPacket (reqHeader 0x9#4) 0x00#8 s
/-- DAP address 0xA, an unnamed DP read, sent like any other (R90, R98). -/
def execReqDapA (s : State) : Host.Outcome State Fault Refusal := runPacket (reqHeader 0xA#4) 0x00#8 s
/-- DAP address 0xB, AP register 0x8 read (R90, R98). -/
def execReqAp8Rd (s : State) : Host.Outcome State Fault Refusal := runPacket (reqHeader 0xB#4) 0x00#8 s
/-- DAP address 0xC, an unnamed DP write, sent like any other (R90, R98). -/
def execReqDapC (s : State) : Host.Outcome State Fault Refusal := runPacket (reqHeader 0xC#4) 0x00#8 s
/-- DAP address 0xD, AP register 0xC write (R90, R98). -/
def execReqApCWr (s : State) : Host.Outcome State Fault Refusal := runPacket (reqHeader 0xD#4) 0x00#8 s
/-- DAP address 0xE, RDBUFF read (R90, R98). -/
def execReqDpRdbuffRd (s : State) : Host.Outcome State Fault Refusal := runPacket (reqHeader 0xE#4) 0x00#8 s
/-- DAP address 0xF, AP register 0xC read (R90, R98). -/
def execReqApCRd (s : State) : Host.Outcome State Fault Refusal := runPacket (reqHeader 0xF#4) 0x00#8 s

end Sys2Proof.Machine
end

