-- ==== Sys2Proof/Machine/Sequencer.lean ====
section
/-! DEFINITION. The target control sequencer: `CONNECT`, `LINE_RESET`, `DISCONNECT`, `CLEAR_ERRORS` (R200 to R210). -/

namespace Sys2Proof.Machine

/-- `IdleLines()`: clock driven 0, data driven 0, no pulse (R201). -/
def Port.idleLines (p : Port) : Port := (((p.setClkOe true).setClk false).setDioOe true).setDioOut false

/-- `JtagToSwd()`: bytes 0x9E, 0xE7 (R203). -/
def Port.jtagToSwd (p : Port) : Port := (p.shiftOutByte 0x9E#8).shiftOutByte 0xE7#8

/-- `SwdToJtag()`: bytes 0x3C, 0xE7 (R204). -/
def Port.swdToJtag (p : Port) : Port := (p.shiftOutByte 0x3C#8).shiftOutByte 0xE7#8

/-- The sequencer's packets are plain `ShiftPacket` calls with retry operand 0 (R209). -/
def sequencerPacket (dap : DapAddr) (s : State) : PacketResult × State := shiftPacket (reqHeader dap) 0x00#8 s

/-- `LineResetSeq()`: 64 pulses high, an idle byte, the IDCODE read, an idle byte, then `LINK` (R200, R202). -/
def lineResetSeq (s : State) : State :=
  let r := sequencerPacket dpIdcodeRd { s with port := s.port.shiftResetSeq.shiftOutByte 0x00#8 }
  { r.2 with port := r.2.port.shiftOutByte 0x00#8, link := linkAfter r.1 }

/-- `CONNECT`: lines idle, the switch sequence, `LINK <- 1`, then the line reset (R205). -/
def execConnect (s : State) : Host.Outcome State Fault Refusal :=
  runCommand (fun t => lineResetSeq { t with port := t.port.idleLines.jtagToSwd, link := linkLineResetPending }) s

/-- `LINE_RESET` (R206). -/
def execLineReset (s : State) : Host.Outcome State Fault Refusal := runCommand lineResetSeq s

/-- `DISCONNECT`: the switch sequence back, both lines released, `LINK <- 0` (R207). -/
def execDisconnect (s : State) : Host.Outcome State Fault Refusal :=
  runCommand (fun t =>
    { t with port := (t.port.swdToJtag.setClkOe false).setDioOe false, link := linkDisconnected }) s

/-- The first two statements of `CLEAR_ERRORS`: the CTRL/STAT read and its snapshot (R208). -/
def clearErrorsRead (i : Nat) (s : State) : State :=
  let t := (sequencerPacket dpCtrlstatRd s).2
  t.writeWord i t.data

/-- `CLEAR_ERRORS`: CTRL/STAT to `WORDS[0]`, the abort mask to ABORT, CTRL/STAT to `WORDS[1]` (R208). -/
def execClearErrors (s : State) : Host.Outcome State Fault Refusal :=
  runCommand (fun t =>
    clearErrorsRead 1 (sequencerPacket dpAbortWr { clearErrorsRead 0 t with data := abortMask }).2) s

end Sys2Proof.Machine
end

