-- ==== Sys2Proof/Machine/Transceiver.lean ====
section
/-! DEFINITION. The transceiver commands (R110 to R114, R119 to R122): no check of the caller, no failure, no result register but `RESULT`. -/

namespace Sys2Proof.Machine

/-- `SET_CLOCK level`: `CLK_OE <- 1; CLK <- level` (R111). -/
def execSetClock (level : Bool) (s : State) : Host.Outcome State Fault Refusal :=
  runPort (fun p => (p.setClkOe true).setClk level) s

/-- `SET_DATA level`: `DIO_OUT <- level` (R112). -/
def execSetData (level : Bool) (s : State) : Host.Outcome State Fault Refusal :=
  runPort (fun p => p.setDioOut level) s

/-- `READ_DATA`: `b <- Sample(); RESULT <- zext_8(b)` (R113). -/
def execReadData (s : State) : Host.Outcome State Fault Refusal :=
  runCommand (fun t => { t with port := t.port.sample.2, result := (BitVec.ofBool t.port.sample.1).setWidth 8 }) s

/-- `SET_DIR dir`: `DIO_OE <- dir` (R114). -/
def execSetDir (output : Bool) (s : State) : Host.Outcome State Fault Refusal :=
  runPort (fun p => p.setDioOe output) s

/-- `SHIFT_OUT byte`: `ShiftOutByte(byte)` (R119). -/
def execShiftOut (byte : Byte) (s : State) : Host.Outcome State Fault Refusal :=
  runPort (fun p => p.shiftOutByte byte) s

/-- `SHIFT_IN`: `RESULT <- ShiftInByte()` (R120). -/
def execShiftIn (s : State) : Host.Outcome State Fault Refusal :=
  runCommand (fun t => { t with port := t.port.shiftInByte.2, result := t.port.shiftInByte.1 }) s

/-- `SHIFT_RESET`: `ShiftResetSeq()`; `LINK` is not written (R121). -/
def execShiftReset (s : State) : Host.Outcome State Fault Refusal :=
  runPort (fun p => p.shiftResetSeq) s

end Sys2Proof.Machine
end

