-- ==== Sys2Proof/Machine/Dispatch.lean ====
section
/-! DEFINITION. One arm per instruction, each one call of its meaning. -/

namespace Sys2Proof.Machine

def exec (i : Instr) (s : State) : Host.Outcome State Fault Refusal :=
  match i with
  | .setClock level => Sys2Proof.Machine.execSetClock level s
  | .setData level => Sys2Proof.Machine.execSetData level s
  | .readData => Sys2Proof.Machine.execReadData s
  | .setDir output => Sys2Proof.Machine.execSetDir output s
  | .shiftOut byte => Sys2Proof.Machine.execShiftOut byte s
  | .shiftIn => Sys2Proof.Machine.execShiftIn s
  | .shiftReset => Sys2Proof.Machine.execShiftReset s
  | .shiftPacket request retry => Sys2Proof.Machine.execShiftPacket request retry s
  | .dapMove count dap final => Sys2Proof.Machine.execDapMove count dap final s
  | .connect => Sys2Proof.Machine.execConnect s
  | .lineReset => Sys2Proof.Machine.execLineReset s
  | .disconnect => Sys2Proof.Machine.execDisconnect s
  | .clearErrors => Sys2Proof.Machine.execClearErrors s
  | .reqDpAbortWr => Sys2Proof.Machine.execReqDpAbortWr s
  | .reqAp0Wr => Sys2Proof.Machine.execReqAp0Wr s
  | .reqDpIdcodeRd => Sys2Proof.Machine.execReqDpIdcodeRd s
  | .reqAp0Rd => Sys2Proof.Machine.execReqAp0Rd s
  | .reqDpCtrlstatWr => Sys2Proof.Machine.execReqDpCtrlstatWr s
  | .reqAp4Wr => Sys2Proof.Machine.execReqAp4Wr s
  | .reqDpCtrlstatRd => Sys2Proof.Machine.execReqDpCtrlstatRd s
  | .reqAp4Rd => Sys2Proof.Machine.execReqAp4Rd s
  | .reqDpSelectWr => Sys2Proof.Machine.execReqDpSelectWr s
  | .reqAp8Wr => Sys2Proof.Machine.execReqAp8Wr s
  | .reqDapA => Sys2Proof.Machine.execReqDapA s
  | .reqAp8Rd => Sys2Proof.Machine.execReqAp8Rd s
  | .reqDapC => Sys2Proof.Machine.execReqDapC s
  | .reqApCWr => Sys2Proof.Machine.execReqApCWr s
  | .reqDpRdbuffRd => Sys2Proof.Machine.execReqDpRdbuffRd s
  | .reqApCRd => Sys2Proof.Machine.execReqApCRd s

end Sys2Proof.Machine
end

