-- ==== Sys2Proof/Machine/Micro.lean ====
section
/-! DEFINITION. The slot level (R5, R31): the commands' pseudocode as lists of statements, and the microsequencer that runs one at a time. What is a step of its own and what is part of a neighbouring one is the model's choice (log entry 2). -/

namespace Sys2Proof.Machine

/-- What one statement does: the statements a routine or loop stands for, and the locals and state after it. -/
abbrev MicroResult := Except Fault (List Micro × Locals × State)

/-- A statement that is done once it has changed the SWD port. -/
def onPort (f : Port → Port) (l : Locals) (s : State) : MicroResult := .ok ([], l, { s with port := f s.port })

/-- A sampled bit goes where its statement says (R116, R144, R146). -/
def Locals.put (dst : SampleTo) (b : Bool) (l : Locals) : Locals :=
  match dst with
  | .byteBit i => { l with byte := setBit l.byte i b }
  | .ackBit i => { l with ack := setBit l.ack i b }
  | .parity => { l with parity := b }

/-- Steps 7 and 8 of a packet (R148, R149). -/
def packetEnd : List Micro := [.idlePulse, .ackFromCode, .accumFromCode]

/-- What follows the acknowledge of attempt `a` of `n`: a retry, a data phase, or the end (R143, R145). `code <- zext_4(ack)` and the tests of `ack`, `attempt`, `code` and `req[2]` are one step together, and `goto loop` takes none: DESIGN CHOICE (log entry 2). -/
def afterAckBody (req : Byte) (a n : Nat) (ack : AckBits) : List Micro :=
  if ack = ackWait ∧ a < n then [.delay a (n - a), .attempt req (a + 1) n]
  else if (ack.setWidth 4 : PacketResult) = resultOk then
    if headerIsRead req then
      [.clearWord, .readByteFrom 0, .readBit .parity, .dataFromWord, .checkParity] ++ packetEnd
    else [.dioOe true, .pulse, .writeByteFrom 0, .parityOut, .pulse] ++ packetEnd
  else packetEnd

/-- One step of the pseudocode: a statement, or a routine call or loop test. Which assignments to its own variables (`N`, `attempt`, `ack`, `code`, `v`, `p`) and which conditions are steps of their own, log entry 2 lists: DESIGN CHOICE. -/
def runMicro (m : Micro) (l : Locals) (s : State) : MicroResult :=
  match m with
  | .clkOe b => onPort (Port.setClkOe b) l s
  | .clk b => onPort (Port.setClk b) l s
  | .dioOe b => onPort (Port.setDioOe b) l s
  | .dioOut b => onPort (Port.setDioOut b) l s
  | .pulseRise => onPort Port.pulseRise l s
  | .sampleBit => .ok ([], { l with bit := s.port.sample.1 }, { s with port := s.port.sample.2 })
  | .resultFromBit => .ok ([], l, { s with result := (BitVec.ofBool l.bit).setWidth 8 })
  | .sampleTo dst => .ok ([], l.put dst s.port.sampleSlot.1, { s with port := s.port.sampleSlot.2 })
  | .clearByte => .ok ([], { l with byte := 0x00#8 }, s)
  | .clearAck => .ok ([], { l with ack := 0b000#3 }, s)
  | .clearWord => .ok ([], { l with word := 0x00000000#32 }, s)
  | .resultFromByte => .ok ([], l, { s with result := l.byte })
  | .wordByte k => .ok ([], { l with word := setByte l.word k l.byte }, s)
  | .delay a r => onPort (Port.delay (Config.waitDelay a r)) l s
  | .pulse => .ok ([.clkOe true, .pulseRise, .clk false], l, s)
  | .readBit dst => .ok ([.pulse, .sampleTo dst], l, s)
  | .shiftOutByte b => .ok ([.dioOe true, .shiftOutFrom b 0], l, s)
  | .shiftOutFrom b i =>
    .ok (if i < 8 then [.dioOut (b.getLsbD i), .pulse, .shiftOutFrom b (i + 1)] else [], l, s)
  | .shiftInByte => .ok ([.dioOe false, .clearByte, .shiftInFrom 0], l, s)
  | .shiftInFrom i => .ok (if i < 8 then [.pulse, .sampleTo (.byteBit i), .shiftInFrom (i + 1)] else [], l, s)
  | .idlePulse => .ok ([.dioOe true, .dioOut false, .pulse], l, s)
  | .pulses k => .ok (if k < lineResetPulses then [.pulse, .pulses (k + 1)] else [], l, s)
  | .shiftResetSeq => .ok ([.dioOut true, .dioOe true, .pulses 0], l, s)
  | .shiftPacket req retry => .ok ([.attempt req 1 (attemptLimit retry)], l, s)
  | .attempt req a n =>
    .ok ([.idlePulse, .shiftOutByte req, .dioOe false, .pulse, .clearAck, .ackFrom 0, .afterAck req a n], l, s)
  | .ackFrom i => .ok (if i < 3 then [.readBit (.ackBit i), .ackFrom (i + 1)] else [], l, s)
  | .afterAck req a n => .ok (afterAckBody req a n l.ack, { l with code := l.ack.setWidth 4 }, s)
  | .readByteFrom k => .ok (if k < 4 then [.shiftInByte, .wordByte k, .readByteFrom (k + 1)] else [], l, s)
  | .dataFromWord => .ok ([], l, { s with data := l.word })
  | .checkParity => .ok ([], { l with code := readResult l.word l.parity }, s)
  | .dataByteOut k => .ok ([.dioOe true, .shiftOutFrom (byteAt s.data k) 0], l, s)
  | .writeByteFrom k => .ok (if k < 4 then [.dataByteOut k, .writeByteFrom (k + 1)] else [], l, s)
  | .parityOut => onPort (Port.setDioOut (parity s.data)) l s
  | .ackFromCode => .ok ([], l, { s with ack := l.code })
  | .accumFromCode => .ok ([], l, { s with accum := accumulate s.accum l.code })
  | .accumOk => .ok ([], l, { s with accum := resultOk })
  | .storeWord i => .ok ([], l, s.writeWord i s.data)
  | .loadWord i =>
    match Memory.read s.words i with
    | some w => .ok ([], l, { s with data := w })
    | none => .error (.unwrittenWord i)
  | .moveRead h i n =>
    .ok (if i < n then [.shiftPacket h 0x00#8, .storeWord i, .moveRead h (i + 1) n] else [], l, s)
  | .moveWrite h i n =>
    .ok (if i < n then [.loadWord i, .shiftPacket h 0x00#8, .moveWrite h (i + 1) n] else [], l, s)
  | .statusFromAccum => .ok ([], l, { s with status := mapStatus s.accum })
  | .idleLines => .ok ([.clkOe true, .clk false, .dioOe true, .dioOut false], l, s)
  | .jtagToSwd => .ok ([.shiftOutByte 0x9E#8, .shiftOutByte 0xE7#8], l, s)
  | .swdToJtag => .ok ([.shiftOutByte 0x3C#8, .shiftOutByte 0xE7#8], l, s)
  | .lineResetSeq =>
    .ok ([.shiftResetSeq, .shiftOutByte 0x00#8, .shiftPacket (reqHeader dpIdcodeRd) 0x00#8, .shiftOutByte 0x00#8,
      .linkFromCode], l, s)
  | .link v => .ok ([], l, { s with link := v })
  | .linkFromCode => .ok ([], l, { s with link := linkAfter l.code })
  | .data w => .ok ([], l, { s with data := w })

/-- The paths of a move between its start and its end (R173 to R175, R179). `n`, `h` and the branches on `dap` and `final` are settled here, when the command is accepted, and take no step: DESIGN CHOICE (log entry 2). -/
def moveProgram (count : Byte) (dap : DapAddr) (final : Bool) : List Micro :=
  let n := moveLength count
  let h := reqHeader dap
  let rdbuff := Micro.shiftPacket (reqHeader dpRdbuffRd) 0x00#8
  if isRead dap then
    if isAp dap then [.shiftPacket h 0x00#8, .moveRead h 0 (n - 1), rdbuff, .storeWord (n - 1)]
    else [.moveRead h 0 n]
  else .moveWrite h 0 n :: if isAp dap && final then [rdbuff] else []

/-- The pseudocode of a packet with the retry operand 0, for the header of a DAP address (R209). -/
def packetProgram (dap : DapAddr) : List Micro := [.shiftPacket (reqHeader dap) 0x00#8]

/-- The pseudocode of each instruction (R111 to R114, R119 to R121, R150, R179, R205 to R208; request headers: log entry 8). -/
def program : Instr → List Micro
  | .setClock l => [.clkOe true, .clk l]
  | .setData l => [.dioOut l]
  | .readData => [.sampleBit, .resultFromBit]
  | .setDir d => [.dioOe d]
  | .shiftOut b => [.shiftOutByte b]
  | .shiftIn => [.shiftInByte, .resultFromByte]
  | .shiftReset => [.shiftResetSeq]
  | .shiftPacket q r => [.shiftPacket q r]
  | .dapMove c d f => .accumOk :: moveProgram c d f ++ [.idlePulse, .statusFromAccum]
  | .connect => [.idleLines, .jtagToSwd, .link linkLineResetPending, .lineResetSeq]
  | .lineReset => [.lineResetSeq]
  | .disconnect => [.swdToJtag, .clkOe false, .dioOe false, .link linkDisconnected]
  | .clearErrors =>
    packetProgram dpCtrlstatRd ++ [.storeWord 0, .data abortMask] ++ packetProgram dpAbortWr ++
      packetProgram dpCtrlstatRd ++ [.storeWord 1]
  | .reqDpAbortWr => packetProgram 0x0#4
  | .reqAp0Wr => packetProgram 0x1#4
  | .reqDpIdcodeRd => packetProgram 0x2#4
  | .reqAp0Rd => packetProgram 0x3#4
  | .reqDpCtrlstatWr => packetProgram 0x4#4
  | .reqAp4Wr => packetProgram 0x5#4
  | .reqDpCtrlstatRd => packetProgram 0x6#4
  | .reqAp4Rd => packetProgram 0x7#4
  | .reqDpSelectWr => packetProgram 0x8#4
  | .reqAp8Wr => packetProgram 0x9#4
  | .reqDapA => packetProgram 0xA#4
  | .reqAp8Rd => packetProgram 0xB#4
  | .reqDapC => packetProgram 0xC#4
  | .reqApCWr => packetProgram 0xD#4
  | .reqDpRdbuffRd => packetProgram 0xE#4
  | .reqApCRd => packetProgram 0xF#4

/-- The position after a statement: with nothing left, the command ends, `BUSY <- 0` and the locals are discarded (R31, R35, R85). -/
def State.goOn (todo : List Micro) (l : Locals) (s : State) : State :=
  match todo with
  | [] => { s with busy := false, pos := .idle }
  | _ :: _ => { s with pos := .running todo l }

/-- The microsequencer advances by one statement (R31); an idle one stays. -/
def microStep (s : State) : Host.Outcome State Fault Refusal :=
  match s.pos with
  | .idle => .next s
  | .running [] l => .next (s.goOn [] l)
  | .running (m :: todo) l =>
    match runMicro m l s with
    | .ok (body, l', t) => .next (t.goOn (body ++ todo) l')
    | .error f => .fault f

/-- Acceptance of a command at the slot level: `BUSY <- 1`, the position at the first statement (R35, R85). -/
def State.startSlots (todo : List Micro) (s : State) : State :=
  { s with busy := true, pos := .running todo {} }

end Sys2Proof.Machine
end

