-- ==== Sys2Proof/Machine/HostPort.lean ====
section
/-! DEFINITION. The host register interface (R39 to R49), the issue of commands (R83, R85), and what each agent outside the block does to it (R6, R260). -/

namespace Sys2Proof.Machine

/-- The registers of the interface (R39). -/
inductive HostReg where
  | cmd | csr | data | result | pins
  | words (i : Nat)
  deriving DecidableEq, Repr

/-- The byte offset of a register (R39). -/
def HostReg.offset : HostReg → Nat
  | .cmd => 0x000
  | .csr => 0x004
  | .data => 0x008
  | .result => 0x00C
  | .pins => 0x010
  | .words i => 0x400 + 4 * i

/-- Where a register sits in the host's address space: `HOST_BASE` is a platform parameter (R39). -/
def HostReg.address (r : HostReg) : Nat := Config.hostBase + r.offset

/-- The register at a byte offset, none where R39 names none (R46). -/
def HostReg.ofOffset (offset : Nat) : Option HostReg :=
  if offset = 0x000 then some .cmd
  else if offset = 0x004 then some .csr
  else if offset = 0x008 then some .data
  else if offset = 0x00C then some .result
  else if offset = 0x010 then some .pins
  else if 0x400 ≤ offset ∧ offset < 0x400 + 4 * wordsDepth ∧ offset % 4 = 0 then some (.words ((offset - 0x400) / 4))
  else none

/-- An access the spec defines: 32 bits wide, at a multiple of 4 (R47). -/
def goodAccess (width offset : Nat) : Bool := decide (width = 32) && decide (offset % 4 = 0)

/-- `CSR`: BUSY in bit 0, ACK in 7:4, STATUS in 10:8, LINK in 13:12, ACCUM in 19:16, the rest 0 (R41). -/
def csrValue (s : State) : Word :=
  0#12 ++ s.accum ++ 0#2 ++ s.link ++ 0#1 ++ s.status ++ s.ack ++ 0#3 ++ BitVec.ofBool s.busy

/-- `PINS`: CLK_OE, CLK, DIO_OE, DIO_OUT in bits 0 to 3, the rest 0; the latches, not the lines (R44). -/
def pinsValue (q : Pins) : Word :=
  0#28 ++ BitVec.ofBool q.dioOut ++ BitVec.ofBool q.dioOe ++ BitVec.ofBool q.clk ++ BitVec.ofBool q.clkOe

/-- The host is given `v`; nothing of the block changes (R49; log entry 15). -/
def State.answer (v : Word) (s : State) : State := { s with replies := v :: s.replies }

/-- A read whose value the spec does not fix is given a free value (R48; log entry 6). -/
def State.answerLoose (s : State) : State :=
  { s with replies := Config.busyRead s.loose :: s.replies, loose := s.loose + 1 }

/-- A host read of a register (R40 to R46, R48, R49); an unwritten `WORDS` entry faults (R50, U7). While `BUSY = 1` an unwritten entry reads as a free value too, R48 over U7: DESIGN CHOICE (log entries 6 and 7). -/
def readReg (r : Option HostReg) (s : State) : Host.Outcome State Fault Refusal :=
  match r with
  | none => .next (s.answer 0x00000000#32)
  | some .cmd => .next (s.answer 0x00000000#32)
  | some .csr => .next (s.answer (csrValue s))
  | some .data => .next (if s.busy then s.answerLoose else s.answer s.data)
  | some .result => .next (if s.busy then s.answerLoose else s.answer (s.result.setWidth 32))
  | some .pins => .next (s.answer (pinsValue s.port.pins))
  | some (.words i) =>
    if s.busy then .next s.answerLoose
    else
      match Memory.read s.words i with
      | some w => .next (s.answer w)
      | none => .fault (.unwrittenWord i)

/-- An instruction is issued: as one transition at the command level, as its first statement at the slot level (R5, R85; log entry 1). -/
def issue (i : Instr) (s : State) : Host.Outcome State Fault Refusal :=
  match s.level with
  | .command => exec i s
  | .slot => .next (s.startSlots (program i))

/-- A command word written to `CMD` (R40, R83, R85): ignored while busy, reported when invalid. -/
def issueWord (w : Word) (s : State) : Host.Outcome State Fault Refusal :=
  if s.busy then .next s
  else
    match decode (.cmd32 w) with
    | .ok i => issue i s
    | .error _ => .next s.reportInvalid

/-- A request header given to the framer, sent whatever it is (R142, R156; log entry 8). -/
def issueRequest (b : Byte) (s : State) : Host.Outcome State Fault Refusal :=
  if s.busy then .next s
  else
    match decode (.request8 b) with
    | .ok i => issue i s
    | .error _ => issue (.shiftPacket b 0x00#8) s

/-- A host write of a register (R40 to R46, R48). -/
def writeReg (r : Option HostReg) (v : Word) (s : State) : Host.Outcome State Fault Refusal :=
  match r with
  | none => .next s
  | some .cmd => issueWord v s
  | some .csr => .next s
  | some .data => .next (if s.busy then s else { s with data := v })
  | some .result => .next s
  | some .pins => .next s
  | some (.words i) => .next (if s.busy then s else s.writeWord i v)

/-- A host read (R47). -/
def hostRead (width offset : Nat) (s : State) : Host.Outcome State Fault Refusal :=
  if goodAccess width offset then readReg (HostReg.ofOffset offset) s else .refused (.badHostAccess width offset)

/-- A host write (R47). -/
def hostWrite (width offset : Nat) (v : Word) (s : State) : Host.Outcome State Fault Refusal :=
  if goodAccess width offset then writeReg (HostReg.ofOffset offset) v s else .refused (.badHostAccess width offset)

/-- One input, already taken from the list, with `RST_N` high. -/
def handleInput (a : Input) (s : State) : Host.Outcome State Fault Refusal :=
  match a with
  | .write width offset v => hostWrite width offset v s
  | .read width offset => hostRead width offset s
  | .waitIdle => if s.busy then microStep { s with inputs := .waitIdle :: s.inputs } else .next s
  | .tick => microStep s
  | .rstN level => .next (if level then s else { s.blockReset with rstN := false })
  | .request b => issueRequest b s

/-- One input while `RST_N` is low: the block stays at its reset values, so a write leaves nothing behind (R260; log entry 10). -/
def handleInReset (a : Input) (s : State) : Host.Outcome State Fault Refusal :=
  match a with
  | .write width offset _ => if goodAccess width offset then .next s else .refused (.badHostAccess width offset)
  | .read width offset => hostRead width offset s
  | .waitIdle => .next s
  | .tick => .next s
  | .rstN level => .next { s with rstN := level }
  | .request _ => .next s

/-- One step of the machine: `RST_N` low holds the block in reset, else the next input acts, and with none listed a running command goes on and an idle block waits (R6, R31, R260, R262; log entries 9, 10, 16). -/
def stepAgents (s : State) : Host.Outcome State Fault Refusal :=
  if s.rstN then
    match s.inputs with
    | [] => microStep s
    | a :: rest => handleInput a { s with inputs := rest }
  else
    match s.inputs with
    | [] => .next s.blockReset
    | a :: rest => handleInReset a { s.blockReset with inputs := rest }

/-- The input by which an instruction of the opcode table reaches the block: a CMD write, or a request header (log entries 8 and 9). -/
def inputOfTable (nbits w : Nat) : Input :=
  if nbits = 8 then .request (BitVec.ofNat 8 w) else .write 32 HostReg.cmd.offset (BitVec.ofNat 32 w)

end Sys2Proof.Machine
end

