-- ==== Sys2Proof/Machine/Step.lean ====
section
/-! DEFINITION. One step of the machine, and how the next instruction reaches it. -/

namespace Sys2Proof.Machine

/-- One step (`stepAgents`). -/
def step (s : State) : Host.Outcome State Fault Refusal := stepAgents s

/-- `s` about to run the instruction with bits `w`: it is the first input, the block is out of reset and idle, and commands are followed at the command level (log entry 9). -/
def State.withFetchWord (s : State) (nbits w : Nat) : State :=
  { s with inputs := inputOfTable nbits w :: s.inputs, rstN := true, busy := false, pos := .idle, level := .command }

end Sys2Proof.Machine
end

