-- ==== Sys2Proof/WellFormed.lean ====
section
/-! DEFINITION. The assembler's source lines (R100, R101) with operands as written, and which of them are well formed. `Instr` itself needs no check: its operand types are exact. -/

namespace Sys2Proof

/-- The names of R98 for DAP addresses. -/
inductive DapName where
  | dpAbortWr | dpIdcodeRd | dpCtrlstatWr | dpCtrlstatRd | dpSelectWr | dpRdbuffRd
  | ap0Wr | ap0Rd | ap4Wr | ap4Rd | ap8Wr | ap8Rd | apCWr | apCRd
  deriving DecidableEq, Repr

/-- `<dap>` is an imm4 or a name of R98 (R100). -/
inductive DapRef where
  | imm (n : Nat)
  | name (d : DapName)
  deriving DecidableEq, Repr

/-- `<register>` of `WR` and `RD`: `DATA`, `CSR`, `RESULT`, `PINS` or `WORDS[<index>]` (R100). -/
inductive AsmReg where
  | data | csr | result | pins
  | words (index : Nat)
  deriving DecidableEq, Repr

/-- One source line: a command or host access (R100) or a pseudo-instruction (R101). Numbers are as written, unchecked. -/
inductive AsmLine where
  | setClock (level : Nat)
  | setData (level : Nat)
  | readData
  | setDir (output : Bool)
  | shiftOut (imm8 : Nat)
  | shiftIn
  | shiftReset
  | shiftPacket (request retry : Nat)
  | dapMove (count : Nat) (dap : DapRef) (final : Bool)
  | connect
  | lineReset
  | disconnect
  | clearErrors
  | wr (reg : AsmReg) (imm32 : Nat)
  | rd (reg : AsmReg)
  | waitIdle
  -- pseudo-instructions
  | pulse
  | idleByte
  | packet (dap : DapRef) (retry : Nat)
  | dpRead (dap : DapRef)
  | dpWrite (dap : DapRef) (v : Nat)
  | apRead (dap : DapRef) (k : Nat)
  | apWrite (dap : DapRef) (v : Nat) (final : Bool)
  | select (v : Nat)
  deriving DecidableEq, Repr

/-- An imm4 fits 4 bits (R86, R100). -/
def DapRef.wellFormed : DapRef → Bool
  | .imm n => decide (n < 16)
  | .name _ => true

/-- A `WORDS` index is 0 to 255 (R36, R61). -/
def AsmReg.wellFormed : AsmReg → Bool
  | .data | .csr | .result | .pins => true
  | .words i => decide (i < 256)

/-- Every operand fits the field R81 gives it, and `AP_READ` moves 1 to 256 words (R100, R101). -/
def AsmLine.wellFormed : AsmLine → Bool
  | .setClock l => decide (l < 2)
  | .setData l => decide (l < 2)
  | .readData => true
  | .setDir _ => true
  | .shiftOut b => decide (b < 256)
  | .shiftIn => true
  | .shiftReset => true
  | .shiftPacket q r => decide (q < 256) && decide (r < 256)
  | .dapMove c d _ => decide (c < 256) && d.wellFormed
  | .connect => true
  | .lineReset => true
  | .disconnect => true
  | .clearErrors => true
  | .wr g v => g.wellFormed && decide (v < 2 ^ 32)
  | .rd g => g.wellFormed
  | .waitIdle => true
  | .pulse => true
  | .idleByte => true
  | .packet d r => d.wellFormed && decide (r < 256)
  | .dpRead d => d.wellFormed
  | .dpWrite d v => d.wellFormed && decide (v < 2 ^ 32)
  | .apRead d k => d.wellFormed && decide (1 ≤ k) && decide (k ≤ 256)
  | .apWrite d v _ => d.wellFormed && decide (v < 2 ^ 32)
  | .select v => decide (v < 2 ^ 32)

end Sys2Proof
end

