-- ==== Sys2Proof/Machine/Assembler.lean ====
section
/-! DEFINITION. The assembler (R100, R101): source lines to what the host does at the register interface. -/

namespace Sys2Proof.Machine

/-- The DAP address a name stands for (R98). -/
def DapName.addr : DapName → DapAddr
  | .dpAbortWr => 0x0#4
  | .dpIdcodeRd => 0x2#4
  | .dpCtrlstatWr => 0x4#4
  | .dpCtrlstatRd => 0x6#4
  | .dpSelectWr => 0x8#4
  | .dpRdbuffRd => 0xE#4
  | .ap0Wr => 0x1#4
  | .ap0Rd => 0x3#4
  | .ap4Wr => 0x5#4
  | .ap4Rd => 0x7#4
  | .ap8Wr => 0x9#4
  | .ap8Rd => 0xB#4
  | .apCWr => 0xD#4
  | .apCRd => 0xF#4

/-- The DAP address of an operand (R100). -/
def DapRef.addr : DapRef → DapAddr
  | .imm n => BitVec.ofNat 4 n
  | .name d => DapName.addr d

/-- The register of an operand (R100). -/
def AsmReg.reg : AsmReg → HostReg
  | .data => .data
  | .csr => .csr
  | .result => .result
  | .pins => .pins
  | .words i => .words i

/-- A host write of a register (`WR`, R100). -/
def wrInput (r : HostReg) (v : Word) : Input := .write 32 r.offset v

/-- A command as the host issues it: its word to `CMD`, then the implicit `WAIT_IDLE` (R100). -/
def issueInputs (i : Instr) : List Input :=
  match encode i with
  | .cmd32 w => [wrInput .cmd w, .waitIdle]
  | .request8 b => [.request b, .waitIdle]

/-- `DAP_MOVE count, dap [, FINAL]` with the count as written. -/
def moveInputs (count : Nat) (d : DapRef) (final : Bool) : List Input :=
  issueInputs (.dapMove (BitVec.ofNat 8 count) (DapRef.addr d) final)

/-- `WR WORDS[0], v`. -/
def wrWord0 (v : Nat) : Input := wrInput (.words 0) (BitVec.ofNat 32 v)

/-- What the host does for one source line (R100, R101). -/
def assembleLine : AsmLine → List Input
  | .setClock l => issueInputs (.setClock (l == 1))
  | .setData l => issueInputs (.setData (l == 1))
  | .readData => issueInputs .readData
  | .setDir d => issueInputs (.setDir d)
  | .shiftOut b => issueInputs (.shiftOut (BitVec.ofNat 8 b))
  | .shiftIn => issueInputs .shiftIn
  | .shiftReset => issueInputs .shiftReset
  | .shiftPacket q r => issueInputs (.shiftPacket (BitVec.ofNat 8 q) (BitVec.ofNat 8 r))
  | .dapMove c d f => moveInputs c d f
  | .connect => issueInputs .connect
  | .lineReset => issueInputs .lineReset
  | .disconnect => issueInputs .disconnect
  | .clearErrors => issueInputs .clearErrors
  | .wr g v => [wrInput (AsmReg.reg g) (BitVec.ofNat 32 v)]
  | .rd g => [.read 32 (AsmReg.reg g).offset]
  | .waitIdle => [.waitIdle]
  | .pulse => issueInputs (.setClock true) ++ issueInputs (.setClock false)
  | .idleByte => issueInputs (.shiftOut 0x00#8)
  | .packet d r => issueInputs (.shiftPacket (reqHeader (DapRef.addr d)) (BitVec.ofNat 8 r))
  | .dpRead d => moveInputs 0 d false
  | .dpWrite d v => wrWord0 v :: moveInputs 0 d false
  | .apRead d k => moveInputs (k - 1) d false
  | .apWrite d v f => wrWord0 v :: moveInputs 0 d f
  | .select v => wrWord0 v :: moveInputs 0 (.name .dpSelectWr) false

/-- The inputs of a host program, none where a line is ill formed. -/
def assemble (lines : List AsmLine) : Option (List Input) :=
  if lines.all AsmLine.wellFormed then some (lines.flatMap assembleLine) else none

end Sys2Proof.Machine
end

