-- ==== Sys2Proof/Machine/Timing.lean ====
section
/-! DEFINITION. Wall time over the open parameters (R278): what a command takes, in block clock cycles, from what it left on the wire. -/

namespace Sys2Proof.Machine

/-- The slots of the wire in the order they happened, as R12 writes them. -/
def State.slotsInOrder (s : State) : List Slot := s.port.slots.reverse

/-- The wire trace in the order R11 appends it. -/
def State.wireTrace (s : State) : List Event := s.port.trace.reverse

/-- The number of slots so far. -/
def State.slotCount (s : State) : Nat := s.port.slots.length

/-- The cycles of an event: only `Delay(d)` is counted here, a pulse's by its slot (R278). -/
def Event.cycles : Event → Nat
  | .pins _ => 0
  | .sample _ => 0
  | .delay d => d

/-- The sum of the delays of a trace (R278). -/
def delaySum (trace : List Event) : Nat := (trace.map Event.cycles).sum

/-- `T_CMD + 2·T_PHASE·slots + Σ delays + overhead`: the time of a command that takes `s` to `t`, for an overhead the spec only says is bounded (R278; log entry 4). -/
def commandCycles (overhead : Nat) (s t : State) : Nat :=
  Config.tCmd + 2 * Config.tPhase * (t.slotCount - s.slotCount) +
    (delaySum t.port.trace - delaySum s.port.trace) + overhead

end Sys2Proof.Machine
end

