-- ==== Sys2Proof/Safety.lean ====
section
/-! DEFINITION. What claims call a legal state: the values never produced are not there (R93, R95, R99, U11), `WORDS` is in its canonical form, and `BUSY` says whether a command runs (R31, R35); and the words they use for draws, slots, frames and a target's answers (R6, R12, R92 to R96). -/

namespace Sys2Proof.Machine

/-- `ACK` and `ACCUM` are 0x0 to 0x8, `STATUS` is 0 to 3 or 5, `LINK` is not 3 (R93, R95, R99, U11). -/
abbrev State.CodesLegal (s : State) : Prop :=
  s.ack.toNat ≤ 8 ∧ s.accum.toNat ≤ 8 ∧ (s.status.toNat ≤ 3 ∨ s.status = statusInvalidCommand) ∧ s.link ≠ 3#2

/-- Every index a statement still to run will store to or read from is in 0..255, and every connection state it will write is legal (R31, R61, R99). -/
def Micro.legal : Micro → Bool
  | .storeWord i => decide (i < wordsDepth)
  | .loadWord i => decide (i < wordsDepth)
  | .moveRead _ _ n => decide (n ≤ wordsDepth)
  | .moveWrite _ _ n => decide (n ≤ wordsDepth)
  | .link v => decide (v ≠ 3#2)
  | _ => true

/-- The position holds legal statements only, and a packet result in its locals (R31). -/
def Position.legal : Position → Bool
  | .idle => true
  | .running todo l => todo.all Micro.legal && decide (l.code.toNat ≤ 8)

/-- `BUSY = 0` exactly when the position is idle (R31, R35). -/
abbrev State.BusyIffRunning (s : State) : Prop := (s.busy = false) ↔ (s.pos = Position.idle)

/-- The invariant of the machine. -/
abbrev State.Inv (s : State) : Prop :=
  s.CodesLegal ∧ Memory.wf s.words = true ∧ s.BusyIffRunning ∧ Position.legal s.pos = true

/-- An idle block out of reset: where a host may issue a command (R85, R270). -/
abbrev State.Ready (s : State) : Prop := s.busy = false ∧ s.pos = Position.idle ∧ s.rstN = true

/-- The bits of a value in the order they cross the wire: bit 0 first (R65, R66, R67). -/
def bitsLsb {n : Nat} (v : BitVec n) : List Bool := (List.range n).map v.getLsbD

/-- Slots the block drives (R12). -/
def drivenSlots (bs : List Bool) : List Slot := bs.map Slot.driven

/-- Slots the block samples (R12). -/
def sampledSlots (bs : List Bool) : List Slot := bs.map Slot.sampled

/-- The bit the target gives at the `k`-th sample from here (0 is the next): the listed answer, else the free value (R6). -/
def Port.drawAt (p : Port) (k : Nat) : Bool := p.draws[k]?.getD (Config.freeDraw (p.drawn + k))

/-- The next `n` draws. -/
def Port.drawList (p : Port) (n : Nat) : List Bool := (List.range n).map p.drawAt

/-- The draws of `k` attempts answered WAIT (R92). -/
def waitDraws (k : Nat) : List Bool := (List.replicate k (bitsLsb ackWait)).flatten

/-- The draws of a packet acknowledged OK in its first attempt: for a write the acknowledge, for a read the word and its right parity bit too (R92, R94). -/
def okWriteDraws : List Bool := bitsLsb (0b001#3)
def okReadDraws (w : Word) : List Bool := okWriteDraws ++ bitsLsb w ++ [parity w]

/-- The draws of read packets that return the words `ws`, each OK in its first attempt. -/
def okReadsDraws (ws : List Word) : List Bool := (ws.map okReadDraws).flatten

/-- The 13 slots of an attempt with header `req` and the acknowledge bits `acks` (R96, R144). -/
def attemptSlots (req : Byte) (acks : List Bool) : List Slot :=
  [.driven false] ++ drivenSlots (bitsLsb req) ++ [.released] ++ sampledSlots acks

/-- The slots of `k` attempts answered WAIT and one answered `ack` (R143, R144). -/
def attemptsSlots (req : Byte) (k : Nat) (ack : AckBits) : List Slot :=
  (List.replicate k (attemptSlots req (bitsLsb ackWait))).flatten ++ attemptSlots req (bitsLsb ack)

/-- The 34 slots of a write data phase: turnaround, the word, its parity (R96, R147). -/
def writeSlots (turn : Bool) (w : Word) : List Slot :=
  [.driven turn] ++ drivenSlots (bitsLsb w) ++ [.driven (parity w)]

/-- What the target answers to one packet, whatever it is: attempts answered WAIT, the last acknowledge, and the word and parity bit it gives if a read data phase follows (R143 to R146). -/
structure Answer where
  waits : Nat
  ack : AckBits
  word : Word
  parityBit : Bool
  deriving DecidableEq, Repr

namespace Answer

/-- The packet ends there when `n` attempts are allowed: the last acknowledge is not WAIT, or comes in attempt `n` (R143). -/
abbrev Ends (n : Nat) (a : Answer) : Prop := a.waits + 1 ≤ n ∧ (a.ack ≠ 0b010#3 ∨ a.waits + 1 = n)

/-- The draws of a write packet so answered. -/
def writeDraws (a : Answer) : List Bool := waitDraws a.waits ++ bitsLsb a.ack

/-- The draws of a read packet so answered: a data phase follows an OK acknowledge only (R145, R146). -/
def readDraws (a : Answer) : List Bool :=
  a.writeDraws ++ if a.ack = 0b001#3 then bitsLsb a.word ++ [a.parityBit] else []

/-- The result of a write packet (R93, R145). -/
def writeResult (a : Answer) : PacketResult := a.ack.setWidth 4

/-- The result of a read packet: PARITY_ERROR replaces OK when the parity bit is wrong (R93, R146). -/
def readResult (a : Answer) : PacketResult :=
  if a.ack = 0b001#3 ∧ a.parityBit ≠ parity a.word then 0x8#4 else a.ack.setWidth 4

/-- `DATA` after a read packet that found `d` there: the word received, parity right or wrong, or `d` where no data phase came (R28, R145, R146). -/
def dataAfter (d : Word) (a : Answer) : Word := if a.ack = 0b001#3 then a.word else d

/-- The slots of a packet whose data phase, if one comes, has the slots `phase` (R96). -/
def slots (req : Byte) (phase : List Slot) (a : Answer) : List Slot :=
  attemptsSlots req a.waits a.ack ++ (if a.ack = 0b001#3 then phase else []) ++ [.driven false]

/-- The slots of a read packet with header `req` (R96, R146). -/
def readSlots (req : Byte) (a : Answer) : List Slot := a.slots req (sampledSlots (bitsLsb a.word ++ [a.parityBit]))

/-- The slots of a write packet with header `req` that sends `w` (R96, R147). -/
def sentSlots (req : Byte) (w : Word) (a : Answer) : List Slot := a.slots req (writeSlots (req.getLsbD 7) w)

/-- `DATA` after each of several read packets, from `d` before the first (R173). -/
def dataAfterEach (d : Word) : List Answer → List Word
  | [] => []
  | a :: as => a.dataAfter d :: dataAfterEach (a.dataAfter d) as

end Answer

/-- `ACCUM` after packets with the results `rs`, in order, from `c` before them: the last that is not OK, `c` where there is none (R32, R149). -/
def accumAfter (c : PacketResult) (rs : List PacketResult) : PacketResult := (rs.filter (fun r => r ≠ 0x1#4)).getLast?.getD c

/-- The last packet result of a move that is not OK, OK where there is none (R171, R183). -/
def lastNonOk (rs : List PacketResult) : PacketResult := accumAfter 0x1#4 rs

/-- A command took `s` to `t` and added exactly the slots `l`, in this order. -/
abbrev AddsSlots (l : List Slot) (s t : State) : Prop := t.port.slots = l.reverse ++ s.port.slots

/-- A command took `s` to `t` and added `n` slots (R277). -/
abbrev AddsSlotCount (n : Nat) (s t : State) : Prop := t.port.slots.length = s.port.slots.length + n

/-- The lines as every packet leaves them: SWCLK driven 0, SWDIO driven 0 (R148). -/
def Pins.afterPacket : Pins := ⟨true, false, true, false⟩

/-- The slots of a line reset whose IDCODE packet is answered `a`: 64 of `1`, the idle byte, the packet, the idle byte (R202). -/
def lineResetSlots (a : Answer) : List Slot :=
  List.replicate 64 (.driven true) ++ List.replicate 8 (.driven false) ++ a.readSlots 0xA5#8 ++
    List.replicate 8 (.driven false)

/-- What a move with the packet results `rs`, in order, reports in `ACK`, `ACCUM` and `STATUS` (R149, R177, R183). -/
abbrev MoveReports (rs : List PacketResult) (t : State) : Prop :=
  some t.ack = rs.getLast? ∧ t.accum = lastNonOk rs ∧ t.status = mapStatus (lastNonOk rs)

/-- The registers no packet touches: everything of the block but the port, `DATA`, `ACK` and `ACCUM` (R150). -/
abbrev SameBesidesPacket (s t : State) : Prop :=
  t.result = s.result ∧ t.status = s.status ∧ t.link = s.link ∧ t.words = s.words ∧ t.pos = s.pos

/-- The seven transceiver commands (R110). -/
def isTransceiver : Instr → Bool
  | .setClock _ | .setData _ | .readData | .setDir _ | .shiftOut _ | .shiftIn | .shiftReset => true
  | .shiftPacket _ _ | .dapMove _ _ _ | .connect | .lineReset | .disconnect | .clearErrors | .reqDpAbortWr
  | .reqAp0Wr | .reqDpIdcodeRd | .reqAp0Rd | .reqDpCtrlstatWr | .reqAp4Wr | .reqDpCtrlstatRd | .reqAp4Rd
  | .reqDpSelectWr | .reqAp8Wr | .reqDapA | .reqAp8Rd | .reqDapC | .reqApCWr | .reqDpRdbuffRd | .reqApCRd => false

/-- The commands that write `LINK` (R34, R200). -/
def writesLink : Instr → Bool
  | .connect | .lineReset | .disconnect => true
  | .setClock _ | .setData _ | .readData | .setDir _ | .shiftOut _ | .shiftIn | .shiftReset
  | .shiftPacket _ _ | .dapMove _ _ _ | .clearErrors | .reqDpAbortWr | .reqAp0Wr | .reqDpIdcodeRd | .reqAp0Rd
  | .reqDpCtrlstatWr | .reqAp4Wr | .reqDpCtrlstatRd | .reqAp4Rd | .reqDpSelectWr | .reqAp8Wr | .reqDapA
  | .reqAp8Rd | .reqDapC | .reqApCWr | .reqDpRdbuffRd | .reqApCRd => false

/-- The commands that write `STATUS` (R33). -/
def writesStatus : Instr → Bool
  | .dapMove _ _ _ => true
  | .setClock _ | .setData _ | .readData | .setDir _ | .shiftOut _ | .shiftIn | .shiftReset
  | .shiftPacket _ _ | .connect | .lineReset | .disconnect | .clearErrors | .reqDpAbortWr | .reqAp0Wr
  | .reqDpIdcodeRd | .reqAp0Rd | .reqDpCtrlstatWr | .reqAp4Wr | .reqDpCtrlstatRd | .reqAp4Rd | .reqDpSelectWr
  | .reqAp8Wr | .reqDapA | .reqAp8Rd | .reqDapC | .reqApCWr | .reqDpRdbuffRd | .reqApCRd => false

/-- The commands that write `RESULT` (R29). -/
def writesResult : Instr → Bool
  | .readData | .shiftIn => true
  | .setClock _ | .setData _ | .setDir _ | .shiftOut _ | .shiftReset | .shiftPacket _ _ | .dapMove _ _ _
  | .connect | .lineReset | .disconnect | .clearErrors | .reqDpAbortWr | .reqAp0Wr | .reqDpIdcodeRd
  | .reqAp0Rd | .reqDpCtrlstatWr | .reqAp4Wr | .reqDpCtrlstatRd | .reqAp4Rd | .reqDpSelectWr | .reqAp8Wr
  | .reqDapA | .reqAp8Rd | .reqDapC | .reqApCWr | .reqDpRdbuffRd | .reqApCRd => false

/-- Every piece of the block's state at its reset value (R50, R260). -/
abbrev State.AtReset (t : State) : Prop :=
  t.port.pins = ⟨false, false, false, false⟩ ∧ t.data = 0x00000000#32 ∧ t.result = 0x00#8 ∧ t.ack = 0x0#4 ∧
    t.accum = 0x1#4 ∧ t.status = 0#3 ∧ t.link = 0#2 ∧ t.busy = false ∧ t.pos = Position.idle ∧
    ∀ i, Memory.read t.words i = none

/-- The block's whole state is the same (R20): latches, registers, `WORDS`, position. -/
abbrev SameBlock (s t : State) : Prop :=
  t.port = s.port ∧ t.data = s.data ∧ t.result = s.result ∧ t.ack = s.ack ∧ t.accum = s.accum ∧
    t.status = s.status ∧ t.link = s.link ∧ t.busy = s.busy ∧ t.words = s.words ∧ t.pos = s.pos

/-- The DAP address of a request-header row (R90). -/
def requestDap : Instr → Option DapAddr
  | .setClock _ => none
  | .setData _ => none
  | .readData => none
  | .setDir _ => none
  | .shiftOut _ => none
  | .shiftIn => none
  | .shiftReset => none
  | .shiftPacket _ _ => none
  | .dapMove _ _ _ => none
  | .connect => none
  | .lineReset => none
  | .disconnect => none
  | .clearErrors => none
  | .reqDpAbortWr => some 0x0#4
  | .reqAp0Wr => some 0x1#4
  | .reqDpIdcodeRd => some 0x2#4
  | .reqAp0Rd => some 0x3#4
  | .reqDpCtrlstatWr => some 0x4#4
  | .reqAp4Wr => some 0x5#4
  | .reqDpCtrlstatRd => some 0x6#4
  | .reqAp4Rd => some 0x7#4
  | .reqDpSelectWr => some 0x8#4
  | .reqAp8Wr => some 0x9#4
  | .reqDapA => some 0xA#4
  | .reqAp8Rd => some 0xB#4
  | .reqDapC => some 0xC#4
  | .reqApCWr => some 0xD#4
  | .reqDpRdbuffRd => some 0xE#4
  | .reqApCRd => some 0xF#4

/-- The latch tuple the trace ends in, from the released reset tuple (R11, R50). -/
def lastPins : List Event → Pins
  | [] => Pins.reset
  | .pins q :: _ => q
  | .sample _ :: rest => lastPins rest
  | .delay _ :: rest => lastPins rest

/-- Every `Pins` event of the trace changes the tuple, and every delay is positive (R11). -/
def traceLegal : List Event → Bool
  | [] => true
  | .pins q :: rest => decide (q ≠ lastPins rest) && traceLegal rest
  | .sample _ :: rest => traceLegal rest
  | .delay d :: rest => decide (0 < d) && traceLegal rest

/-- The trace tells the pins: it ends in the latches as they stand, one event per change (R11). -/
abbrev State.TraceTellsPins (s : State) : Prop :=
  lastPins s.port.trace = s.port.pins ∧ traceLegal s.port.trace = true

/-- What lies around the block and no instruction touches: `RST_N`, the inputs, the host's replies and counters, the level. -/
abbrev SameSurroundings (s t : State) : Prop :=
  t.rstN = s.rstN ∧ t.inputs = s.inputs ∧ t.replies = s.replies ∧ t.loose = s.loose ∧ t.level = s.level

/-- `WORDS[i]` reads as before, for every `i` outside `stored`. -/
abbrev WordsUnchangedOutside (stored : Nat → Prop) (s t : State) : Prop :=
  ∀ i, ¬ stored i → Memory.read t.words i = Memory.read s.words i

/-- Every entry of `WORDS` reads as before. -/
abbrev WordsUnchanged (s t : State) : Prop := ∀ i, Memory.read t.words i = Memory.read s.words i

/-- What is already in the trace stays there, and slots are only added (R11, R12, R73). -/
abbrev WireGrows (s t : State) : Prop :=
  s.port.trace <:+ t.port.trace ∧ s.port.slots.length ≤ t.port.slots.length

end Sys2Proof.Machine
end

