-- ==== Sys2Proof/Certificates/Slice0/Obligations.lean ====
section
/-! DEFINITION. The statements for the provers. Each is about every state unless it says which; a state's pending draws are arbitrary, so a statement about every state is about every target (R6). -/

open Sys2Proof Sys2Proof.Machine

/-! ### Encodings -/

/-- Words and headers written out from R80, R82 and R90 decode to the instructions they stand for. -/
def Obligations.WrittenOutWordsDecode : Prop :=
  decode (.cmd32 0b0000000_0_00000000_00000001_0000_0001#32) = .ok (.setClock true) ∧
    decode (.cmd32 0b0000000_0_00000000_10100101_0000_0101#32) = .ok (.shiftOut 0xA5#8) ∧
    decode (.cmd32 0b0000000_0_00000011_10100101_0000_1000#32) = .ok (.shiftPacket 0xA5#8 3#8) ∧
    decode (.cmd32 0b0000000_1_00000000_00000010_1101_1001#32) = .ok (.dapMove 2#8 0xD#4 true) ∧
    decode (.cmd32 0b0000000_0_00000000_00000000_0000_1101#32) = .ok .clearErrors ∧
    decode (.request8 0b1_0_1_11_1_0_1#8) = .ok .reqDpRdbuffRd

/-- Decoding what the encoder gives returns the instruction, for every instruction and every operand value. -/
def Obligations.DecodeOfEncode : Prop := ∀ i : Instr, decode (encode i) = .ok i

/-- Each word and header has one meaning: what decodes to `i` is the encoding of `i`. -/
def Obligations.EncodeOfDecode : Prop := ∀ (c : Code) (i : Instr), decode c = .ok i → encode i = c

/-- R83: a command word written while idle issues the command of the row it falls under (at the slot level: its first statement), no two rows share a word, and a word under no row only sets `STATUS` to 5. -/
def Obligations.CommandWordIssuesItsRowOrIsInvalid : Prop :=
  ∀ (s : State) (w : Word) (rest : List Input), s.rstN = true → s.busy = false →
    s.inputs = .write 32 0x000 w :: rest →
    (∀ r ∈ cmdRows, w &&& r.mask = r.pattern →
      step s = if s.level = .command then exec (r.build w) { s with inputs := rest }
        else .next (State.startSlots (program (r.build w)) { s with inputs := rest })) ∧
    (∀ r ∈ cmdRows, ∀ q ∈ cmdRows, w &&& r.mask = r.pattern → w &&& q.mask = q.pattern → r = q) ∧
    ((∀ r ∈ cmdRows, w &&& r.mask ≠ r.pattern) → step s = .next { s with inputs := rest, status := 5#3 })

/-- A step runs the decoded instruction: a command word, a request header, and what `withFetchWord` places; at the slot level it starts the instruction's pseudocode. -/
def Obligations.StepRunsDecodedInstruction : Prop :=
  ∀ (s : State) (i : Instr),
    (∀ (w : Word) (rest : List Input), s.rstN = true → s.busy = false → s.level = .command →
      s.inputs = .write 32 0x000 w :: rest → decode (.cmd32 w) = .ok i → step s = exec i { s with inputs := rest }) ∧
    (∀ (b : Byte) (rest : List Input), s.rstN = true → s.busy = false → s.level = .command →
      s.inputs = .request b :: rest → decode (.request8 b) = .ok i → step s = exec i { s with inputs := rest }) ∧
    (∀ (c : Code) (rest : List Input), s.rstN = true → s.busy = false → s.level = .slot → decode c = .ok i →
      s.inputs = (match c with
        | .cmd32 w => .write 32 0x000 w
        | .request8 b => .request b) :: rest →
      step s = .next (State.startSlots (program i) { s with inputs := rest })) ∧
    (∀ nbits w : Nat, decodeTableWord nbits w = some i →
      step (s.withFetchWord nbits w) =
        exec i { s with rstN := true, busy := false, pos := .idle, level := .command })

/-- R87: start 1, stop 0, park 1, the DAP address in bits 4:1, and bit 5 their even parity. -/
def Obligations.RequestHeaderLayout : Prop :=
  ∀ dap : DapAddr,
    (reqHeader dap).getLsbD 0 = true ∧ (reqHeader dap).getLsbD 1 = dap.getLsbD 0 ∧
      (reqHeader dap).getLsbD 2 = dap.getLsbD 1 ∧ (reqHeader dap).getLsbD 3 = dap.getLsbD 2 ∧
      (reqHeader dap).getLsbD 4 = dap.getLsbD 3 ∧
      (reqHeader dap).getLsbD 5 = (dap.getLsbD 0 ^^ dap.getLsbD 1 ^^ dap.getLsbD 2 ^^ dap.getLsbD 3) ∧
      (reqHeader dap).getLsbD 6 = false ∧ (reqHeader dap).getLsbD 7 = true

/-- R89: `ParityN(v)` is 1 exactly when `v` has an odd number of one bits, for values of every width. -/
def Obligations.ParityCountsOnes : Prop :=
  ∀ (n : Nat) (v : BitVec n), parity v = decide (((List.range n).filter v.getLsbD).length % 2 = 1)

/-- Every command word a well-formed source line makes the host write to `CMD` is a valid command (R100, R101). -/
def Obligations.AssembledCommandsAreValid : Prop :=
  ∀ (l : AsmLine) (w : Word), l.wellFormed = true → .write 32 0x000 w ∈ assembleLine l →
    ∃ i, decode (.cmd32 w) = .ok i

/-! ### Reset -/

/-- R50: the reset values, and no `WORDS` entry holds a value. -/
def Obligations.ResetValues : Prop := State.reset.AtReset

/-- R261: driving `RST_N` low ends whatever runs at once, with every register at its reset value and both lines released. -/
def Obligations.ResetEndsRunningCommand : Prop :=
  ∀ (s : State) (rest : List Input), s.rstN = true → s.inputs = .rstN false :: rest →
    ∃ t, step s = .next t ∧ t.AtReset ∧ t.rstN = false ∧ t.inputs = rest

/-- While `RST_N` is low, and when it returns to 1, no step leaves anything of the block away from its reset value (R260). -/
def Obligations.ResetIsHeldWhileLow : Prop :=
  ∀ s t : State, s.rstN = false → step s = .next t → t.AtReset

/-! ### Invariants of every step -/

/-- The invariant: legal codes, canonical `WORDS`, `BUSY` exactly while a command runs, legal position. -/
def Obligations.StepKeepsInvariant : Prop := ∀ s t : State, s.Inv → step s = .next t → t.Inv

/-- The trace keeps telling the pins, one event per change (R11), at both levels and through reset. -/
def Obligations.StepKeepsTraceTellingPins : Prop :=
  ∀ s t : State, s.TraceTellsPins → step s = .next t → t.TraceTellsPins

/-- Both invariants hold in the reset state. -/
def Obligations.ResetMeetsInvariants : Prop := State.reset.Inv ∧ State.reset.TraceTellsPins

/-- Nothing is taken back from the wire: each step only appends to the trace and never removes a slot. -/
def Obligations.StepOnlyExtendsWire : Prop := ∀ s t : State, step s = .next t → WireGrows s t

/-! ### Whole-machine rules: who writes what -/

/-- R33: `DAP_MOVE` writes `STATUS` (by the map of its `ACCUM`), an invalid word sets it to INVALID_COMMAND, no other command changes it. -/
def Obligations.StatusWriters : Prop :=
  (∀ (i : Instr) (s t : State), exec i s = .next t →
    t.status = if writesStatus i then mapStatus t.accum else s.status) ∧
  ∀ (s : State) (w : Word) (e : DecodeError), s.busy = false → decode (.cmd32 w) = .error e →
    ∃ t, issueWord w s = .next t ∧ t.status = 5#3

/-- R200: `CONNECT` and `LINE_RESET` set `LINK` by the result of their IDCODE packet, `DISCONNECT` clears it, no other command changes it. -/
def Obligations.LinkTransitions : Prop :=
  ∀ (i : Instr) (s t : State), exec i s = .next t →
    (i = .connect ∨ i = .lineReset → t.link = if t.ack = 0x1#4 then 2#2 else 1#2) ∧
    (i = .disconnect → t.link = 0#2) ∧
    (writesLink i = false → t.link = s.link)

/-- `LINK` gates nothing: another value of it changes no outcome but the `LINK` a command leaves alone (R34, R200). -/
def Obligations.LinkGatesNothing : Prop :=
  ∀ (i : Instr) (s : State) (v : BitVec 2),
    exec i { s with link := v } =
      match exec i s with
      | .next t => .next { t with link := if writesLink i then t.link else v }
      | .fault f => .fault f
      | .refused r => .refused r

/-- R29: `READ_DATA` writes the sampled bit to `RESULT`, `SHIFT_IN` the byte of the next eight draws, no other command writes it. -/
def Obligations.ResultWriters : Prop :=
  (∀ s : State, ∃ t, exec .readData s = .next t ∧ t.result = (BitVec.ofBool (s.port.drawAt 0)).setWidth 8) ∧
  (∀ s : State, ∃ t, exec .shiftIn s = .next t ∧ ∀ j, j < 8 → t.result.getLsbD j = s.port.drawAt j) ∧
  ∀ (i : Instr) (s t : State), writesResult i = false → exec i s = .next t → t.result = s.result

/-- Outside a move nothing sets `ACCUM` back to OK (R32). -/
def Obligations.AccumClearedByMovesOnly : Prop :=
  ∀ (i : Instr) (s t : State), writesStatus i = false → exec i s = .next t →
    t.accum = s.accum ∨ t.accum ≠ 0x1#4

/-- Only `DISCONNECT` stops driving SWCLK (R21), only `SET_CLOCK 1` leaves it high, and every command with a pulse drives it. -/
def Obligations.ClockLatches : Prop :=
  ∀ (i : Instr) (s t : State), exec i s = .next t →
    (s.port.pins.clkOe = true → i ≠ .disconnect → t.port.pins.clkOe = true) ∧
    (s.port.pins.clk = false → i ≠ .setClock true → t.port.pins.clk = false) ∧
    (s.port.slots.length < t.port.slots.length → i ≠ .disconnect →
      t.port.pins.clkOe = true ∧ t.port.pins.clk = false) ∧
    (i = .connect ∨ (∃ l, i = .setClock l) → t.port.pins.clkOe = true) ∧
    (i = .disconnect → t.port.pins.clkOe = false)

/-! ### The transceiver -/

/-- R110: every transceiver command completes in every state and writes no result register but `RESULT`, which only `READ_DATA` and `SHIFT_IN` write; `DATA`, `WORDS` and all around the block stay. -/
def Obligations.TransceiverCommandsCannotFail : Prop :=
  ∀ (i : Instr) (s : State), isTransceiver i = true →
    ∃ t, exec i s = .next t ∧ t.ack = s.ack ∧ t.accum = s.accum ∧ t.status = s.status ∧ t.link = s.link ∧
      (writesResult i = false → t.result = s.result) ∧ t.data = s.data ∧ t.words = s.words ∧ t.pos = s.pos ∧
      t.busy = false ∧ SameSurroundings s t ∧ WireGrows s t

/-- `SET_CLOCK level`: `CLK_OE <- 1; CLK <- level`, one event for each change, and nothing else (R111). -/
def Obligations.SetClockResult : Prop :=
  ∀ (s : State) (l : Bool),
    exec (.setClock l) s = .next
      { s with
        busy := false
        port := { s.port with
          pins := { s.port.pins with clkOe := true, clk := l }
          trace :=
            (if l = s.port.pins.clk then [] else [Event.pins { s.port.pins with clkOe := true, clk := l }]) ++
              (if s.port.pins.clkOe then [] else [Event.pins { s.port.pins with clkOe := true }]) ++
              s.port.trace } }

/-- `SET_DATA level` writes `DIO_OUT` alone and `SET_DIR dir` writes `DIO_OE` alone, with an event when the latch changes (R112, R114, R22). -/
def Obligations.SetDataAndSetDirResult : Prop :=
  ∀ (s : State) (b : Bool),
    exec (.setData b) s = .next
      { s with
        busy := false
        port := { s.port with
          pins := { s.port.pins with dioOut := b }
          trace := (if b = s.port.pins.dioOut then [] else [Event.pins { s.port.pins with dioOut := b }]) ++
            s.port.trace } } ∧
    exec (.setDir b) s = .next
      { s with
        busy := false
        port := { s.port with
          pins := { s.port.pins with dioOe := b }
          trace := (if b = s.port.pins.dioOe then [] else [Event.pins { s.port.pins with dioOe := b }]) ++
            s.port.trace } }

/-- `READ_DATA` takes the next draw, whatever the direction, without a pulse (R113, R25). -/
def Obligations.ReadDataResult : Prop :=
  ∀ s : State,
    exec .readData s = .next
      { s with
        busy := false
        result := (BitVec.ofBool (s.port.drawAt 0)).setWidth 8
        port := { s.port with
          draws := s.port.draws.tail
          drawn := s.port.drawn + 1
          trace := .sample (s.port.drawAt 0) :: s.port.trace } }

/-- `SHIFT_OUT byte`: eight driven slots, bit 0 first; `DIO_OE = 1`, `DIO_OUT = byte[7]`, `CLK = 0` after; no draw is taken (R115, R119). -/
def Obligations.ShiftOutResult : Prop :=
  ∀ (s : State) (b : Byte), ∃ t, exec (.shiftOut b) s = .next t ∧
    AddsSlots (drivenSlots (bitsLsb b)) s t ∧ t.port.pins = ⟨true, false, true, b.getLsbD 7⟩ ∧
    t.port.draws = s.port.draws ∧ t = { s with port := t.port, busy := false }

/-- `SHIFT_IN`: eight sampled slots, the first draw to `RESULT[0]`; direction left input, `DIO_OUT` kept (R116, R120). -/
def Obligations.ShiftInResult : Prop :=
  ∀ s : State, ∃ t, exec .shiftIn s = .next t ∧
    (∀ j, j < 8 → t.result.getLsbD j = s.port.drawAt j) ∧
    AddsSlots (sampledSlots (s.port.drawList 8)) s t ∧
    t.port.pins = ⟨true, false, false, s.port.pins.dioOut⟩ ∧ t.port.draws = s.port.draws.drop 8 ∧
    t = { s with port := t.port, result := t.result, busy := false }

/-- `SHIFT_RESET`: 64 slots of 1, SWDIO left driven high; `LINK` and every other register stay (R121). -/
def Obligations.ShiftResetResult : Prop :=
  ∀ s : State, ∃ t, exec .shiftReset s = .next t ∧
    AddsSlots (List.replicate 64 (.driven true)) s t ∧ t.port.pins = ⟨true, false, true, true⟩ ∧
    t.port.draws = s.port.draws ∧ t = { s with port := t.port, busy := false }

/-- R124: a byte shifted out and sampled back is the byte, and a word of a write data phase sampled back by a read data phase is the word, its parity right. -/
def Obligations.LoopbackRoundTrip : Prop :=
  (∀ (s t u : State) (b : Byte) (bs rest : List Bool), exec (.shiftOut b) s = .next t → AddsSlots (drivenSlots bs) s t →
    exec .shiftIn { t with port := { t.port with draws := bs ++ rest } } = .next u → u.result = b) ∧
  ∀ (p q : Port) (w : Word) (turn : Bool) (bs rest : List Bool), (p.writePhase w).slots = (drivenSlots (turn :: bs)).reverse ++ p.slots →
    q.draws = bs ++ rest → q.readPhase.1 = w ∧ q.readPhase.2.1 = parity w ∧ q.readPhase.2.2.draws = rest

/-! ### The packet framer -/

/-- A packet whose acknowledges are `k` times WAIT and then `ack`, which ends it (not WAIT, or the last attempt allowed): without a data phase, as a write, or as a read (R143, R145, R146, R147, R149, R153). -/
def Obligations.PacketOutcome : Prop :=
  ∀ (s : State) (req retry : Byte) (k : Nat) (ack : AckBits) (rest : List Bool),
    k + 1 ≤ attemptLimit retry → (ack ≠ 0b010#3 ∨ k + 1 = attemptLimit retry) →
    s.port.draws = waitDraws k ++ bitsLsb ack ++ rest →
    ∃ t, exec (.shiftPacket req retry) s = .next t ∧
      (ack ≠ 0b001#3 →
        t.ack = ack.setWidth 4 ∧ t.accum = ack.setWidth 4 ∧ t.data = s.data ∧ t.port.draws = rest ∧
          AddsSlotCount (13 * (k + 1) + 1) s t) ∧
      (ack = 0b001#3 → req.getLsbD 2 = false →
        t.ack = 0x1#4 ∧ t.accum = s.accum ∧ t.data = s.data ∧ t.port.draws = rest ∧
          AddsSlotCount (13 * (k + 1) + 1 + 34) s t) ∧
      (ack = 0b001#3 → req.getLsbD 2 = true → ∀ (w : Word) (p : Bool) (left : List Bool),
        rest = bitsLsb w ++ p :: left →
        t.data = w ∧ (p = parity w → t.ack = 0x1#4 ∧ t.accum = s.accum) ∧
          (p ≠ parity w → t.ack = 0x8#4 ∧ t.accum = 0x8#4) ∧ t.port.draws = left ∧
          AddsSlotCount (13 * (k + 1) + 1 + 33) s t)

/-- R152: with every acknowledge WAIT a packet makes exactly its allowed attempts, waits between them, and reports WAIT. -/
def Obligations.RetryExhaustion : Prop :=
  ∀ (s : State) (req retry : Byte) (rest : List Bool), s.port.draws = waitDraws (attemptLimit retry) ++ rest →
    ∃ t, exec (.shiftPacket req retry) s = .next t ∧ t.ack = 0x2#4 ∧ t.accum = 0x2#4 ∧ t.port.draws = rest ∧
      AddsSlotCount (13 * attemptLimit retry + 1) s t ∧
      delaySum t.port.trace = delaySum s.port.trace +
        ((List.range (attemptLimit retry - 1)).map
          (fun a => Config.waitDelay (a + 1) (attemptLimit retry - (a + 1)))).sum

/-- R148: every packet ends in one slot 0 and leaves SWDIO driven low and SWCLK low, whatever its outcome. -/
def Obligations.PacketLeavesLinesIdle : Prop :=
  ∀ (s : State) (req retry : Byte), ∃ t, exec (.shiftPacket req retry) s = .next t ∧
    t.port.pins = ⟨true, false, true, false⟩ ∧ t.port.slots.head? = some (.driven false)

/-- Whatever the target answers, a packet completes; it writes `ACK`, `ACCUM` when not OK, `DATA` on a read acknowledged OK, and no other register (R149, R150). -/
def Obligations.PacketFrame : Prop :=
  ∀ (s : State) (req retry : Byte), ∃ t, exec (.shiftPacket req retry) s = .next t ∧
    t.ack.toNat ≤ 8 ∧ (t.accum = if t.ack = 0x1#4 then s.accum else t.ack) ∧
    (t.data = s.data ∨ req.getLsbD 2 = true ∧ (t.ack = 0x1#4 ∨ t.ack = 0x8#4)) ∧
    SameBesidesPacket s t ∧ t.busy = false ∧ SameSurroundings s t ∧ WireGrows s t

/-- Each request-header row completes in every state as the packet with the header of its DAP address and the default attempts; frame as `PacketFrame` (R90, R172; the rows' effect is the model's choice, log entry 8). -/
def Obligations.RequestRowsSendTheirHeader : Prop :=
  ∀ (i : Instr) (dap : DapAddr) (s : State), requestDap i = some dap →
    encode i = .request8 (reqHeader dap) ∧ exec i s = exec (.shiftPacket (reqHeader dap) 0x00#8) s ∧
      ∃ t, exec i s = .next t ∧ t.ack.toNat ≤ 8 ∧ (t.accum = if t.ack = 0x1#4 then s.accum else t.ack) ∧
        (t.data = s.data ∨ dap.getLsbD 1 = true ∧ (t.ack = 0x1#4 ∨ t.ack = 0x8#4)) ∧
        SameBesidesPacket s t ∧ t.busy = false ∧ SameSurroundings s t ∧ WireGrows s t

/-- R144: an attempt adds 13 slots, `0`, the header bit 0 first, `z`, three sampled, and its acknowledge is the next three draws, the first in bit 0; every packet begins with one. -/
def Obligations.AttemptSlots : Prop :=
  (∀ (req : Byte) (p : Port),
    (p.attempt req).2.slots.reverse = p.slots.reverse ++
      ([.driven false] ++ drivenSlots (bitsLsb req) ++ [.released] ++ sampledSlots (p.drawList 3)) ∧
    (∀ j, j < 3 → (p.attempt req).1.getLsbD j = p.drawAt j) ∧ (p.attempt req).2.draws = p.draws.drop 3) ∧
  ∀ (s : State) (req retry : Byte), ∃ t more, exec (.shiftPacket req retry) s = .next t ∧
    t.slotsInOrder = (s.port.attempt req).2.slots.reverse ++ more

/-- R147: after the OK acknowledge of a write packet, in whichever attempt: one turnaround slot driving `req[7]`, the word of `DATA` bit 0 first, its parity, then the packet's final `0`; `DATA` is not changed. -/
def Obligations.WritePacketWire : Prop :=
  ∀ (s : State) (req retry : Byte) (k : Nat) (rest : List Bool), req.getLsbD 2 = false → k + 1 ≤ attemptLimit retry →
    s.port.draws = waitDraws k ++ [true, false, false] ++ rest →
    ∃ t attempts, exec (.shiftPacket req retry) s = .next t ∧ t.data = s.data ∧ t.port.draws = rest ∧
      attempts.length = 13 * (k + 1) ∧
      t.slotsInOrder = s.slotsInOrder ++ attempts ++
        ([.driven (req.getLsbD 7)] ++ drivenSlots (bitsLsb s.data) ++ [.driven (parity s.data)]) ++ [.driven false]

/-! ### The DAP transaction sequencer -/

/-- R177: at its end a move writes `STATUS <- MapStatus(ACCUM)`, by the fixed table. -/
def Obligations.MoveMapsAccumToStatus : Prop :=
  (∀ r : PacketResult,
    mapStatus r = if r = 0x1#4 then 0#3 else if r = 0x2#4 then 1#3 else if r = 0x4#4 then 2#3 else 3#3) ∧
  ∀ (count : Byte) (dap : DapAddr) (final : Bool) (s t : State),
    exec (.dapMove count dap final) s = .next t → t.status = mapStatus t.accum

/-- R185: a move's result, the next state or the fault, depends on nothing from before it but `DATA`, `WORDS` and the port; whatever else differs is neither read nor, but for `ACK`, `ACCUM`, `STATUS` and `BUSY`, written; a write path without an RDBUFF read leaves `DATA = WORDS[count]`. -/
def Obligations.MoveForgetsEarlierResults : Prop :=
  (∀ (count : Byte) (dap : DapAddr) (final : Bool) (s u : State),
    u.port = s.port → u.data = s.data → u.words = s.words →
    exec (.dapMove count dap final) u =
      match exec (.dapMove count dap final) s with
      | .next t => .next { u with
          port := t.port, data := t.data, words := t.words, ack := t.ack, accum := t.accum, status := t.status
          busy := false }
      | .fault f => .fault f
      | .refused r => .refused r) ∧
  ∀ (count : Byte) (dap : DapAddr) (final : Bool) (s t : State), dap.getLsbD 1 = false →
    (dap.getLsbD 0 && final) = false → exec (.dapMove count dap final) s = .next t →
    Memory.read s.words count.toNat = some t.data

/-- R182: an AP read move of packets all OK stores the words one transfer behind, the first word nowhere. Second clause: whatever the target answers, all `count + 2` packets are sent, the last with the RDBUFF header 0xBD and the others with `REQ(dap)`; each entry is `DATA` after the packet one later, whatever its result; `ACCUM` and `STATUS` tell the last result that is not OK. -/
def Obligations.ApReadIsOneTransferBehind : Prop :=
  (∀ (s : State) (count : Byte) (dap : DapAddr) (final : Bool) (x0 : Word) (xs : List Word) (rest : List Bool),
    dap.getLsbD 1 = true → dap.getLsbD 0 = true → xs.length = count.toNat + 1 →
    s.port.draws = okReadsDraws (x0 :: xs) ++ rest →
    ∃ t, exec (.dapMove count dap final) s = .next t ∧
      (∀ i, i ≤ count.toNat → Memory.read t.words i = xs[i]?) ∧ some t.data = xs.getLast? ∧
      t.status = 0#3 ∧ t.port.draws = rest ∧ AddsSlotCount (47 * (count.toNat + 2) + 1) s t) ∧
  ∀ (s : State) (count : Byte) (dap : DapAddr) (final : Bool) (as : List Answer) (b : Answer) (rest : List Bool),
    dap.getLsbD 1 = true → dap.getLsbD 0 = true → as.length = count.toNat + 1 → (∀ a ∈ as ++ [b], a.Ends 255) →
    s.port.draws = (as ++ [b]).flatMap Answer.readDraws ++ rest →
    ∃ t, exec (.dapMove count dap final) s = .next t ∧
      (∀ i, i ≤ count.toNat → Memory.read t.words i = (Answer.dataAfterEach s.data (as ++ [b]))[i + 1]?) ∧
      some t.data = (Answer.dataAfterEach s.data (as ++ [b])).getLast? ∧
      MoveReports ((as ++ [b]).map Answer.readResult) t ∧ t.port.draws = rest ∧
      AddsSlots (as.flatMap (Answer.readSlots (reqHeader dap)) ++ b.readSlots 0xBD#8 ++ [.driven false]) s t

/-- A DP read move of packets all OK stores each packet's own word. Second clause: whatever the target answers, all `count + 1` packets are sent with the header `REQ(dap)`; each entry is `DATA` after its own packet, whatever its result; `ACCUM` and `STATUS` tell the last result that is not OK (R172, R173, R176, R181, R183). -/
def Obligations.DpReadStoresEachWord : Prop :=
  (∀ (s : State) (count : Byte) (dap : DapAddr) (final : Bool) (xs : List Word) (rest : List Bool),
    dap.getLsbD 1 = true → dap.getLsbD 0 = false → xs.length = count.toNat + 1 →
    s.port.draws = okReadsDraws xs ++ rest →
    ∃ t, exec (.dapMove count dap final) s = .next t ∧
      (∀ i, i ≤ count.toNat → Memory.read t.words i = xs[i]?) ∧ some t.data = xs.getLast? ∧
      t.status = 0#3 ∧ t.port.draws = rest ∧ AddsSlotCount (47 * (count.toNat + 1) + 1) s t) ∧
  ∀ (s : State) (count : Byte) (dap : DapAddr) (final : Bool) (as : List Answer) (rest : List Bool),
    dap.getLsbD 1 = true → dap.getLsbD 0 = false → as.length = count.toNat + 1 → (∀ a ∈ as, a.Ends 255) →
    s.port.draws = as.flatMap Answer.readDraws ++ rest →
    ∃ t, exec (.dapMove count dap final) s = .next t ∧
      (∀ i, i ≤ count.toNat → Memory.read t.words i = (Answer.dataAfterEach s.data as)[i]?) ∧
      some t.data = (Answer.dataAfterEach s.data as).getLast? ∧
      MoveReports (as.map Answer.readResult) t ∧ t.port.draws = rest ∧
      AddsSlots (as.flatMap (Answer.readSlots (reqHeader dap)) ++ [.driven false]) s t

/-- A write move whose entries are all written, of packets all OK: `WORDS` stays, and `DATA` is the last word sent or, for an AP write with `final`, the RDBUFF word. Second clause: whatever the target answers, each entry of `WORDS[0..count]` is sent in order in a packet with the header `REQ(dap)`, an AP write with `final` adds the RDBUFF read 0xBD, stored in no entry, and `ACCUM` and `STATUS` tell the last result that is not OK (R172, R174, R175, R176, R181, R183). -/
def Obligations.WriteMoveSendsItsWords : Prop :=
  (∀ (s : State) (count : Byte) (dap : DapAddr) (final : Bool) (r : Word) (rest : List Bool),
    dap.getLsbD 1 = false → (∀ i, i ≤ count.toNat → (Memory.read s.words i).isSome = true) →
    s.port.draws = (List.replicate (count.toNat + 1) okWriteDraws).flatten ++
      (if dap.getLsbD 0 && final then okReadDraws r else []) ++ rest →
    ∃ t, exec (.dapMove count dap final) s = .next t ∧ t.words = s.words ∧ t.status = 0#3 ∧
      some t.data = (if dap.getLsbD 0 && final then some r else Memory.read s.words count.toNat) ∧
      t.port.draws = rest ∧
      AddsSlotCount (48 * (count.toNat + 1) + (if dap.getLsbD 0 && final then 47 else 0) + 1) s t) ∧
  ∀ (s : State) (count : Byte) (dap : DapAddr) (final : Bool) (ws : List Word) (as bs : List Answer)
    (rest : List Bool),
    dap.getLsbD 1 = false → ws.length = count.toNat + 1 → (∀ i, i ≤ count.toNat → Memory.read s.words i = ws[i]?) →
    as.length = count.toNat + 1 → bs.length = (if dap.getLsbD 0 && final then 1 else 0) →
    (∀ a ∈ as ++ bs, a.Ends 255) →
    s.port.draws = as.flatMap Answer.writeDraws ++ bs.flatMap Answer.readDraws ++ rest →
    ∃ t, exec (.dapMove count dap final) s = .next t ∧ t.words = s.words ∧
      some t.data = bs.foldl (fun d b => d.map b.dataAfter) ws.getLast? ∧
      MoveReports (as.map Answer.writeResult ++ bs.map Answer.readResult) t ∧ t.port.draws = rest ∧
      AddsSlots ((List.zipWith (Answer.sentSlots (reqHeader dap)) ws as).flatten ++
        bs.flatMap (Answer.readSlots 0xBD#8) ++ [.driven false]) s t

/-- A write path faults exactly when an entry of `0..count` is unwritten, at the first one (R174, U7). -/
def Obligations.WritePathFaultsOnUnwrittenWord : Prop :=
  ∀ (s : State) (count : Byte) (dap : DapAddr) (final : Bool), dap.getLsbD 1 = false →
    (∀ i, exec (.dapMove count dap final) s = .fault (.unwrittenWord i) ↔
      i ≤ count.toNat ∧ Memory.read s.words i = none ∧ ∀ j, j < i → (Memory.read s.words j).isSome = true) ∧
    ((∀ i, i ≤ count.toNat → (Memory.read s.words i).isSome = true) →
      ∃ t, exec (.dapMove count dap final) s = .next t)

/-- Every read move completes, and every write move whose entries are written, whatever the target answers; a read changes `WORDS[0..count]` only, a write no entry; `RESULT` and `LINK` stay (R173, R174, R180). -/
def Obligations.MoveFrame : Prop :=
  ∀ (s : State) (count : Byte) (dap : DapAddr) (final : Bool),
    (dap.getLsbD 1 = true ∨ ∀ i, i ≤ count.toNat → (Memory.read s.words i).isSome = true) →
    ∃ t, exec (.dapMove count dap final) s = .next t ∧ t.result = s.result ∧ t.link = s.link ∧ t.pos = s.pos ∧
      t.busy = false ∧ SameSurroundings s t ∧ WireGrows s t ∧
      WordsUnchangedOutside (fun i => dap.getLsbD 1 = true ∧ i ≤ count.toNat) s t

/-- `FINAL` changes nothing but an AP write (R175). -/
def Obligations.FinalConcernsApWritesOnly : Prop :=
  ∀ (s : State) (count : Byte) (dap : DapAddr), (dap.getLsbD 1 = true ∨ dap.getLsbD 0 = false) →
    exec (.dapMove count dap true) s = exec (.dapMove count dap false) s

/-- R178: every move ends with two slots `0` and the lines idle. -/
def Obligations.MoveEndsWithTwoIdleSlots : Prop :=
  ∀ (s t : State) (count : Byte) (dap : DapAddr) (final : Bool), exec (.dapMove count dap final) s = .next t →
    t.port.slots.take 2 = [.driven false, .driven false] ∧ t.port.pins = ⟨true, false, true, false⟩

/-- A move ends within the bound of R186, whatever the target answers. -/
def Obligations.MoveIsBounded : Prop :=
  ∀ (s t : State) (count : Byte) (dap : DapAddr) (final : Bool), exec (.dapMove count dap final) s = .next t →
    t.port.slots.length ≤ s.port.slots.length + (257 * (13 * 255 + 1 + 34) + 1)

/-! ### The target control sequencer -/

/-- `CONNECT` and `LINE_RESET` complete whatever the target answers: `LINK` tells whether the IDCODE packet was OK, a failure is in `ACK` and `ACCUM`, nothing else of the block is written but `DATA` on an OK read (R200 to R206, R234). -/
def Obligations.ConnectAndLineResetFrame : Prop :=
  ∀ (i : Instr) (s : State), (i = .connect ∨ i = .lineReset) → ∃ t, exec i s = .next t ∧
    (t.link = if t.ack = 0x1#4 then 2#2 else 1#2) ∧ t.ack.toNat ≤ 8 ∧
    (t.accum = if t.ack = 0x1#4 then s.accum else t.ack) ∧
    (t.data = s.data ∨ t.ack = 0x1#4 ∨ t.ack = 0x8#4) ∧ t.port.pins = ⟨true, false, true, false⟩ ∧
    t.result = s.result ∧ t.status = s.status ∧ t.words = s.words ∧ t.pos = s.pos ∧ t.busy = false ∧
    SameSurroundings s t ∧ WireGrows s t

/-- `CONNECT` and `LINE_RESET` with an IDCODE read that succeeds after `k` WAITs: the IDCODE in `DATA`, CONNECTED, and the slot counts of R211. Second clause: whatever the target answers to the IDCODE read, the exact slots, the last idle byte always among them, and what `DATA`, `ACK`, `ACCUM` and `LINK` tell of the answer (R202, R205, R206). -/
def Obligations.ConnectReadsIdcode : Prop :=
  (∀ (s : State) (k : Nat) (w : Word) (rest : List Bool), k < 255 → s.port.draws = waitDraws k ++ okReadDraws w ++ rest →
    (∃ t, exec .connect s = .next t ∧ t.data = w ∧ t.ack = 0x1#4 ∧ t.accum = s.accum ∧ t.link = 2#2 ∧
      t.port.draws = rest ∧ AddsSlotCount (143 + 13 * k) s t) ∧
    (∃ t, exec .lineReset s = .next t ∧ t.data = w ∧ t.ack = 0x1#4 ∧ t.accum = s.accum ∧ t.link = 2#2 ∧
      t.port.draws = rest ∧ AddsSlotCount (127 + 13 * k) s t)) ∧
  ∀ (s : State) (a : Answer) (rest : List Bool), a.Ends 255 → s.port.draws = a.readDraws ++ rest →
    ∀ i, (i = .connect ∨ i = .lineReset) → ∃ t, exec i s = .next t ∧ t.data = a.dataAfter s.data ∧
      t.ack = a.readResult ∧ t.accum = accumAfter s.accum [a.readResult] ∧
      (t.link = if a.readResult = 0x1#4 then 2#2 else 1#2) ∧ t.port.draws = rest ∧
      AddsSlots ((if i = .connect then drivenSlots (bitsLsb 0x9E#8) ++ drivenSlots (bitsLsb 0xE7#8) else []) ++
        lineResetSlots a) s t

/-- The wire of a line reset up to its IDCODE packet: 64 slots of `1`, eight of `0`, then `0`, the header 0xA5 and `z`; `CONNECT` sends the switch bytes 0x9E and 0xE7 before it (R202, R203, R205). -/
def Obligations.ConnectWire : Prop :=
  ∀ s : State,
    (∃ t more, exec .lineReset s = .next t ∧
      t.slotsInOrder = s.slotsInOrder ++
        (List.replicate 64 (.driven true) ++ List.replicate 8 (.driven false) ++ [.driven false] ++
          drivenSlots (bitsLsb 0xA5#8) ++ [.released]) ++ more) ∧
    (∃ t more, exec .connect s = .next t ∧
      t.slotsInOrder = s.slotsInOrder ++
        (drivenSlots (bitsLsb 0x9E#8) ++ drivenSlots (bitsLsb 0xE7#8) ++ List.replicate 64 (.driven true) ++
          List.replicate 8 (.driven false) ++ [.driven false] ++ drivenSlots (bitsLsb 0xA5#8) ++ [.released]) ++ more)

/-- `DISCONNECT`: bytes 0x3C and 0xE7 on the wire, then both lines released with `CLK` 0 and `DIO_OUT` 1, `LINK = 0`; no packet, so every other register stays (R204, R207). -/
def Obligations.DisconnectResult : Prop :=
  ∀ s : State, ∃ t, exec .disconnect s = .next t ∧
    AddsSlots (drivenSlots (bitsLsb 0x3C#8) ++ drivenSlots (bitsLsb 0xE7#8)) s t ∧
    t.port.pins = ⟨false, false, false, true⟩ ∧ t.port.draws = s.port.draws ∧
    t = { s with port := t.port, link := 0#2, busy := false }

/-- `CLEAR_ERRORS` with every packet OK: the two CTRL/STAT snapshots in order, the mask 0x1E driven between them, `ACK` the re-read's, 142 slots (R208, R211). -/
def Obligations.ClearErrorsSnapshots : Prop :=
  ∀ (s : State) (w0 w1 : Word) (rest : List Bool),
    s.port.draws = okReadDraws w0 ++ okWriteDraws ++ okReadDraws w1 ++ rest →
    ∃ t, exec .clearErrors s = .next t ∧ Memory.read t.words 0 = some w0 ∧ Memory.read t.words 1 = some w1 ∧
      t.data = w1 ∧ t.ack = 0x1#4 ∧ t.accum = s.accum ∧ t.port.draws = rest ∧ AddsSlotCount 142 s t ∧
      ((t.slotsInOrder.drop (s.port.slots.length + 47)).take 47 =
        [.driven false] ++ drivenSlots (bitsLsb 0x81#8) ++ [.released] ++ sampledSlots [true, false, false] ++
          [.driven true] ++ drivenSlots (bitsLsb 0x0000001E#32) ++ [.driven false])

/-- Whatever the target answers, `CLEAR_ERRORS` completes, writes `WORDS[0]` and `WORDS[1]` and no other entry, and leaves `STATUS`, `LINK` and `RESULT` alone; after it `DATA` is the second snapshot. Second clause: for any answers of the target all three packets are sent, the ABORT write with 0x1E; a read that gets no data phase stores the `DATA` it found, which for the re-read is 0x1E; `ACK` is the re-read's result, and a failure before it shows in `ACCUM` (R208, R209). -/
def Obligations.ClearErrorsFrame : Prop :=
  (∀ s : State, ∃ t, exec .clearErrors s = .next t ∧ t.status = s.status ∧ t.link = s.link ∧ t.result = s.result ∧
    t.pos = s.pos ∧ t.busy = false ∧ Memory.read t.words 1 = some t.data ∧ (Memory.read t.words 0).isSome = true ∧
    WordsUnchangedOutside (fun i => i = 0 ∨ i = 1) s t ∧ SameSurroundings s t ∧ WireGrows s t ∧
    (t.ack ≠ 0x1#4 → t.accum = t.ack)) ∧
  ∀ (s : State) (a b c : Answer) (rest : List Bool), a.Ends 255 → b.Ends 255 → c.Ends 255 →
    s.port.draws = a.readDraws ++ b.writeDraws ++ c.readDraws ++ rest →
    ∃ t, exec .clearErrors s = .next t ∧ Memory.read t.words 0 = some (a.dataAfter s.data) ∧
      Memory.read t.words 1 = some (c.dataAfter 0x0000001E#32) ∧ t.data = c.dataAfter 0x0000001E#32 ∧
      t.ack = c.readResult ∧ t.accum = accumAfter s.accum [a.readResult, b.writeResult, c.readResult] ∧
      t.port.draws = rest ∧
      AddsSlots (a.readSlots 0x8D#8 ++ b.sentSlots 0x81#8 0x0000001E#32 ++ c.readSlots 0x8D#8) s t

/-! ### The host register interface -/

/-- R49: a host read that is answered changes nothing of the block and appends nothing to the trace. -/
def Obligations.HostReadChangesNothing : Prop :=
  ∀ (s t : State) (width offset : Nat) (rest : List Input), s.rstN = true → s.inputs = .read width offset :: rest →
    step s = .next t →
    SameBlock s t ∧ t.rstN = s.rstN ∧ t.inputs = rest ∧ t.level = s.level ∧ ∃ v, t.replies = v :: s.replies

/-- The values a host read gives, register by register (R40 to R46): `CMD` and unnamed offsets read 0, and `CSR` and `PINS` as they stand, busy or idle; `DATA`, `RESULT` and `WORDS` of an idle block read as they stand. -/
def Obligations.IdleReadValues : Prop :=
  ∀ (s : State) (rest : List Input), s.rstN = true →
    (∀ off, off = 0x000 ∨ (off % 4 = 0 ∧ ((0x010 < off ∧ off < 0x400) ∨ 0x800 ≤ off)) → s.inputs = .read 32 off :: rest →
      step s = .next { s with inputs := rest, replies := 0x00000000#32 :: s.replies }) ∧
    (s.inputs = .read 32 0x004 :: rest →
      step s = .next { s with inputs := rest, replies := csrValue s :: s.replies }) ∧
    (s.inputs = .read 32 0x010 :: rest →
      step s = .next { s with inputs := rest, replies := pinsValue s.port.pins :: s.replies }) ∧
    (s.busy = false → s.inputs = .read 32 0x008 :: rest →
      step s = .next { s with inputs := rest, replies := s.data :: s.replies }) ∧
    (s.busy = false → s.inputs = .read 32 0x00C :: rest →
      step s = .next { s with inputs := rest, replies := s.result.setWidth 32 :: s.replies }) ∧
    (∀ i, s.busy = false → i < 256 → s.inputs = .read 32 (0x400 + 4 * i) :: rest →
      (∀ w, Memory.read s.words i = some w → step s = .next { s with inputs := rest, replies := w :: s.replies }) ∧
      (Memory.read s.words i = none → step s = .fault (.unwrittenWord i)))

/-- The fields of `CSR` and `PINS` at their places, every other bit 0 (R41, R44). -/
def Obligations.CsrAndPinsFields : Prop :=
  (∀ s : State,
    (csrValue s).getLsbD 0 = s.busy ∧ (csrValue s).extractLsb' 1 3 = 0#3 ∧ (csrValue s).extractLsb' 4 4 = s.ack ∧
      (csrValue s).extractLsb' 8 3 = s.status ∧ (csrValue s).getLsbD 11 = false ∧
      (csrValue s).extractLsb' 12 2 = s.link ∧ (csrValue s).extractLsb' 14 2 = 0#2 ∧
      (csrValue s).extractLsb' 16 4 = s.accum ∧ (csrValue s).extractLsb' 20 12 = 0#12) ∧
  ∀ q : Pins,
    (pinsValue q).getLsbD 0 = q.clkOe ∧ (pinsValue q).getLsbD 1 = q.clk ∧ (pinsValue q).getLsbD 2 = q.dioOe ∧
      (pinsValue q).getLsbD 3 = q.dioOut ∧ (pinsValue q).extractLsb' 4 28 = 0#28

/-- While `BUSY = 1`, writes of `CMD`, `DATA` and `WORDS` are ignored; `CSR` and `PINS` read as they are; a read of `DATA`, `RESULT` or `WORDS` gives some value and changes nothing of the block (R48). That a `WORDS` entry nothing has written is answered too, and does not fault, is the model's DESIGN CHOICE where U3 and U7 meet (log entry 6). -/
def Obligations.BusyBlockAndTheHost : Prop :=
  ∀ (s : State) (rest : List Input), s.rstN = true → s.busy = true →
    (∀ off w, off = 0x000 ∨ off = 0x008 ∨ (∃ i, i < 256 ∧ off = 0x400 + 4 * i) → s.inputs = .write 32 off w :: rest →
      step s = .next { s with inputs := rest }) ∧
    (s.inputs = .read 32 0x004 :: rest →
      step s = .next { s with inputs := rest, replies := csrValue s :: s.replies }) ∧
    (s.inputs = .read 32 0x010 :: rest →
      step s = .next { s with inputs := rest, replies := pinsValue s.port.pins :: s.replies }) ∧
    (∀ off, off = 0x008 ∨ off = 0x00C ∨ (∃ i, i < 256 ∧ off = 0x400 + 4 * i) → s.inputs = .read 32 off :: rest →
      ∃ t v, step s = .next t ∧ SameBlock s t ∧ t.replies = v :: s.replies)

/-- R47: a host access of another width, or at an offset that is no multiple of 4, is refused, a read and a write, in reset and out of it. -/
def Obligations.BadHostAccessIsRefused : Prop :=
  ∀ (s : State) (width offset : Nat) (w : Word) (rest : List Input), (width ≠ 32 ∨ offset % 4 ≠ 0) →
    (s.inputs = .read width offset :: rest ∨ s.inputs = .write width offset w :: rest) →
    step s = .refused (.badHostAccess width offset)

/-- Host writes (R41 to R46): an idle block's `DATA` and `WORDS[i]` take the host's word, and only they, the other entries and registers stay; writes of the read-only registers `CSR`, `RESULT` and `PINS` and of unnamed offsets are ignored, busy or idle. -/
def Obligations.IdleHostWrites : Prop :=
  ∀ (s : State) (w : Word) (rest : List Input), s.rstN = true →
    (s.busy = false → s.inputs = .write 32 0x008 w :: rest → step s = .next { s with inputs := rest, data := w }) ∧
    (∀ i, s.busy = false → i < 256 → s.inputs = .write 32 (0x400 + 4 * i) w :: rest →
      ∃ t, step s = .next t ∧ t = { s with inputs := rest, words := t.words } ∧ Memory.read t.words i = some w ∧
        WordsUnchangedOutside (fun j => j = i) s t) ∧
    (∀ off, off % 4 = 0 → (off = 0x004 ∨ (0x00C ≤ off ∧ off < 0x400) ∨ 0x800 ≤ off) →
      s.inputs = .write 32 off w :: rest → step s = .next { s with inputs := rest })

/-! ### The two levels, and time -/

/-- R5: the command level agrees with the slot level: run to its end, the slot-level pseudocode of any instruction, from any idle state with no pending input, gives what the command level gives, the same next state or the same fault. -/
def Obligations.SlotLevelAgreesWithCommandLevel : Prop :=
  ∀ (i : Instr) (s : State), s.Ready → s.inputs = [] →
    ∃ n, Host.Core.run Sys2Proof.core n (s.startSlots (program i)) = exec i s

/-- The time of a byte shift, out or in, and of a line reset sequence in the terms of R278: `T_CMD + 2·T_PHASE·slots` plus the overhead, with no delay. -/
def Obligations.ShiftCommandTime : Prop :=
  ∀ (s : State) (b : Byte) (overhead : Nat),
    (∃ t, exec (.shiftOut b) s = .next t ∧ commandCycles overhead s t = Config.tCmd + 2 * Config.tPhase * 8 + overhead) ∧
    (∃ t, exec .shiftIn s = .next t ∧ commandCycles overhead s t = Config.tCmd + 2 * Config.tPhase * 8 + overhead) ∧
    (∃ t, exec .shiftReset s = .next t ∧ commandCycles overhead s t = Config.tCmd + 2 * Config.tPhase * 64 + overhead)
end

