-- ==== Sys2Proof/Laws/Memory.lean ====
section
/-! SUPPORT. Laws of the word buffer: read after write, other entries untouched, the canonical form kept. -/

namespace Sys2Proof.Machine

theorem Memory.read_write (m : Memory) (i j : Nat) (w : Word) :
    Memory.read (Memory.write m i w) j = if j = i then some w else Memory.read m j := by
  induction m with
  | nil => simp [Memory.write, Memory.read]
  | cons c rest ih =>
    obtain ⟨k, v⟩ := c
    unfold Memory.write
    split
    · simp [Memory.read]
    · split
      · subst_vars; simp only [Memory.read]; split <;> simp_all
      · simp only [Memory.read, ih]; split <;> split <;> simp_all

@[simp] theorem Memory.read_write_same (m : Memory) (i : Nat) (w : Word) :
    Memory.read (Memory.write m i w) i = some w := by simp [Memory.read_write]

theorem Memory.read_write_other (m : Memory) {i j : Nat} (w : Word) (h : j ≠ i) :
    Memory.read (Memory.write m i w) j = Memory.read m j := by simp [Memory.read_write, h]

theorem Memory.risesFrom_write (m : Memory) (lo i : Nat) (w : Word) (hlo : lo ≤ i) (hi : i < wordsDepth)
    (h : Memory.risesFrom lo m = true) : Memory.risesFrom lo (Memory.write m i w) = true := by
  induction m generalizing lo with
  | nil => simp [Memory.write, Memory.risesFrom, hlo, hi]
  | cons c rest ih =>
    obtain ⟨k, v⟩ := c
    simp only [Memory.risesFrom, Bool.and_eq_true, decide_eq_true_eq] at h
    unfold Memory.write
    split
    · simp only [Memory.risesFrom, Bool.and_eq_true, decide_eq_true_eq]
      exact ⟨⟨hlo, hi⟩, ⟨by omega, h.1.2⟩, h.2⟩
    · split
      · simp only [Memory.risesFrom, Bool.and_eq_true, decide_eq_true_eq]
        subst_vars; exact ⟨⟨hlo, hi⟩, h.2⟩
      · simp only [Memory.risesFrom, Bool.and_eq_true, decide_eq_true_eq]
        exact ⟨h.1, ih (k + 1) (by omega) h.2⟩

/-- Every write to an entry of the buffer keeps the canonical form. -/
theorem Memory.wf_write (m : Memory) (i : Nat) (w : Word) (hi : i < wordsDepth) (h : Memory.wf m = true) :
    Memory.wf (Memory.write m i w) = true := Memory.risesFrom_write m 0 i w (Nat.zero_le _) hi h

theorem Memory.wf_reset : Memory.wf State.reset.words = true := rfl

theorem State.writeWord_wf (s : State) (i : Nat) (w : Word) (hi : i < wordsDepth) (h : Memory.wf s.words = true) :
    Memory.wf (s.writeWord i w).words = true := Memory.wf_write _ i w hi h

/-- In canonical form, two buffers that read alike are the same list. -/
theorem Memory.risesFrom_read_none (m : Memory) (lo i : Nat) (h : Memory.risesFrom lo m = true) (hi : i < lo) :
    Memory.read m i = none := by
  induction m generalizing lo with
  | nil => rfl
  | cons c rest ih =>
    obtain ⟨k, v⟩ := c
    simp only [Memory.risesFrom, Bool.and_eq_true, decide_eq_true_eq] at h
    have hne : i ≠ k := by omega
    simp [Memory.read, hne, ih (k + 1) h.2 (by omega)]

/-- `gather` gives the entries in order when all are written, and else the first unwritten index. -/
theorem Memory.gather_ok (m : Memory) (n i : Nat) (ws : List Word) (h : Memory.gather m n i = .ok ws) :
    ws.length = n ∧ ∀ j, j < n → Memory.read m (i + j) = ws[j]? := by
  induction n generalizing i ws with
  | zero => simp [Memory.gather] at h; subst h; simp
  | succ n ih =>
    unfold Memory.gather at h
    cases hr : Memory.read m i with
    | none => simp [hr] at h
    | some w =>
      cases hg : Memory.gather m n (i + 1) with
      | error j => simp [hr, hg] at h
      | ok vs =>
        simp [hr, hg] at h
        subst h
        obtain ⟨hl, hv⟩ := ih (i + 1) vs hg
        refine ⟨by simp [hl], fun j hj => ?_⟩
        cases j with
        | zero => simpa using hr
        | succ j => rw [show i + (j + 1) = i + 1 + j by omega, hv j (by omega)]; simp

theorem Memory.gather_error (m : Memory) (n i j : Nat) (h : Memory.gather m n i = .error j) :
    i ≤ j ∧ j < i + n ∧ Memory.read m j = none ∧ ∀ k, i ≤ k → k < j → (Memory.read m k).isSome := by
  induction n generalizing i with
  | zero => simp [Memory.gather] at h
  | succ n ih =>
    unfold Memory.gather at h
    cases hr : Memory.read m i with
    | none =>
      simp [hr] at h
      subst h
      exact ⟨le_refl _, by omega, hr, fun k h1 h2 => by omega⟩
    | some w =>
      cases hg : Memory.gather m n (i + 1) with
      | ok vs => simp [hr, hg] at h
      | error j' =>
        simp [hr, hg] at h
        subst h
        obtain ⟨h1, h2, h3, h4⟩ := ih (i + 1) hg
        refine ⟨by omega, by omega, h3, fun k hk1 hk2 => ?_⟩
        by_cases hki : k = i
        · subst hki; simp [hr]
        · exact h4 k (by omega) hk2

end Sys2Proof.Machine
end

