-- ==== Sys2Proof/Laws/Bits.lean ====
section
/-! SUPPORT. Laws of single-bit and byte replacement, of parity, and of the order of bits on the wire. -/

namespace Sys2Proof.Machine

@[simp] theorem getLsbD_setBit {n : Nat} (v : BitVec n) (i j : Nat) (b : Bool) :
    (setBit v i b).getLsbD j = if j = i ∧ i < n then b else v.getLsbD j := by
  by_cases hj : j < n
  · by_cases h : j = i
    · subst h; cases b <;> simp [setBit, hj]
    · cases b <;> simp [setBit, hj, h]
  · have h : ¬ (j = i ∧ i < n) := by omega
    simp [h, BitVec.getLsbD_of_ge _ j (by omega : n ≤ j)]

theorem getLsbD_byteAt (w : Word) (k i : Nat) (hi : i < 8) : (byteAt w k).getLsbD i = w.getLsbD (8 * k + i) := by
  simp [byteAt, hi]

theorem getLsbD_setByte (w : Word) (k j : Nat) (b : Byte) (hk : k < 4) :
    (setByte w k b).getLsbD j = if 8 * k ≤ j ∧ j < 8 * k + 8 then b.getLsbD (j - 8 * k) else w.getLsbD j := by
  by_cases hj : j < 32
  · interval_cases k <;> interval_cases j <;> simp [setByte]
  · have h1 : ¬ (8 * k ≤ j ∧ j < 8 * k + 8) := by omega
    simp only [h1, if_false, BitVec.getLsbD_of_ge _ j (by omega : 32 ≤ j)]

@[simp] theorem length_bitsLsb {n : Nat} (v : BitVec n) : (bitsLsb v).length = n := by simp [bitsLsb]

theorem getElem_bitsLsb {n : Nat} (v : BitVec n) (i : Nat) (h : i < (bitsLsb v).length) :
    (bitsLsb v)[i] = v.getLsbD i := by simp [bitsLsb]

@[simp] theorem length_waitDraws (k : Nat) : (waitDraws k).length = 3 * k := by
  simp [waitDraws, List.length_flatten]; omega

theorem waitDraws_succ (k : Nat) : waitDraws (k + 1) = bitsLsb ackWait ++ waitDraws k := rfl

end Sys2Proof.Machine
end

