-- ==== Sys2Proof/Laws/Port.lean ====
section
/-! SUPPORT. What each routine of the transceiver does to the port, field by field: latches, draws, slots; and that the trace keeps telling the pins (R10 to R12, R21, R22, R115 to R118, R121). -/

namespace Sys2Proof.Machine

/-! ### Latch writes -/

@[simp] theorem Port.setPins_pins (q : Pins) (p : Port) : (p.setPins q).pins = q := by
  unfold Port.setPins; split <;> simp_all
@[simp] theorem Port.setPins_draws (q : Pins) (p : Port) : (p.setPins q).draws = p.draws := by
  unfold Port.setPins; split <;> rfl
@[simp] theorem Port.setPins_drawn (q : Pins) (p : Port) : (p.setPins q).drawn = p.drawn := by
  unfold Port.setPins; split <;> rfl
@[simp] theorem Port.setPins_slots (q : Pins) (p : Port) : (p.setPins q).slots = p.slots := by
  unfold Port.setPins; split <;> rfl
theorem Port.setPins_trace (q : Pins) (p : Port) :
    (p.setPins q).trace = if q = p.pins then p.trace else .pins q :: p.trace := by
  unfold Port.setPins; split <;> rfl
theorem Port.setPins_grows (q : Pins) (p : Port) : p.trace <:+ (p.setPins q).trace := by
  rw [Port.setPins_trace]; split
  · exact List.suffix_refl _
  · exact List.suffix_cons _ _

@[simp] theorem Port.setClkOe_pins (b : Bool) (p : Port) : (p.setClkOe b).pins = { p.pins with clkOe := b } := by
  simp [Port.setClkOe]
@[simp] theorem Port.setClk_pins (b : Bool) (p : Port) : (p.setClk b).pins = { p.pins with clk := b } := by
  simp [Port.setClk]
@[simp] theorem Port.setDioOe_pins (b : Bool) (p : Port) : (p.setDioOe b).pins = { p.pins with dioOe := b } := by
  simp [Port.setDioOe]
@[simp] theorem Port.setDioOut_pins (b : Bool) (p : Port) : (p.setDioOut b).pins = { p.pins with dioOut := b } := by
  simp [Port.setDioOut]
@[simp] theorem Port.setClkOe_draws (b : Bool) (p : Port) : (p.setClkOe b).draws = p.draws := by simp [Port.setClkOe]
@[simp] theorem Port.setClk_draws (b : Bool) (p : Port) : (p.setClk b).draws = p.draws := by simp [Port.setClk]
@[simp] theorem Port.setDioOe_draws (b : Bool) (p : Port) : (p.setDioOe b).draws = p.draws := by simp [Port.setDioOe]
@[simp] theorem Port.setDioOut_draws (b : Bool) (p : Port) : (p.setDioOut b).draws = p.draws := by
  simp [Port.setDioOut]
@[simp] theorem Port.setClkOe_drawn (b : Bool) (p : Port) : (p.setClkOe b).drawn = p.drawn := by simp [Port.setClkOe]
@[simp] theorem Port.setClk_drawn (b : Bool) (p : Port) : (p.setClk b).drawn = p.drawn := by simp [Port.setClk]
@[simp] theorem Port.setDioOe_drawn (b : Bool) (p : Port) : (p.setDioOe b).drawn = p.drawn := by simp [Port.setDioOe]
@[simp] theorem Port.setDioOut_drawn (b : Bool) (p : Port) : (p.setDioOut b).drawn = p.drawn := by
  simp [Port.setDioOut]
@[simp] theorem Port.setClkOe_slots (b : Bool) (p : Port) : (p.setClkOe b).slots = p.slots := by simp [Port.setClkOe]
@[simp] theorem Port.setClk_slots (b : Bool) (p : Port) : (p.setClk b).slots = p.slots := by simp [Port.setClk]
@[simp] theorem Port.setDioOe_slots (b : Bool) (p : Port) : (p.setDioOe b).slots = p.slots := by simp [Port.setDioOe]
@[simp] theorem Port.setDioOut_slots (b : Bool) (p : Port) : (p.setDioOut b).slots = p.slots := by
  simp [Port.setDioOut]

/-! ### The wire primitives -/

@[simp] theorem Port.pulseRise_pins (p : Port) : p.pulseRise.pins = { p.pins with clk := true } := by
  simp [Port.pulseRise]
@[simp] theorem Port.pulseRise_draws (p : Port) : p.pulseRise.draws = p.draws := by simp [Port.pulseRise]
@[simp] theorem Port.pulseRise_drawn (p : Port) : p.pulseRise.drawn = p.drawn := by simp [Port.pulseRise]
@[simp] theorem Port.pulseRise_slots (p : Port) : p.pulseRise.slots = slotOf p.pins :: p.slots := by
  simp [Port.pulseRise, slotOf]

/-- `Pulse()` leaves SWCLK driven low and SWDIO as it was (R10, R21). -/
@[simp] theorem Port.pulse_pins (p : Port) : p.pulse.pins = { p.pins with clkOe := true, clk := false } := by
  simp [Port.pulse]
@[simp] theorem Port.pulse_draws (p : Port) : p.pulse.draws = p.draws := by simp [Port.pulse]
@[simp] theorem Port.pulse_drawn (p : Port) : p.pulse.drawn = p.drawn := by simp [Port.pulse]
/-- A slot is one `Pulse()` (R12). -/
@[simp] theorem Port.pulse_slots (p : Port) : p.pulse.slots = slotOf p.pins :: p.slots := by
  simp [Port.pulse, slotOf]

@[simp] theorem Port.sample_pins (p : Port) : p.sample.2.pins = p.pins := rfl
@[simp] theorem Port.sample_draws (p : Port) : p.sample.2.draws = p.draws.tail := rfl
@[simp] theorem Port.sample_drawn (p : Port) : p.sample.2.drawn = p.drawn + 1 := rfl
@[simp] theorem Port.sample_slots (p : Port) : p.sample.2.slots = p.slots := rfl

/-- `Sample()` returns the next draw (R23). -/
@[simp] theorem Port.sample_fst (p : Port) : p.sample.1 = p.drawAt 0 := by
  unfold Port.sample Port.nextDraw Port.drawAt
  cases p.draws <;> rfl

/-- What is left after a sample are the draws after it. -/
theorem Port.drawAt_succ (p q : Port) (hd : q.draws = p.draws.tail) (hn : q.drawn = p.drawn + 1) (k : Nat) :
    q.drawAt k = p.drawAt (k + 1) := by
  unfold Port.drawAt
  rw [hd, hn, show p.drawn + 1 + k = p.drawn + (k + 1) by omega]
  cases p.draws <;> rfl

theorem Port.drawAt_congr (p q : Port) (hd : q.draws = p.draws) (hn : q.drawn = p.drawn) (k : Nat) :
    q.drawAt k = p.drawAt k := by
  unfold Port.drawAt; rw [hd, hn]

theorem Port.drawAt_drop (p q : Port) (n : Nat) (hd : q.draws = p.draws.drop n) (hn : q.drawn = p.drawn + n) (k : Nat) :
    q.drawAt k = p.drawAt (n + k) := by
  unfold Port.drawAt
  rw [hd, hn, List.getElem?_drop, Nat.add_assoc]

@[simp] theorem Port.sampleSlot_fst (p : Port) : p.sampleSlot.1 = p.drawAt 0 := by simp [Port.sampleSlot]
@[simp] theorem Port.sampleSlot_pins (p : Port) : p.sampleSlot.2.pins = p.pins := rfl
@[simp] theorem Port.sampleSlot_draws (p : Port) : p.sampleSlot.2.draws = p.draws.tail := rfl
@[simp] theorem Port.sampleSlot_drawn (p : Port) : p.sampleSlot.2.drawn = p.drawn + 1 := rfl
@[simp] theorem Port.sampleSlot_slots (p : Port) : p.sampleSlot.2.slots = markSampled (p.drawAt 0) p.slots := by
  simp [Port.sampleSlot]

@[simp] theorem Port.delay_pins (d : Nat) (p : Port) : (p.delay d).pins = p.pins := rfl
@[simp] theorem Port.delay_draws (d : Nat) (p : Port) : (p.delay d).draws = p.draws := rfl
@[simp] theorem Port.delay_drawn (d : Nat) (p : Port) : (p.delay d).drawn = p.drawn := rfl
@[simp] theorem Port.delay_slots (d : Nat) (p : Port) : (p.delay d).slots = p.slots := rfl

/-! ### Routines -/

theorem Port.shiftOutFrom_draws (b : Byte) (n i : Nat) (p : Port) : (Port.shiftOutFrom b n i p).draws = p.draws := by
  induction n generalizing i p with
  | zero => rfl
  | succ n ih => simp [Port.shiftOutFrom, ih]

theorem Port.shiftOutFrom_drawn (b : Byte) (n i : Nat) (p : Port) : (Port.shiftOutFrom b n i p).drawn = p.drawn := by
  induction n generalizing i p with
  | zero => rfl
  | succ n ih => simp [Port.shiftOutFrom, ih]

@[simp] theorem Port.shiftOutByte_draws (b : Byte) (p : Port) : (p.shiftOutByte b).draws = p.draws := by
  simp [Port.shiftOutByte, Port.shiftOutFrom_draws]
@[simp] theorem Port.shiftOutByte_drawn (b : Byte) (p : Port) : (p.shiftOutByte b).drawn = p.drawn := by
  simp [Port.shiftOutByte, Port.shiftOutFrom_drawn]

/-- After `ShiftOutByte(b)`: `DIO_OE = 1`, `DIO_OUT = b[7]`, SWCLK driven low (R115). -/
@[simp] theorem Port.shiftOutByte_pins (b : Byte) (p : Port) :
    (p.shiftOutByte b).pins = ⟨true, false, true, b.getLsbD 7⟩ := by
  simp [Port.shiftOutByte, Port.shiftOutFrom]

/-- `ShiftOutByte(b)` is eight driven slots, `b[0]` first (R115). -/
theorem Port.shiftOutByte_slots (b : Byte) (p : Port) :
    (p.shiftOutByte b).slots = (drivenSlots (bitsLsb b)).reverse ++ p.slots := by
  simp [Port.shiftOutByte, Port.shiftOutFrom, slotOf, drivenSlots, bitsLsb, List.range_succ]

@[simp] theorem Port.readBit_fst (p : Port) : p.readBit.1 = p.drawAt 0 := by
  simp [Port.readBit, Port.drawAt_congr p p.pulse]
@[simp] theorem Port.readBit_pins (p : Port) : p.readBit.2.pins = { p.pins with clkOe := true, clk := false } := by
  simp [Port.readBit]
@[simp] theorem Port.readBit_draws (p : Port) : p.readBit.2.draws = p.draws.tail := by simp [Port.readBit]
@[simp] theorem Port.readBit_drawn (p : Port) : p.readBit.2.drawn = p.drawn + 1 := by simp [Port.readBit]
/-- With SWDIO released, `ReadBit()` is one sampled slot (R117). -/
theorem Port.readBit_slots (p : Port) (h : p.pins.dioOe = false) :
    p.readBit.2.slots = .sampled (p.drawAt 0) :: p.slots := by
  simp [Port.readBit, slotOf, h, markSampled, Port.drawAt_congr p p.pulse]

theorem Port.readBit_drawAt (p : Port) (k : Nat) : p.readBit.2.drawAt k = p.drawAt (k + 1) :=
  Port.drawAt_succ p _ (by simp) (by simp) k

theorem Port.readBitsFrom_pins {m : Nat} (n i : Nat) (v : BitVec m) (p : Port) :
    (Port.readBitsFrom n i v p).2.pins = if n = 0 then p.pins else { p.pins with clkOe := true, clk := false } := by
  induction n generalizing i v p with
  | zero => rfl
  | succ n ih =>
    rw [Port.readBitsFrom, ih]
    cases n <;> simp

theorem Port.readBitsFrom_draws {m : Nat} (n i : Nat) (v : BitVec m) (p : Port) :
    (Port.readBitsFrom n i v p).2.draws = p.draws.drop n := by
  induction n generalizing i v p with
  | zero => rfl
  | succ n ih => rw [Port.readBitsFrom, ih]; cases h : p.draws <;> simp [h]

theorem Port.readBitsFrom_drawn {m : Nat} (n i : Nat) (v : BitVec m) (p : Port) :
    (Port.readBitsFrom n i v p).2.drawn = p.drawn + n := by
  induction n generalizing i v p with
  | zero => rfl
  | succ n ih => rw [Port.readBitsFrom, ih]; simp; omega

/-- Reading `n` bits with SWDIO released is `n` sampled slots. -/
theorem Port.readBitsFrom_slots {m : Nat} (n i : Nat) (v : BitVec m) (p : Port) (h : p.pins.dioOe = false) :
    (Port.readBitsFrom n i v p).2.slots = (sampledSlots (p.drawList n)).reverse ++ p.slots := by
  induction n generalizing i v p with
  | zero => rfl
  | succ n ih =>
    rw [Port.readBitsFrom, ih _ _ _ (by simp [h]), Port.readBit_slots p h]
    simp [Port.drawList, sampledSlots, List.range_succ_eq_map, Port.readBit_drawAt, Function.comp_def]

/-- The bits read go to `v[i], v[i+1], …` in the order of the draws. -/
theorem Port.readBitsFrom_getLsbD {m : Nat} (n i j : Nat) (v : BitVec m) (p : Port) (hm : i + n ≤ m) :
    (Port.readBitsFrom n i v p).1.getLsbD j =
      if i ≤ j ∧ j < i + n then p.drawAt (j - i) else v.getLsbD j := by
  induction n generalizing i v p with
  | zero => simp [Port.readBitsFrom]
  | succ n ih =>
    rw [Port.readBitsFrom, ih (i + 1) _ _ (by omega)]
    by_cases h1 : i + 1 ≤ j ∧ j < i + 1 + n
    · have h2 : i ≤ j ∧ j < i + (n + 1) := by omega
      rw [if_pos h1, if_pos h2, Port.readBit_drawAt]
      congr 1; omega
    · rw [if_neg h1, getLsbD_setBit, Port.readBit_fst]
      by_cases h3 : j = i
      · subst h3
        have h4 : j < m := by omega
        simp [h4]
      · have h5 : ¬ (i ≤ j ∧ j < i + (n + 1)) := by omega
        simp [h3, h5]

@[simp] theorem Port.shiftInByte_pins (p : Port) :
    p.shiftInByte.2.pins = ⟨true, false, false, p.pins.dioOut⟩ := by
  simp [Port.shiftInByte, Port.readBitsFrom_pins]
@[simp] theorem Port.shiftInByte_draws (p : Port) : p.shiftInByte.2.draws = p.draws.drop 8 := by
  simp [Port.shiftInByte, Port.readBitsFrom_draws]
@[simp] theorem Port.shiftInByte_drawn (p : Port) : p.shiftInByte.2.drawn = p.drawn + 8 := by
  simp [Port.shiftInByte, Port.readBitsFrom_drawn]
theorem Port.drawList_congr (p q : Port) (hd : q.draws = p.draws) (hn : q.drawn = p.drawn) (n : Nat) :
    q.drawList n = p.drawList n := by
  unfold Port.drawList; congr 1; funext k; exact Port.drawAt_congr p q hd hn k

/-- `ShiftInByte()` is eight sampled slots (R116). -/
theorem Port.shiftInByte_slots (p : Port) :
    p.shiftInByte.2.slots = (sampledSlots (p.drawList 8)).reverse ++ p.slots := by
  rw [Port.shiftInByte, Port.readBitsFrom_slots _ _ _ _ (by simp), Port.drawList_congr p _ (by simp) (by simp)]
  simp

/-- The first sample of `ShiftInByte()` is `v[0]` (R116). -/
theorem Port.shiftInByte_getLsbD (p : Port) (j : Nat) (hj : j < 8) :
    p.shiftInByte.1.getLsbD j = p.drawAt j := by
  rw [Port.shiftInByte, Port.readBitsFrom_getLsbD 8 0 j _ _ (by omega), if_pos (by omega)]
  exact Port.drawAt_congr p _ (by simp) (by simp) _

@[simp] theorem Port.idlePulse_pins (p : Port) : p.idlePulse.pins = Pins.afterPacket := by
  simp [Port.idlePulse, Pins.afterPacket]
@[simp] theorem Port.idlePulse_draws (p : Port) : p.idlePulse.draws = p.draws := by simp [Port.idlePulse]
@[simp] theorem Port.idlePulse_drawn (p : Port) : p.idlePulse.drawn = p.drawn := by simp [Port.idlePulse]
/-- `IdlePulse()` is one slot `0` (R118). -/
@[simp] theorem Port.idlePulse_slots (p : Port) : p.idlePulse.slots = .driven false :: p.slots := by
  simp [Port.idlePulse, slotOf]

theorem Port.pulses_pins (n : Nat) (p : Port) :
    (Port.pulses n p).pins = if n = 0 then p.pins else { p.pins with clkOe := true, clk := false } := by
  induction n generalizing p with
  | zero => rfl
  | succ n ih => rw [Port.pulses, ih]; cases n <;> simp
theorem Port.pulses_draws (n : Nat) (p : Port) : (Port.pulses n p).draws = p.draws := by
  induction n generalizing p with
  | zero => rfl
  | succ n ih => simp [Port.pulses, ih]
theorem Port.pulses_drawn (n : Nat) (p : Port) : (Port.pulses n p).drawn = p.drawn := by
  induction n generalizing p with
  | zero => rfl
  | succ n ih => simp [Port.pulses, ih]
theorem Port.pulses_slots (n : Nat) (p : Port) :
    (Port.pulses n p).slots = List.replicate n (slotOf p.pins) ++ p.slots := by
  induction n generalizing p with
  | zero => rfl
  | succ n ih =>
    rw [Port.pulses, ih, Port.pulse_slots, List.replicate_succ']
    simp [slotOf]

@[simp] theorem Port.shiftResetSeq_pins (p : Port) : p.shiftResetSeq.pins = ⟨true, false, true, true⟩ := by
  simp [Port.shiftResetSeq, Port.pulses_pins, lineResetPulses]
@[simp] theorem Port.shiftResetSeq_draws (p : Port) : p.shiftResetSeq.draws = p.draws := by
  simp [Port.shiftResetSeq, Port.pulses_draws]
@[simp] theorem Port.shiftResetSeq_drawn (p : Port) : p.shiftResetSeq.drawn = p.drawn := by
  simp [Port.shiftResetSeq, Port.pulses_drawn]
/-- The line reset is 64 slots of `1` (R121). -/
theorem Port.shiftResetSeq_slots (p : Port) :
    p.shiftResetSeq.slots = List.replicate 64 (.driven true) ++ p.slots := by
  simp [Port.shiftResetSeq, Port.pulses_slots, lineResetPulses, slotOf]

/-! ### One relation for what every routine keeps -/

/-- From `p` to `q` the wire only gains events and slots, and if the trace told the pins before it does after (R11). -/
structure Port.Extends (p q : Port) : Prop where
  trace : p.trace <:+ q.trace
  slots : p.slots.length ≤ q.slots.length
  tells : lastPins p.trace = p.pins ∧ traceLegal p.trace = true →
    lastPins q.trace = q.pins ∧ traceLegal q.trace = true

theorem Port.Extends.refl (p : Port) : p.Extends p := ⟨List.suffix_refl _, le_refl _, fun h => h⟩
theorem Port.Extends.trans {p q r : Port} (h : p.Extends q) (g : q.Extends r) : p.Extends r :=
  ⟨h.trace.trans g.trace, le_trans h.slots g.slots, fun t => g.tells (h.tells t)⟩

theorem Port.setPins_extends (q : Pins) (p : Port) : p.Extends (p.setPins q) := by
  refine ⟨Port.setPins_grows q p, by simp, fun h => ?_⟩
  rw [Port.setPins_trace, Port.setPins_pins]
  by_cases e : q = p.pins
  · simpa [e] using h
  · simp [e, lastPins, traceLegal, h.1, h.2]

theorem Port.pulseRise_extends (p : Port) : p.Extends p.pulseRise := by
  have h := Port.setPins_extends { p.pins with clk := true } p
  exact ⟨h.trace, by simp, h.tells⟩

theorem Port.pulse_extends (p : Port) : p.Extends p.pulse :=
  ((Port.setPins_extends _ p).trans (Port.pulseRise_extends _)).trans (Port.setPins_extends _ _)

theorem Port.sample_extends (p : Port) : p.Extends p.sample.2 :=
  ⟨List.suffix_cons _ _, le_refl _, fun h => by simpa [Port.sample, lastPins, traceLegal] using h⟩

@[simp] theorem length_markSampled (b : Bool) (l : List Slot) : (markSampled b l).length = l.length := by
  unfold markSampled; split <;> simp

theorem Port.sampleSlot_extends (p : Port) : p.Extends p.sampleSlot.2 :=
  ⟨(Port.sample_extends p).trace, by simp, (Port.sample_extends p).tells⟩

theorem Port.delay_extends (d : Nat) (p : Port) : p.Extends (p.delay d) := by
  unfold Port.delay
  by_cases hd : 0 < d
  · exact ⟨by simp [hd], by simp, fun h => by simpa [hd, lastPins, traceLegal] using h⟩
  · exact ⟨by simp [hd], by simp, fun h => by simpa [hd] using h⟩

theorem Port.shiftOutFrom_extends (b : Byte) (n i : Nat) (p : Port) : p.Extends (Port.shiftOutFrom b n i p) := by
  induction n generalizing i p with
  | zero => exact Port.Extends.refl p
  | succ n ih => exact ((Port.setPins_extends _ p).trans (Port.pulse_extends _)).trans (ih _ _)

theorem Port.shiftOutByte_extends (b : Byte) (p : Port) : p.Extends (p.shiftOutByte b) :=
  (Port.setPins_extends _ p).trans (Port.shiftOutFrom_extends _ _ _ _)

theorem Port.readBit_extends (p : Port) : p.Extends p.readBit.2 :=
  (Port.pulse_extends p).trans (Port.sampleSlot_extends _)

theorem Port.readBitsFrom_extends {m : Nat} (n i : Nat) (v : BitVec m) (p : Port) :
    p.Extends (Port.readBitsFrom n i v p).2 := by
  induction n generalizing i v p with
  | zero => exact Port.Extends.refl p
  | succ n ih => exact (Port.readBit_extends p).trans (ih _ _ _)

theorem Port.shiftInByte_extends (p : Port) : p.Extends p.shiftInByte.2 :=
  (Port.setPins_extends _ p).trans (Port.readBitsFrom_extends _ _ _ _)

theorem Port.idlePulse_extends (p : Port) : p.Extends p.idlePulse :=
  ((Port.setPins_extends _ p).trans (Port.setPins_extends _ _)).trans (Port.pulse_extends _)

theorem Port.pulses_extends (n : Nat) (p : Port) : p.Extends (Port.pulses n p) := by
  induction n generalizing p with
  | zero => exact Port.Extends.refl p
  | succ n ih => exact (Port.pulse_extends p).trans (ih _)

theorem Port.shiftResetSeq_extends (p : Port) : p.Extends p.shiftResetSeq :=
  ((Port.setPins_extends _ p).trans (Port.setPins_extends _ _)).trans (Port.pulses_extends _ _)

end Sys2Proof.Machine
end

