-- ==== Sys2Proof/Laws/Packet.lean ====
section
/-! SUPPORT. What the packet framer does: one attempt, the retries, the data phases, and everything `ShiftPacket` can do to the state (R140 to R149, R152, R153). -/

namespace Sys2Proof.Machine

/-! ### One attempt (R144) -/

@[simp] theorem Port.attempt_pins (req : Byte) (p : Port) :
    (p.attempt req).2.pins = ⟨true, false, false, req.getLsbD 7⟩ := by
  simp [Port.attempt, Port.readBitsFrom_pins]
@[simp] theorem Port.attempt_draws (req : Byte) (p : Port) : (p.attempt req).2.draws = p.draws.drop 3 := by
  simp [Port.attempt, Port.readBitsFrom_draws]
@[simp] theorem Port.attempt_drawn (req : Byte) (p : Port) : (p.attempt req).2.drawn = p.drawn + 3 := by
  simp [Port.attempt, Port.readBitsFrom_drawn]

theorem Port.attempt_getLsbD (req : Byte) (p : Port) (j : Nat) (hj : j < 3) :
    (p.attempt req).1.getLsbD j = p.drawAt j := by
  rw [Port.attempt, Port.readBitsFrom_getLsbD 3 0 j _ _ (by omega), if_pos (by omega)]
  exact Port.drawAt_congr p _ (by simp) (by simp) _

@[simp] theorem length_attemptSlots (req : Byte) (acks : List Bool) :
    (attemptSlots req acks).length = 10 + acks.length := by
  simp [attemptSlots, drivenSlots, sampledSlots]; omega

theorem Port.attempt_slots (req : Byte) (p : Port) :
    (p.attempt req).2.slots = (attemptSlots req (p.drawList 3)).reverse ++ p.slots := by
  rw [Port.attempt, Port.readBitsFrom_slots _ _ _ _ (by simp),
    Port.drawList_congr p _ (by simp) (by simp)]
  simp [Port.shiftOutByte_slots, slotOf, attemptSlots]

@[simp] theorem length_drawList (p : Port) (n : Nat) : (p.drawList n).length = n := by simp [Port.drawList]

theorem Port.attempt_slot_count (req : Byte) (p : Port) :
    (p.attempt req).2.slots.length = p.slots.length + 13 := by
  simp [Port.attempt_slots]; omega

theorem Port.attempt_extends (req : Byte) (p : Port) : p.Extends (p.attempt req).2 :=
  ((((Port.idlePulse_extends p).trans (Port.shiftOutByte_extends _ _)).trans (Port.setPins_extends _ _)).trans
    (Port.pulse_extends _)).trans (Port.readBitsFrom_extends _ _ _ _)

/-- Listed draws come first. -/
theorem Port.drawAt_of_append (p : Port) (l rest : List Bool) (h : p.draws = l ++ rest) (k : Nat) (hk : k < l.length) :
    p.drawAt k = l[k] := by
  simp [Port.drawAt, h, List.getElem?_append_left hk, List.getElem?_eq_getElem hk]

theorem Port.drawList_of_append (p : Port) (l rest : List Bool) (h : p.draws = l ++ rest) :
    p.drawList l.length = l := by
  apply List.ext_getElem (by simp)
  intro k h1 h2
  simp [Port.drawList, Port.drawAt_of_append p l rest h k h2]

/-- An acknowledge the target lists is the one received (R91). -/
theorem Port.attempt_ack (req : Byte) (p : Port) (a : AckBits) (rest : List Bool) (h : p.draws = bitsLsb a ++ rest) :
    (p.attempt req).1 = a := by
  apply BitVec.eq_of_getLsbD_eq
  intro j hj
  rw [Port.attempt_getLsbD req p j hj, Port.drawAt_of_append p _ rest h j (by simpa using hj), getElem_bitsLsb]

/-! ### Retries (R143) -/

theorem Port.attempts_pins (req : Byte) (more a : Nat) (p : Port) :
    (Port.attempts req more a p).2.pins = ⟨true, false, false, req.getLsbD 7⟩ := by
  induction more generalizing a p with
  | zero => simp [Port.attempts]
  | succ n ih => unfold Port.attempts; dsimp only; split <;> simp [ih]

theorem Port.attempts_extends (req : Byte) (more a : Nat) (p : Port) : p.Extends (Port.attempts req more a p).2 := by
  induction more generalizing a p with
  | zero => exact Port.attempt_extends req p
  | succ n ih =>
    unfold Port.attempts; dsimp only
    split
    · exact ((Port.attempt_extends req p).trans (Port.delay_extends _ _)).trans (ih _ _)
    · exact Port.attempt_extends req p

@[simp] theorem length_attemptsSlots (req : Byte) (k : Nat) (ack : AckBits) :
    (attemptsSlots req k ack).length = 13 * (k + 1) := by
  simp [attemptsSlots]; omega

theorem attemptsSlots_zero (req : Byte) (ack : AckBits) : attemptsSlots req 0 ack = attemptSlots req (bitsLsb ack) := rfl

theorem attemptsSlots_succ (req : Byte) (k : Nat) (ack : AckBits) :
    attemptsSlots req (k + 1) ack = attemptSlots req (bitsLsb ackWait) ++ attemptsSlots req k ack := by
  rw [attemptsSlots, List.replicate_succ, List.flatten_cons, List.append_assoc]; rfl

/-- An attempt whose acknowledge is listed takes its three draws and adds its 13 slots (R144). -/
theorem Port.attempt_listed (req : Byte) (p : Port) (ack : AckBits) (rest : List Bool)
    (h : p.draws = bitsLsb ack ++ rest) :
    (p.attempt req).1 = ack ∧ (p.attempt req).2.draws = rest ∧
      (p.attempt req).2.slots = (attemptSlots req (bitsLsb ack)).reverse ++ p.slots := by
  refine ⟨Port.attempt_ack req p ack rest h, ?_, ?_⟩
  · rw [Port.attempt_draws, h, List.drop_append_of_le_length (by simp)]
    simp [List.drop_of_length_le]
  · rw [Port.attempt_slots, ← Port.drawList_of_append p _ rest h, length_bitsLsb]

/-- `k` attempts answered WAIT, then one answered `ack` that ends the loop: not WAIT, or the last allowed (R143, R152). -/
theorem Port.attempts_listed (req : Byte) (more k a : Nat) (ack : AckBits) (rest : List Bool) (p : Port)
    (hk : k ≤ more) (hend : ack ≠ ackWait ∨ k = more) (h : p.draws = waitDraws k ++ bitsLsb ack ++ rest) :
    (Port.attempts req more a p).1 = ack ∧ (Port.attempts req more a p).2.draws = rest ∧
      (Port.attempts req more a p).2.slots = (attemptsSlots req k ack).reverse ++ p.slots := by
  induction more generalizing k a p with
  | zero =>
    obtain rfl : k = 0 := by omega
    simpa [Port.attempts, attemptsSlots_zero] using Port.attempt_listed req p ack rest (by simpa [waitDraws] using h)
  | succ more ih =>
    cases k with
    | zero =>
      have hne : ack ≠ ackWait := hend.resolve_right (by omega)
      obtain ⟨h1, h2, h3⟩ := Port.attempt_listed req p ack rest (by simpa [waitDraws] using h)
      unfold Port.attempts; dsimp only
      rw [h1, if_neg hne]
      exact ⟨h1, h2, h3⟩
    | succ k =>
      obtain ⟨h1, h2, h3⟩ := Port.attempt_listed req p ackWait (waitDraws k ++ bitsLsb ack ++ rest)
        (by rw [h, waitDraws_succ]; simp [List.append_assoc])
      unfold Port.attempts; dsimp only
      rw [if_pos h1]
      obtain ⟨g1, g2, g3⟩ := ih k (a + 1) ((p.attempt req).2.delay (Config.waitDelay a (more + 1))) (by omega)
        (hend.imp id (by omega)) (by rw [Port.delay_draws, h2])
      exact ⟨g1, g2, by rw [g3, Port.delay_slots, h3, attemptsSlots_succ, List.reverse_append, List.append_assoc]⟩

/-! ### Data phases (R146, R147) -/

theorem Port.readBytesFrom_pins (n k : Nat) (v : Word) (p : Port) :
    (Port.readBytesFrom n k v p).2.pins = if n = 0 then p.pins else ⟨true, false, false, p.pins.dioOut⟩ := by
  induction n generalizing k v p with
  | zero => rfl
  | succ n ih => rw [Port.readBytesFrom, ih]; cases n <;> simp

theorem Port.readBytesFrom_draws (n k : Nat) (v : Word) (p : Port) :
    (Port.readBytesFrom n k v p).2.draws = p.draws.drop (8 * n) := by
  induction n generalizing k v p with
  | zero => rfl
  | succ n ih => rw [Port.readBytesFrom, ih]; simp [List.drop_drop]; congr 1; omega

theorem Port.readBytesFrom_drawn (n k : Nat) (v : Word) (p : Port) :
    (Port.readBytesFrom n k v p).2.drawn = p.drawn + 8 * n := by
  induction n generalizing k v p with
  | zero => rfl
  | succ n ih => rw [Port.readBytesFrom, ih]; simp; omega

theorem Port.shiftInByte_drawAt (p : Port) (k : Nat) : p.shiftInByte.2.drawAt k = p.drawAt (8 + k) :=
  Port.drawAt_drop p _ 8 (by simp) (by simp) k

/-- The next `m + k` draws are the next `m` and the `k` after them. -/
theorem Port.drawList_add (p q : Port) (m k : Nat) (h : ∀ j, q.drawAt j = p.drawAt (m + j)) :
    p.drawList (m + k) = p.drawList m ++ q.drawList k := by
  simp [Port.drawList, List.range_add, h]

/-- Each byte read is eight sampled slots (R116, R146). -/
theorem Port.readBytesFrom_slots (n k : Nat) (v : Word) (p : Port) :
    (Port.readBytesFrom n k v p).2.slots = (sampledSlots (p.drawList (8 * n))).reverse ++ p.slots := by
  induction n generalizing k v p with
  | zero => rfl
  | succ n ih =>
    rw [Port.readBytesFrom, ih, Port.shiftInByte_slots, show 8 * (n + 1) = 8 + 8 * n by omega,
      Port.drawList_add p p.shiftInByte.2 8 (8 * n) (Port.shiftInByte_drawAt p)]
    simp [sampledSlots]

/-- Byte 0 is the least significant and comes first, bit 0 first (R65, R66, R146). -/
theorem Port.readBytesFrom_getLsbD (n k j : Nat) (v : Word) (p : Port) (hk : k + n ≤ 4) :
    (Port.readBytesFrom n k v p).1.getLsbD j =
      if 8 * k ≤ j ∧ j < 8 * (k + n) then p.drawAt (j - 8 * k) else v.getLsbD j := by
  induction n generalizing k v p with
  | zero => simp [Port.readBytesFrom]
  | succ n ih =>
    rw [Port.readBytesFrom, ih (k + 1) _ _ (by omega)]
    by_cases h1 : 8 * (k + 1) ≤ j ∧ j < 8 * (k + 1 + n)
    · have h2 : 8 * k ≤ j ∧ j < 8 * (k + (n + 1)) := by omega
      rw [if_pos h1, if_pos h2, Port.shiftInByte_drawAt]
      congr 1; omega
    · rw [if_neg h1, getLsbD_setByte _ _ _ _ (by omega)]
      by_cases h3 : 8 * k ≤ j ∧ j < 8 * k + 8
      · have h4 : 8 * k ≤ j ∧ j < 8 * (k + (n + 1)) := by omega
        rw [if_pos h3, if_pos h4, Port.shiftInByte_getLsbD _ _ (by omega)]
      · have h4 : ¬ (8 * k ≤ j ∧ j < 8 * (k + (n + 1))) := by omega
        rw [if_neg h3, if_neg h4]

theorem Port.readBytesFrom_extends (n k : Nat) (v : Word) (p : Port) :
    p.Extends (Port.readBytesFrom n k v p).2 := by
  induction n generalizing k v p with
  | zero => exact Port.Extends.refl p
  | succ n ih => exact (Port.shiftInByte_extends p).trans (ih _ _ _)

/-- Bit `i` of the word is the `(i+1)`-th data slot (R66). -/
theorem Port.readPhase_word (p : Port) (j : Nat) (hj : j < 32) : p.readPhase.1.getLsbD j = p.drawAt j := by
  simp only [Port.readPhase]
  rw [Port.readBytesFrom_getLsbD 4 0 j _ _ (by omega), if_pos (by omega)]
  rfl
theorem Port.readPhase_parity (p : Port) : p.readPhase.2.1 = p.drawAt 32 := by
  simp only [Port.readPhase, Port.readBit_fst]
  exact Port.drawAt_drop p _ 32 (by simp [Port.readBytesFrom_draws]) (by simp [Port.readBytesFrom_drawn]) 0
@[simp] theorem Port.readPhase_draws (p : Port) : p.readPhase.2.2.draws = p.draws.drop 33 := by
  simp [Port.readPhase, Port.readBytesFrom_draws]
@[simp] theorem Port.readPhase_drawn (p : Port) : p.readPhase.2.2.drawn = p.drawn + 33 := by
  simp [Port.readPhase, Port.readBytesFrom_drawn]
@[simp] theorem Port.readPhase_pins (p : Port) : p.readPhase.2.2.pins = ⟨true, false, false, p.pins.dioOut⟩ := by
  simp [Port.readPhase, Port.readBytesFrom_pins]
theorem Port.readPhase_slots (p : Port) : p.readPhase.2.2.slots = (sampledSlots (p.drawList 33)).reverse ++ p.slots := by
  have h : ∀ j, (Port.readBytesFrom 4 0 0x00000000#32 p).2.drawAt j = p.drawAt (32 + j) :=
    Port.drawAt_drop p _ 32 (by simp [Port.readBytesFrom_draws]) (by simp [Port.readBytesFrom_drawn])
  simp only [Port.readPhase]
  rw [Port.readBit_slots _ (by simp [Port.readBytesFrom_pins]), Port.readBytesFrom_slots,
    Port.drawList_add p _ 32 1 h]
  simp [sampledSlots, Port.drawList]

theorem Port.readPhase_slot_count (p : Port) : p.readPhase.2.2.slots.length = p.slots.length + 33 := by
  rw [Port.readPhase_slots]; simp [sampledSlots]; omega
theorem Port.readPhase_extends (p : Port) : p.Extends p.readPhase.2.2 :=
  (Port.readBytesFrom_extends _ _ _ p).trans (Port.readBit_extends _)

/-- Listed data bits make the listed word, and the listed parity bit the parity bit. -/
theorem Port.readPhase_listed (p : Port) (w : Word) (b : Bool) (rest : List Bool)
    (h : p.draws = bitsLsb w ++ b :: rest) : p.readPhase.1 = w ∧ p.readPhase.2.1 = b := by
  constructor
  · apply BitVec.eq_of_getLsbD_eq
    intro j hj
    rw [Port.readPhase_word p j hj, Port.drawAt_of_append p _ _ h j (by simpa using hj), getElem_bitsLsb]
  · rw [Port.readPhase_parity]
    rw [Port.drawAt_of_append p (bitsLsb w ++ [b]) rest (by simp [h]) 32 (by simp)]
    simp

theorem Port.writeBytesFrom_draws (w : Word) (n k : Nat) (p : Port) :
    (Port.writeBytesFrom w n k p).draws = p.draws := by
  induction n generalizing k p with
  | zero => rfl
  | succ n ih => simp [Port.writeBytesFrom, ih]
theorem Port.writeBytesFrom_drawn (w : Word) (n k : Nat) (p : Port) :
    (Port.writeBytesFrom w n k p).drawn = p.drawn := by
  induction n generalizing k p with
  | zero => rfl
  | succ n ih => simp [Port.writeBytesFrom, ih]
theorem Port.writeBytesFrom_extends (w : Word) (n k : Nat) (p : Port) :
    p.Extends (Port.writeBytesFrom w n k p) := by
  induction n generalizing k p with
  | zero => exact Port.Extends.refl p
  | succ n ih => exact (Port.shiftOutByte_extends _ p).trans (ih _ _)

@[simp] theorem length_writeSlots (turn : Bool) (w : Word) : (writeSlots turn w).length = 34 := by
  simp [writeSlots, drivenSlots]

@[simp] theorem Port.writePhase_draws (w : Word) (p : Port) : (p.writePhase w).draws = p.draws := by
  simp [Port.writePhase, Port.writeBytesFrom_draws]
@[simp] theorem Port.writePhase_drawn (w : Word) (p : Port) : (p.writePhase w).drawn = p.drawn := by
  simp [Port.writePhase, Port.writeBytesFrom_drawn]
@[simp] theorem Port.writePhase_pins (w : Word) (p : Port) :
    (p.writePhase w).pins = ⟨true, false, true, parity w⟩ := by
  simp [Port.writePhase, Port.writeBytesFrom]

theorem bitsLsb_word (w : Word) :
    bitsLsb w = bitsLsb (byteAt w 0) ++ bitsLsb (byteAt w 1) ++ bitsLsb (byteAt w 2) ++ bitsLsb (byteAt w 3) := by
  have h : ∀ k, k < 4 → bitsLsb (byteAt w k) = [w.getLsbD (8 * k), w.getLsbD (8 * k + 1), w.getLsbD (8 * k + 2),
      w.getLsbD (8 * k + 3), w.getLsbD (8 * k + 4), w.getLsbD (8 * k + 5), w.getLsbD (8 * k + 6),
      w.getLsbD (8 * k + 7)] := by
    intro k hk
    simp [bitsLsb, byteAt, List.range_succ]
  rw [h 0 (by omega), h 1 (by omega), h 2 (by omega), h 3 (by omega)]
  rfl

theorem Port.writePhase_slots (w : Word) (p : Port) :
    (p.writePhase w).slots = (writeSlots p.pins.dioOut w).reverse ++ p.slots := by
  rw [writeSlots, bitsLsb_word w]
  simp [Port.writePhase, Port.writeBytesFrom, Port.shiftOutByte_slots, slotOf, drivenSlots]

theorem Port.writePhase_extends (w : Word) (p : Port) : p.Extends (p.writePhase w) :=
  ((((Port.setPins_extends _ p).trans (Port.pulse_extends _)).trans (Port.writeBytesFrom_extends _ _ _ _)).trans
    (Port.setPins_extends _ _)).trans (Port.pulse_extends _)

/-! ### The whole packet -/

/-- What a data phase leaves alone. -/
theorem dataPhase_same (req : Byte) (c : PacketResult) (s : State) :
    (dataPhase req c s).2 = { s with port := (dataPhase req c s).2.port, data := (dataPhase req c s).2.data } := by
  by_cases hc : c = resultOk
  · cases hr : headerIsRead req <;> simp [dataPhase, hc, hr]
  · simp [dataPhase, hc]

theorem dataPhase_extends (req : Byte) (c : PacketResult) (s : State) :
    s.port.Extends (dataPhase req c s).2.port := by
  by_cases hc : c = resultOk
  · cases hr : headerIsRead req
    · simpa [dataPhase, hc, hr] using Port.writePhase_extends _ _
    · simpa [dataPhase, hc, hr] using Port.readPhase_extends _
  · simpa [dataPhase, hc] using Port.Extends.refl _

/-- Everything a packet can do, whatever the target answers: its result is `ACK` and, when not OK, `ACCUM`; it leaves the lines idle; it touches nothing but the port, `DATA`, `ACK` and `ACCUM` (R148, R149, R150). -/
theorem shiftPacket_same (req retry : Byte) (s : State) :
    (shiftPacket req retry s).2 =
      { s with
        port := (shiftPacket req retry s).2.port
        data := (shiftPacket req retry s).2.data
        ack := (shiftPacket req retry s).1
        accum := accumulate s.accum (shiftPacket req retry s).1 } := by
  unfold shiftPacket
  simp only [State.endPacket, State.recordResult]
  rw [dataPhase_same]

@[simp] theorem shiftPacket_ack (req retry : Byte) (s : State) :
    (shiftPacket req retry s).2.ack = (shiftPacket req retry s).1 := rfl
@[simp] theorem shiftPacket_accum (req retry : Byte) (s : State) :
    (shiftPacket req retry s).2.accum = accumulate s.accum (shiftPacket req retry s).1 := by
  rw [shiftPacket_same]
@[simp] theorem shiftPacket_result (req retry : Byte) (s : State) :
    (shiftPacket req retry s).2.result = s.result := by rw [shiftPacket_same]
@[simp] theorem shiftPacket_status (req retry : Byte) (s : State) :
    (shiftPacket req retry s).2.status = s.status := by rw [shiftPacket_same]
@[simp] theorem shiftPacket_link (req retry : Byte) (s : State) :
    (shiftPacket req retry s).2.link = s.link := by rw [shiftPacket_same]
@[simp] theorem shiftPacket_busy (req retry : Byte) (s : State) :
    (shiftPacket req retry s).2.busy = s.busy := by rw [shiftPacket_same]
@[simp] theorem shiftPacket_words (req retry : Byte) (s : State) :
    (shiftPacket req retry s).2.words = s.words := by rw [shiftPacket_same]
@[simp] theorem shiftPacket_pos (req retry : Byte) (s : State) :
    (shiftPacket req retry s).2.pos = s.pos := by rw [shiftPacket_same]
@[simp] theorem shiftPacket_rstN (req retry : Byte) (s : State) :
    (shiftPacket req retry s).2.rstN = s.rstN := by rw [shiftPacket_same]
@[simp] theorem shiftPacket_inputs (req retry : Byte) (s : State) :
    (shiftPacket req retry s).2.inputs = s.inputs := by rw [shiftPacket_same]
@[simp] theorem shiftPacket_replies (req retry : Byte) (s : State) :
    (shiftPacket req retry s).2.replies = s.replies := by rw [shiftPacket_same]
@[simp] theorem shiftPacket_loose (req retry : Byte) (s : State) :
    (shiftPacket req retry s).2.loose = s.loose := by rw [shiftPacket_same]
@[simp] theorem shiftPacket_level (req retry : Byte) (s : State) :
    (shiftPacket req retry s).2.level = s.level := by rw [shiftPacket_same]
@[simp] theorem shiftPacket_pins (req retry : Byte) (s : State) :
    (shiftPacket req retry s).2.port.pins = Pins.afterPacket := by
  simp [shiftPacket, State.endPacket, State.recordResult]

theorem shiftPacket_extends (req retry : Byte) (s : State) : s.port.Extends (shiftPacket req retry s).2.port :=
  ((Port.attempts_extends req _ 1 s.port).trans (dataPhase_extends req _ { s with port := _ })).trans
    (Port.idlePulse_extends _)

/-- A packet result is an acknowledge pattern or PARITY_ERROR (R93). -/
theorem shiftPacket_result_legal (req retry : Byte) (s : State) : (shiftPacket req retry s).1.toNat ≤ 8 := by
  have h : ∀ a : AckBits, (a.setWidth 4 : PacketResult).toNat ≤ 8 := by decide
  simp only [shiftPacket, dataPhase]
  split
  · split
    · simp only [readResult]; split <;> decide
    · exact h _
  · exact h _

theorem attemptLimit_pos (retry : Byte) : 1 ≤ attemptLimit retry := by
  unfold attemptLimit; split
  · decide
  · rename_i h
    rcases Nat.eq_zero_or_pos retry.toNat with h0 | h0
    · exact absurd (BitVec.eq_of_toNat_eq (by simpa using h0)) h
    · exact h0

/-- The framer's read of an answer: the pattern itself, or PARITY_ERROR in place of OK (R93). -/
theorem readResult_answer (a : Answer) (h : a.ack = 0b001#3) : a.readResult = readResult a.word a.parityBit := by
  by_cases hp : a.parityBit = parity a.word <;> simp [Answer.readResult, readResult, h, hp, resultOk, resultParityError]

theorem ack_not_ok {a : AckBits} (h : a ≠ 0b001#3) : (a.setWidth 4 : PacketResult) ≠ resultOk := by
  revert h; revert a; decide

/-- A read packet does what the target's answer says, whatever that is (R143, R145, R146, R149). -/
theorem shiftPacket_readAnswer (req retry : Byte) (s : State) (a : Answer) (rest : List Bool)
    (hr : headerIsRead req = true) (he : a.Ends (attemptLimit retry)) (h : s.port.draws = a.readDraws ++ rest) :
    (shiftPacket req retry s).1 = a.readResult ∧ (shiftPacket req retry s).2.data = a.dataAfter s.data ∧
      (shiftPacket req retry s).2.port.draws = rest ∧
      (shiftPacket req retry s).2.port.slots = (a.readSlots req).reverse ++ s.port.slots := by
  obtain ⟨h1, h2, h3⟩ := Port.attempts_listed req (attemptLimit retry - 1) a.waits 1 a.ack
    ((if a.ack = 0b001#3 then bitsLsb a.word ++ [a.parityBit] else []) ++ rest) s.port (by have := he.1; omega)
    (he.2.imp id (by omega)) (by rw [h]; simp [Answer.readDraws, Answer.writeDraws, List.append_assoc])
  simp only [shiftPacket, dataPhase, h1, State.endPacket, State.recordResult]
  by_cases ha : a.ack = 0b001#3
  · have h4 : (a.ack.setWidth 4 : PacketResult) = resultOk := by rw [ha]; rfl
    rw [if_pos ha] at h2
    obtain ⟨g1, g2⟩ := Port.readPhase_listed _ a.word a.parityBit rest (by rw [h2]; simp)
    have g3 := Port.drawList_of_append _ (bitsLsb a.word ++ [a.parityBit]) rest h2
    simp only [h4, if_true, hr]
    refine ⟨by rw [g1, g2, readResult_answer a ha], by rw [g1, Answer.dataAfter, if_pos ha], ?_, ?_⟩
    · simp only [Port.idlePulse_draws, Port.readPhase_draws, h2]
      rw [List.drop_append_of_le_length (by simp)]
      simp [List.drop_of_length_le]
    · simp only [Port.idlePulse_slots, Port.readPhase_slots _, h3]
      rw [show (33 : Nat) = (bitsLsb a.word ++ [a.parityBit]).length by simp, g3]
      simp [Answer.readSlots, Answer.slots, ha]
  · rw [if_neg ha] at h2
    simp only [if_neg (ack_not_ok ha)]
    exact ⟨by simp [Answer.readResult, ha], by simp [Answer.dataAfter, ha], by simpa using h2,
      by simp [h3, Answer.readSlots, Answer.slots, ha]⟩

/-- A write packet does what the target's answer says, and leaves `DATA` (R143, R145, R147, R149). -/
theorem shiftPacket_writeAnswer (req retry : Byte) (s : State) (a : Answer) (rest : List Bool)
    (hw : headerIsRead req = false) (he : a.Ends (attemptLimit retry)) (h : s.port.draws = a.writeDraws ++ rest) :
    (shiftPacket req retry s).1 = a.writeResult ∧ (shiftPacket req retry s).2.data = s.data ∧
      (shiftPacket req retry s).2.port.draws = rest ∧
      (shiftPacket req retry s).2.port.slots = (a.sentSlots req s.data).reverse ++ s.port.slots := by
  obtain ⟨h1, h2, h3⟩ := Port.attempts_listed req (attemptLimit retry - 1) a.waits 1 a.ack rest s.port
    (by have := he.1; omega) (he.2.imp id (by omega)) h
  have hp := Port.attempts_pins req (attemptLimit retry - 1) 1 s.port
  simp only [shiftPacket, dataPhase, h1, State.endPacket, State.recordResult]
  by_cases ha : a.ack = 0b001#3
  · have h4 : (a.ack.setWidth 4 : PacketResult) = resultOk := by rw [ha]; rfl
    simp only [h4, if_true, hw]
    exact ⟨h4.symm, by simp, by simp [h2],
      by simp [Port.writePhase_slots, h3, hp, Answer.sentSlots, Answer.slots, ha]⟩
  · simp only [if_neg (ack_not_ok ha)]
    exact ⟨rfl, trivial, by simpa using h2, by simp [h3, Answer.sentSlots, Answer.slots, ha]⟩

/-- A packet whose last attempt is the `k`-th and is answered `ack`, not OK: no data phase (R145, R153). -/
theorem shiftPacket_no_data (req retry : Byte) (s : State) (k : Nat) (ack : AckBits) (rest : List Bool)
    (hk : k + 1 ≤ attemptLimit retry) (hend : ack ≠ ackWait ∨ k + 1 = attemptLimit retry)
    (hok : ack ≠ 0b001#3) (h : s.port.draws = waitDraws k ++ bitsLsb ack ++ rest) :
    (shiftPacket req retry s).1 = ack.setWidth 4 ∧ (shiftPacket req retry s).2.data = s.data ∧
      (shiftPacket req retry s).2.port.draws = rest ∧
      (shiftPacket req retry s).2.port.slots.length = s.port.slots.length + (13 * (k + 1) + 1) := by
  cases hr : headerIsRead req with
  | true =>
    obtain ⟨h1, h2, h3, h4⟩ := shiftPacket_readAnswer req retry s ⟨k, ack, 0, false⟩ rest hr ⟨hk, hend⟩
      (by simpa [Answer.readDraws, Answer.writeDraws, hok] using h)
    refine ⟨by simpa [Answer.readResult, hok] using h1, by simpa [Answer.dataAfter, hok] using h2, h3, ?_⟩
    rw [h4]; simp [Answer.readSlots, Answer.slots, hok]; omega
  | false =>
    obtain ⟨h1, h2, h3, h4⟩ := shiftPacket_writeAnswer req retry s ⟨k, ack, 0, false⟩ rest hr ⟨hk, hend⟩ h
    refine ⟨h1, h2, h3, ?_⟩
    rw [h4]; simp [Answer.sentSlots, Answer.slots, hok]; omega

/-- A packet whose last attempt is the `k`-th and is answered OK, with a write header (R147, R153). -/
theorem shiftPacket_write (req retry : Byte) (s : State) (k : Nat) (rest : List Bool)
    (hk : k + 1 ≤ attemptLimit retry) (hw : headerIsRead req = false)
    (h : s.port.draws = waitDraws k ++ bitsLsb (0b001#3) ++ rest) :
    (shiftPacket req retry s).1 = resultOk ∧ (shiftPacket req retry s).2.data = s.data ∧
      (shiftPacket req retry s).2.port.draws = rest ∧
      (shiftPacket req retry s).2.port.slots.length = s.port.slots.length + (13 * (k + 1) + 35) := by
  obtain ⟨h1, h2, h3, h4⟩ := shiftPacket_writeAnswer req retry s ⟨k, 0b001#3, 0, false⟩ rest hw
    ⟨hk, Or.inl (show (0b001#3 : AckBits) ≠ 0b010#3 by decide)⟩ h
  exact ⟨h1, h2, h3, by rw [h4]; simp [Answer.sentSlots, Answer.slots]; omega⟩

/-- A packet whose last attempt is the `k`-th and is answered OK, with a read header: the word and parity bit that follow (R146, R153). -/
theorem shiftPacket_read (req retry : Byte) (s : State) (k : Nat) (w : Word) (b : Bool) (rest : List Bool)
    (hk : k + 1 ≤ attemptLimit retry) (hr : headerIsRead req = true)
    (h : s.port.draws = waitDraws k ++ bitsLsb (0b001#3) ++ (bitsLsb w ++ b :: rest)) :
    (shiftPacket req retry s).1 = readResult w b ∧ (shiftPacket req retry s).2.data = w ∧
      (shiftPacket req retry s).2.port.draws = rest ∧
      (shiftPacket req retry s).2.port.slots.length = s.port.slots.length + (13 * (k + 1) + 34) := by
  obtain ⟨h1, h2, h3, h4⟩ := shiftPacket_readAnswer req retry s ⟨k, 0b001#3, w, b⟩ rest hr
    ⟨hk, Or.inl (show (0b001#3 : AckBits) ≠ 0b010#3 by decide)⟩ (by rw [h]; simp [Answer.readDraws, Answer.writeDraws])
  exact ⟨h1.trans (readResult_answer _ rfl), h2, h3,
    by rw [h4]; simp [Answer.readSlots, Answer.slots, sampledSlots]; omega⟩

end Sys2Proof.Machine
end

