-- ==== Sys2Proof/Laws/Moves.lean ====
section
/-! SUPPORT. What any run of packets and `WORDS` stores can do to the state, said once: the moves and the sequencer are such runs (R141, R173, R174, R202, R208). -/

namespace Sys2Proof.Machine

/-! ### Packets -/

/-- A packet's result, port and `DATA` depend on the port and `DATA` alone (R140). -/
theorem shiftPacket_congr (req retry : Byte) (s t : State) (hp : t.port = s.port) (hd : t.data = s.data) :
    (shiftPacket req retry t).1 = (shiftPacket req retry s).1 ∧
      (shiftPacket req retry t).2.port = (shiftPacket req retry s).2.port ∧
      (shiftPacket req retry t).2.data = (shiftPacket req retry s).2.data := by
  simp only [shiftPacket, dataPhase, State.endPacket, State.recordResult, hp, hd]
  split
  · split <;> exact ⟨rfl, rfl, rfl⟩
  · exact ⟨rfl, rfl, rfl⟩

/-- After the packet result is known, `DATA` is untouched unless a read was acknowledged OK (R145, R146, R147). -/
theorem shiftPacket_data (req retry : Byte) (s : State) :
    (shiftPacket req retry s).2.data = s.data ∨
      headerIsRead req = true ∧
        ((shiftPacket req retry s).1 = resultOk ∨ (shiftPacket req retry s).1 = resultParityError) := by
  simp only [shiftPacket, dataPhase, State.endPacket, State.recordResult]
  split
  · split
    · rename_i hr
      refine Or.inr ⟨hr, ?_⟩
      simp only [readResult]
      split
      · exact Or.inl rfl
      · exact Or.inr rfl
    · exact Or.inl rfl
  · exact Or.inl rfl

theorem Port.attempts_slot_bound (req : Byte) (more a : Nat) (p : Port) :
    (Port.attempts req more a p).2.slots.length ≤ p.slots.length + 13 * (more + 1) := by
  induction more generalizing a p with
  | zero => simp [Port.attempts, Port.attempt_slot_count]
  | succ n ih =>
    unfold Port.attempts; dsimp only
    split
    · refine le_trans (ih _ _) ?_
      rw [Port.delay_slots, Port.attempt_slot_count]; omega
    · rw [Port.attempt_slot_count]; omega

theorem attemptLimit_le (retry : Byte) : attemptLimit retry ≤ 255 := by
  unfold attemptLimit; split
  · exact le_refl _
  · have := retry.isLt; omega

/-- No packet is longer than 255 attempts and a write data phase (R152, R153). -/
theorem shiftPacket_slot_bound (req retry : Byte) (s : State) :
    (shiftPacket req retry s).2.port.slots.length ≤ s.port.slots.length + (13 * 255 + 1 + 34) := by
  have ha := Port.attempts_slot_bound req (attemptLimit retry - 1) 1 s.port
  have hl := attemptLimit_le retry
  have hp := attemptLimit_pos retry
  simp only [shiftPacket, dataPhase, State.endPacket, State.recordResult]
  split
  · split
    · simp [Port.readPhase_slot_count]; omega
    · simp [Port.writePhase_slots]; omega
  · simp; omega

/-! ### Runs of packets and stores -/

/-- What packets, writes of `DATA` and stores to the entries `stored` can do: they touch the port, `DATA`, `ACK`, `ACCUM` and those entries, keep codes legal and `WORDS` canonical, and set no `ACCUM` back to OK (R32, R150). -/
structure PacketRun (stored : Nat → Prop) (s t : State) : Prop where
  port : s.port.Extends t.port
  same : t = { s with port := t.port, data := t.data, ack := t.ack, accum := t.accum, words := t.words }
  words : ∀ i, ¬ stored i → Memory.read t.words i = Memory.read s.words i
  wf : (∀ i, stored i → i < wordsDepth) → Memory.wf s.words = true → Memory.wf t.words = true
  ack : s.ack.toNat ≤ 8 → t.ack.toNat ≤ 8
  accum : s.accum.toNat ≤ 8 → t.accum.toNat ≤ 8
  accumOk : t.accum = s.accum ∨ t.accum ≠ resultOk

namespace PacketRun

variable {P Q : Nat → Prop} {s t u : State}

theorem refl (P : Nat → Prop) (s : State) : PacketRun P s s :=
  ⟨Port.Extends.refl _, rfl, fun _ _ => rfl, fun _ h => h, id, id, Or.inl rfl⟩

theorem trans (h : PacketRun P s t) (g : PacketRun P t u) : PacketRun P s u where
  port := h.port.trans g.port
  same := by rw [g.same, h.same]
  words i hi := (g.words i hi).trans (h.words i hi)
  wf hb hs := g.wf hb (h.wf hb hs)
  ack hs := g.ack (h.ack hs)
  accum hs := g.accum (h.accum hs)
  accumOk := by
    rcases g.accumOk with e | e
    · rw [e]; exact h.accumOk
    · exact Or.inr e

theorem mono (h : PacketRun P s t) (hPQ : ∀ i, P i → Q i) : PacketRun Q s t :=
  { h with words := fun i hi => h.words i (fun hp => hi (hPQ i hp)), wf := fun hb => h.wf (fun i hp => hb i (hPQ i hp)) }

theorem result (h : PacketRun P s t) : t.result = s.result := by rw [h.same]
theorem status (h : PacketRun P s t) : t.status = s.status := by rw [h.same]
theorem link (h : PacketRun P s t) : t.link = s.link := by rw [h.same]
theorem busy (h : PacketRun P s t) : t.busy = s.busy := by rw [h.same]
theorem pos (h : PacketRun P s t) : t.pos = s.pos := by rw [h.same]
theorem surroundings (h : PacketRun P s t) : SameSurroundings s t := by rw [h.same]; exact ⟨rfl, rfl, rfl, rfl, rfl⟩
theorem wire (h : PacketRun P s t) : WireGrows s t := ⟨h.port.trace, h.port.slots⟩

end PacketRun

/-- A packet is such a run, with no store. -/
theorem shiftPacket_run (P : Nat → Prop) (req retry : Byte) (s : State) : PacketRun P s (shiftPacket req retry s).2 where
  port := shiftPacket_extends req retry s
  same := by conv_lhs => rw [shiftPacket_same]
             simp
  words i _ := by simp
  wf _ h := by simpa using h
  ack _ := by simpa using shiftPacket_result_legal req retry s
  accum h := by
    rw [shiftPacket_accum]; unfold accumulate; split
    · exact h
    · exact shiftPacket_result_legal req retry s
  accumOk := by
    rw [shiftPacket_accum]; unfold accumulate; split
    · exact Or.inl rfl
    · exact Or.inr (by assumption)

theorem movePacket_run (P : Nat → Prop) (h : Byte) (s : State) : PacketRun P s (movePacket h s) :=
  shiftPacket_run P h _ s

/-- A write of `DATA` is such a run. -/
theorem setData_run (P : Nat → Prop) (w : Word) (s : State) : PacketRun P s { s with data := w } :=
  ⟨Port.Extends.refl _, rfl, fun _ _ => rfl, fun _ h => h, id, id, Or.inl rfl⟩

/-- Port activity alone is such a run. -/
theorem port_run (P : Nat → Prop) (s : State) (p : Port) (h : s.port.Extends p) : PacketRun P s { s with port := p } :=
  ⟨h, rfl, fun _ _ => rfl, fun _ h => h, id, id, Or.inl rfl⟩

/-- A store to an entry of `stored` is such a run. -/
theorem writeWord_run (P : Nat → Prop) (i : Nat) (w : Word) (s : State) (hi : P i) : PacketRun P s (s.writeWord i w) where
  port := Port.Extends.refl _
  same := rfl
  words _ hj := Memory.read_write_other _ _ (fun e => hj (e ▸ hi))
  wf hb h := Memory.wf_write _ _ _ (hb i hi) h
  ack := id
  accum := id
  accumOk := Or.inl rfl

/-- The read loop stores to `i..i+n-1` (R173). -/
theorem readWords_run (P : Nat → Prop) (h : Byte) (n i : Nat) (s : State) (hP : ∀ j, i ≤ j → j < i + n → P j) :
    PacketRun P s (readWords h n i s) := by
  induction n generalizing i s with
  | zero => exact PacketRun.refl P s
  | succ n ih =>
    exact ((movePacket_run P h s).trans (writeWord_run P i _ _ (hP i (le_refl _) (by omega)))).trans
      (ih (i + 1) _ (fun j h1 h2 => hP j (by omega) (by omega)))

/-- The write loop stores to no entry (R174). -/
theorem writeWords_run (P : Nat → Prop) (h : Byte) (ws : List Word) (s : State) : PacketRun P s (writeWords h ws s) := by
  induction ws generalizing s with
  | nil => exact PacketRun.refl P s
  | cons w ws ih => exact ((setData_run P w s).trans (movePacket_run P h _)).trans (ih _)

theorem moveReadPath_run (count : Byte) (dap : DapAddr) (s : State) :
    PacketRun (fun i => i ≤ count.toNat) s (moveReadPath count dap s) := by
  unfold moveReadPath
  split
  · refine (((movePacket_run _ _ s).trans (readWords_run _ _ _ 0 _ ?_)).trans (movePacket_run _ _ _)).trans
      (writeWord_run _ _ _ _ ?_)
    · intro j _ h; simp only [moveLength] at h; omega
    · simp [moveLength]
  · refine readWords_run _ _ _ 0 s ?_
    intro j _ h; simp only [moveLength] at h; omega

theorem moveWrite_run (P : Nat → Prop) (dap : DapAddr) (final : Bool) (ws : List Word) (s : State) :
    PacketRun P s (moveWrite dap final ws s) := by
  unfold moveWrite; dsimp only; split
  · exact (writeWords_run P _ ws s).trans (movePacket_run P _ _)
  · exact writeWords_run P _ ws s

theorem clearErrorsRead_run (P : Nat → Prop) (i : Nat) (s : State) (hi : P i) : PacketRun P s (clearErrorsRead i s) :=
  (shiftPacket_run P _ _ s).trans (writeWord_run P i _ _ hi)

/-- A line reset is such a run up to its write of `LINK` (R202). -/
theorem lineResetSeq_run (P : Nat → Prop) (s : State) :
    ∃ t, PacketRun P s t ∧ lineResetSeq s = { t with link := linkAfter t.ack } ∧
      (t.accum = if t.ack = resultOk then s.accum else t.ack) ∧
      t.port.pins = ⟨true, false, true, false⟩ ∧
      (t.data = s.data ∨ t.ack = resultOk ∨ t.ack = resultParityError) := by
  generalize hs : ({ s with port := s.port.shiftResetSeq.shiftOutByte 0x00#8 } : State) = s1
  have hrun : PacketRun P s s1 := hs ▸
    port_run P s _ ((Port.shiftResetSeq_extends _).trans (Port.shiftOutByte_extends _ _))
  have hdata : s1.data = s.data := by rw [← hs]
  have haccum : s1.accum = s.accum := by rw [← hs]
  have hr := shiftPacket_run P (reqHeader dpIdcodeRd) 0x00#8 s1
  have hacc := shiftPacket_accum (reqHeader dpIdcodeRd) 0x00#8 s1
  have hack := shiftPacket_ack (reqHeader dpIdcodeRd) 0x00#8 s1
  have hdat := shiftPacket_data (reqHeader dpIdcodeRd) 0x00#8 s1
  have heq : lineResetSeq s = { (sequencerPacket dpIdcodeRd s1).2 with
      port := (sequencerPacket dpIdcodeRd s1).2.port.shiftOutByte 0x00#8
      link := linkAfter (sequencerPacket dpIdcodeRd s1).1 } := by rw [lineResetSeq, hs]
  rw [heq]
  unfold sequencerPacket
  generalize shiftPacket (reqHeader dpIdcodeRd) 0x00#8 s1 = r at *
  refine ⟨{ r.2 with port := r.2.port.shiftOutByte 0x00#8 }, ?_, ?_, ?_, ?_, ?_⟩
  · exact (hrun.trans hr).trans (port_run P _ _ (Port.shiftOutByte_extends _ _))
  · simp only [hack]
  · simp only [hacc, hack, haccum, accumulate]
  · simp
  · simp only [hack]; rw [← hdata]; exact hdat.imp id And.right

/-! ### Slot bounds of runs -/

theorem movePacket_slot_bound (h : Byte) (s : State) :
    (movePacket h s).port.slots.length ≤ s.port.slots.length + (13 * 255 + 1 + 34) := shiftPacket_slot_bound h _ s

theorem readWords_slot_bound (h : Byte) (n i : Nat) (s : State) :
    (readWords h n i s).port.slots.length ≤ s.port.slots.length + n * (13 * 255 + 1 + 34) := by
  induction n generalizing i s with
  | zero => simp [readWords]
  | succ n ih =>
    rw [readWords]
    refine le_trans (ih _ _) ?_
    have := movePacket_slot_bound h s
    simp only [State.writeWord]; omega

theorem writeWords_slot_bound (h : Byte) (ws : List Word) (s : State) :
    (writeWords h ws s).port.slots.length ≤ s.port.slots.length + ws.length * (13 * 255 + 1 + 34) := by
  induction ws generalizing s with
  | nil => simp [writeWords]
  | cons w ws ih =>
    rw [writeWords]
    refine le_trans (ih _) ?_
    have := movePacket_slot_bound h { s with data := w }
    simp only [List.length_cons] at *; omega

/-! ### What moves do not read (R185) -/

/-- The pieces a run of packets and stores may write, taken from `s`; everything else as in `u`. -/
def State.withRun (u s : State) : State :=
  { u with port := s.port, data := s.data, words := s.words, ack := s.ack, accum := s.accum }

/-- A packet reads and writes nothing outside those pieces (R140, R150). -/
theorem shiftPacket_withRun (req retry : Byte) (u s : State) :
    (shiftPacket req retry (u.withRun s)).2 = u.withRun (shiftPacket req retry s).2 := by
  obtain ⟨h1, h2, h3⟩ := shiftPacket_congr req retry s (u.withRun s) rfl rfl
  rw [shiftPacket_same, shiftPacket_same req retry s, h1, h2, h3]
  rfl

theorem movePacket_withRun (h : Byte) (u s : State) : movePacket h (u.withRun s) = u.withRun (movePacket h s) :=
  shiftPacket_withRun h _ u s

theorem readWords_withRun (h : Byte) (n i : Nat) (u s : State) :
    readWords h n i (u.withRun s) = u.withRun (readWords h n i s) := by
  induction n generalizing i s with
  | zero => rfl
  | succ n ih =>
    rw [readWords, movePacket_withRun, readWords]
    generalize movePacket h s = t
    exact ih (i + 1) (t.writeWord i t.data)

theorem writeWords_withRun (h : Byte) (ws : List Word) (u s : State) :
    writeWords h ws (u.withRun s) = u.withRun (writeWords h ws s) := by
  induction ws generalizing s with
  | nil => rfl
  | cons w ws ih =>
    rw [writeWords, writeWords, ← ih, ← movePacket_withRun]; rfl

theorem moveReadPath_withRun (count : Byte) (dap : DapAddr) (u s : State) :
    moveReadPath count dap (u.withRun s) = u.withRun (moveReadPath count dap s) := by
  unfold moveReadPath
  split
  · simp only [moveApRead, movePacket_withRun, readWords_withRun]
    generalize movePacket (reqHeader dpRdbuffRd) _ = t
    rfl
  · exact readWords_withRun _ _ _ u s

theorem moveWrite_withRun (dap : DapAddr) (final : Bool) (ws : List Word) (u s : State) :
    moveWrite dap final ws (u.withRun s) = u.withRun (moveWrite dap final ws s) := by
  simp only [moveWrite, writeWords_withRun, movePacket_withRun]
  split <;> rfl

/-- A packet overwrites `ACK` and does not read it (R149). -/
theorem movePacket_anyAck (h : Byte) (s : State) (a : PacketResult) : movePacket h { s with ack := a } = movePacket h s := by
  obtain ⟨h1, h2, h3⟩ := shiftPacket_congr h 0x00#8 s { s with ack := a } rfl rfl
  unfold movePacket
  rw [shiftPacket_same, shiftPacket_same h 0x00#8 s, h1, h2, h3]

theorem moveReadPath_anyAck (count : Byte) (dap : DapAddr) (s : State) (a : PacketResult) :
    moveReadPath count dap { s with ack := a } = moveReadPath count dap s := by
  unfold moveReadPath
  split
  · simp only [moveApRead, movePacket_anyAck]
  · simp only [moveDpRead, moveLength, readWords, movePacket_anyAck]

theorem moveWrite_anyAck (dap : DapAddr) (final : Bool) (w : Word) (ws : List Word) (s : State) (a : PacketResult) :
    moveWrite dap final (w :: ws) { s with ack := a } = moveWrite dap final (w :: ws) s := by
  have h := movePacket_anyAck (reqHeader dap) { s with data := w } a
  simp only [moveWrite, writeWords, h]

end Sys2Proof.Machine
end

