-- ==== Sys2Proof/Laws/Exec.lean ====
section
/-! SUPPORT. One equation per instruction, so that no proof unfolds `exec`: where the instruction completes, and its next state. -/

namespace Sys2Proof.Machine

/-! ### Packets and line resets do not see `BUSY` -/

theorem shiftPacket_accept (req retry : Byte) (s : State) :
    (shiftPacket req retry s.accept).2.finish = { (shiftPacket req retry s).2 with busy := false } := by
  obtain ⟨h1, h2, h3⟩ := shiftPacket_congr req retry s s.accept rfl rfl
  rw [shiftPacket_same, shiftPacket_same req retry s, h1, h2, h3]
  rfl

/-! ### The transceiver -/

theorem exec_setClock (l : Bool) (s : State) : exec (.setClock l) s = .next 
    { s with port := (s.port.setClkOe true).setClk l, busy := false } := by
  simp only [exec, execSetClock, runPort, runCommand, State.accept, State.finish]
theorem exec_setData (l : Bool) (s : State) : exec (.setData l) s = .next 
    { s with port := s.port.setDioOut l, busy := false } := by
  simp only [exec, execSetData, runPort, runCommand, State.accept, State.finish]
theorem exec_readData (s : State) : exec .readData s = .next 
    { s with port := s.port.sample.2, result := (BitVec.ofBool s.port.sample.1).setWidth 8, busy := false } := by
  simp only [exec, execReadData, runCommand, State.accept, State.finish]
theorem exec_setDir (d : Bool) (s : State) : exec (.setDir d) s = .next 
    { s with port := s.port.setDioOe d, busy := false } := by
  simp only [exec, execSetDir, runPort, runCommand, State.accept, State.finish]
theorem exec_shiftOut (b : Byte) (s : State) : exec (.shiftOut b) s = .next 
    { s with port := s.port.shiftOutByte b, busy := false } := by
  simp only [exec, execShiftOut, runPort, runCommand, State.accept, State.finish]
theorem exec_shiftIn (s : State) : exec .shiftIn s = .next 
    { s with port := s.port.shiftInByte.2, result := s.port.shiftInByte.1, busy := false } := by
  simp only [exec, execShiftIn, runCommand, State.accept, State.finish]
theorem exec_shiftReset (s : State) : exec .shiftReset s = .next 
    { s with port := s.port.shiftResetSeq, busy := false } := by
  simp only [exec, execShiftReset, runPort, runCommand, State.accept, State.finish]

/-! ### Packets -/

theorem exec_shiftPacket (q r : Byte) (s : State) :
    exec (.shiftPacket q r) s = .next { (shiftPacket q r s).2 with busy := false } :=
  congrArg Host.Outcome.next (shiftPacket_accept q r s)

/-- A request-header row is the packet with its header (R90; log entry 8). -/
theorem exec_request (i : Instr) (dap : DapAddr) (s : State) (h : requestDap i = some dap) :
    exec i s = exec (.shiftPacket (reqHeader dap) 0x00#8) s := by
  cases i <;> simp only [requestDap, Option.some.injEq, reduceCtorEq] at h <;> subst h <;> rfl

/-! ### Moves -/

/-- A read move completes in every state (R173). -/
theorem exec_dapMove_read (c : Byte) (d : DapAddr) (f : Bool) (s : State) (h : isRead d = true) :
    exec (.dapMove c d f) s = .next (endMove (moveReadPath c d (startMove s.accept))).finish := by
  simp [exec, execDapMove, h, runCommand]

/-- A write move whose entries are all written completes (R174). -/
theorem exec_dapMove_write (c : Byte) (d : DapAddr) (f : Bool) (s : State) (ws : List Word) (h : isRead d = false)
    (hw : Memory.gather s.words (moveLength c) 0 = .ok ws) :
    exec (.dapMove c d f) s = .next (endMove (moveWrite d f ws (startMove s.accept))).finish := by
  simp [exec, execDapMove, h, hw, runCommand]

/-- A write move that would read an unwritten entry faults (R174, U7). -/
theorem exec_dapMove_fault (c : Byte) (d : DapAddr) (f : Bool) (s : State) (i : Nat) (h : isRead d = false)
    (hw : Memory.gather s.words (moveLength c) 0 = .error i) :
    exec (.dapMove c d f) s = .fault (.unwrittenWord i) := by
  simp [exec, execDapMove, h, hw]

/-- Whenever a move answers a next state: a run of packets from the start of the move to some `u`, then its end (R171, R177, R178). -/
theorem exec_dapMove_next (c : Byte) (d : DapAddr) (f : Bool) (s t : State) (h : exec (.dapMove c d f) s = .next t) :
    ∃ u, PacketRun (fun i => isRead d = true ∧ i ≤ c.toNat) (startMove s.accept) u ∧ t = (endMove u).finish := by
  cases hr : isRead d with
  | true =>
    rw [exec_dapMove_read c d f s hr] at h
    exact ⟨_, (moveReadPath_run c d _).mono (fun i hi => ⟨rfl, hi⟩), by injection h with h; exact h.symm⟩
  | false =>
    cases hg : Memory.gather s.words (moveLength c) 0 with
    | ok ws =>
      rw [exec_dapMove_write c d f s ws hr hg] at h
      exact ⟨_, moveWrite_run _ d f ws _, by injection h with h; exact h.symm⟩
    | error i => rw [exec_dapMove_fault c d f s i hr hg] at h; cases h

/-! ### The sequencer -/

theorem exec_connect (s : State) :
    exec .connect s = .next
      (lineResetSeq { s.accept with port := s.port.idleLines.jtagToSwd, link := linkLineResetPending }).finish := by
  simp only [exec, execConnect, runCommand, State.accept]
theorem exec_lineReset (s : State) : exec .lineReset s = .next (lineResetSeq s.accept).finish := by
  simp only [exec, execLineReset, runCommand]
theorem exec_disconnect (s : State) :
    exec .disconnect s = .next
      { s with port := (s.port.swdToJtag.setClkOe false).setDioOe false, link := linkDisconnected, busy := false } := by
  simp only [exec, execDisconnect, runCommand, State.accept, State.finish]
theorem exec_clearErrors (s : State) :
    exec .clearErrors s = .next
      (clearErrorsRead 1
        (sequencerPacket dpAbortWr { clearErrorsRead 0 s.accept with data := abortMask }).2).finish := by
  simp only [exec, execClearErrors, runCommand]

/-! ### Everything an instruction can do -/

/-- The entries of `WORDS` an instruction stores to (R36). -/
def storedBy : Instr → Nat → Prop
  | .dapMove c d _, i => isRead d = true ∧ i ≤ c.toNat
  | .clearErrors, i => i = 0 ∨ i = 1
  | .setClock _, _ | .setData _, _ | .readData, _ | .setDir _, _ | .shiftOut _, _ | .shiftIn, _ | .shiftReset, _
  | .shiftPacket _ _, _ | .connect, _ | .lineReset, _ | .disconnect, _ | .reqDpAbortWr, _ | .reqAp0Wr, _
  | .reqDpIdcodeRd, _ | .reqAp0Rd, _ | .reqDpCtrlstatWr, _ | .reqAp4Wr, _ | .reqDpCtrlstatRd, _ | .reqAp4Rd, _
  | .reqDpSelectWr, _ | .reqAp8Wr, _ | .reqDapA, _ | .reqAp8Rd, _ | .reqDapC, _ | .reqApCWr, _ | .reqDpRdbuffRd, _
  | .reqApCRd, _ => False

/-- No instruction stores outside the buffer (R61). -/
theorem storedBy_lt (i : Instr) (j : Nat) (h : storedBy i j) : j < wordsDepth := by
  cases i <;> simp only [storedBy] at h
  · rename_i c _ _; have := c.isLt; simp only [wordsDepth]; omega
  · simp only [wordsDepth]; omega

/-- What a next state of an instruction is: from `s` by a run of packets and stores, from `ACCUM` as the move sets it, and then writes of `RESULT`, `STATUS` and `LINK` by the instructions that have them; `BUSY` ends 0. -/
structure ExecRun (i : Instr) (s t : State) : Prop where
  run : ∃ u, PacketRun (storedBy i) (if writesStatus i then { s with accum := resultOk } else s) u ∧
    t = { u with
      busy := false
      result := t.result
      link := t.link
      status := if writesStatus i then mapStatus u.accum else u.status }
  result : writesResult i = false → t.result = s.result
  link : writesLink i = false → t.link = s.link
  linkLegal : s.link ≠ 3#2 → t.link ≠ 3#2

/-- A run that began with port activity and writes of `BUSY` and `LINK` is one from the state before them. -/
theorem PacketRun.rebase {P : Nat → Prop} {s u : State} (p : Port) (b : Bool) (l : BitVec 2)
    (h : PacketRun P { s with port := p, busy := b, link := l } u) (hp : s.port.Extends p) :
    PacketRun P s { u with busy := s.busy, link := s.link } where
  port := hp.trans h.port
  same := by rw [h.same]
  words := h.words
  wf := h.wf
  ack := h.ack
  accum := h.accum
  accumOk := h.accumOk

theorem ExecRun.of_port (i : Instr) (s : State) (p : Port) (r : Byte) (hp : s.port.Extends p)
    (hi : writesStatus i = false) (hr : writesResult i = false → r = s.result) :
    ExecRun i s { s with port := p, result := r, busy := false } :=
  ⟨⟨{ s with port := p }, by rw [hi]; exact port_run _ s p hp, by rw [hi]; rfl⟩, hr, fun _ => rfl, id⟩

theorem ExecRun.of_run (i : Instr) (s u : State) (p : Port) (b : Bool) (l m : BitVec 2)
    (h : PacketRun (storedBy i) { s with port := p, busy := b, link := l } u) (hp : s.port.Extends p)
    (hi : writesStatus i = false) (hl : writesLink i = false → m = s.link) (hm : s.link ≠ 3#2 → m ≠ 3#2) :
    ExecRun i s { u with busy := false, link := m } :=
  ⟨⟨_, by rw [hi]; exact h.rebase p b l hp, by rw [hi]; rfl⟩, fun _ => h.result, hl, hm⟩

theorem ExecRun.of_move (c : Byte) (d : DapAddr) (f : Bool) (s u : State)
    (h : PacketRun (fun i => isRead d = true ∧ i ≤ c.toNat) (startMove s.accept) u) :
    ExecRun (.dapMove c d f) s (endMove u).finish where
  run := ⟨{ u with busy := s.busy, port := u.port.idlePulse }, {
      port := h.port.trans (Port.idlePulse_extends _)
      same := by rw [h.same]; rfl
      words := h.words
      wf := h.wf
      ack := h.ack
      accum := h.accum
      accumOk := h.accumOk }, by rfl⟩
  result _ := h.result
  link _ := h.link
  linkLegal hl := by
    have := h.link
    simp only [startMove, State.accept] at this
    simpa [endMove, State.finish, this] using hl

theorem Port.idleLines_extends (p : Port) : p.Extends p.idleLines :=
  (((Port.setPins_extends _ _).trans (Port.setPins_extends _ _)).trans (Port.setPins_extends _ _)).trans
    (Port.setPins_extends _ _)
theorem Port.jtagToSwd_extends (p : Port) : p.Extends p.jtagToSwd :=
  (Port.shiftOutByte_extends _ _).trans (Port.shiftOutByte_extends _ _)
theorem Port.swdToJtag_extends (p : Port) : p.Extends p.swdToJtag :=
  (Port.shiftOutByte_extends _ _).trans (Port.shiftOutByte_extends _ _)

theorem linkAfter_legal : ∀ r : PacketResult, linkAfter r ≠ 3#2 := by decide

theorem ExecRun.of_connect (s t : State) (h : exec .connect s = .next t) : ExecRun .connect s t := by
  rw [exec_connect] at h; injection h with h; subst h
  obtain ⟨u, hu, he, _, _, _⟩ := lineResetSeq_run (storedBy .connect)
    { s.accept with port := s.port.idleLines.jtagToSwd, link := linkLineResetPending }
  rw [he]
  exact ExecRun.of_run .connect s u _ true _ (linkAfter u.ack) hu
    ((Port.idleLines_extends _).trans (Port.jtagToSwd_extends _)) rfl (fun h => absurd h (by decide))
    (fun _ => linkAfter_legal _)

theorem ExecRun.of_lineReset (s t : State) (h : exec .lineReset s = .next t) : ExecRun .lineReset s t := by
  rw [exec_lineReset] at h; injection h with h; subst h
  obtain ⟨u, hu, he, _, _, _⟩ := lineResetSeq_run (storedBy .lineReset) s.accept
  rw [he]
  exact ExecRun.of_run .lineReset s u s.port true s.link (linkAfter u.ack) hu (Port.Extends.refl _) rfl
    (fun h => absurd h (by decide)) (fun _ => linkAfter_legal _)

theorem ExecRun.of_disconnect (s t : State) (h : exec .disconnect s = .next t) : ExecRun .disconnect s t := by
  rw [exec_disconnect] at h; injection h with h; subst h
  have hp : s.port.Extends ((s.port.swdToJtag.setClkOe false).setDioOe false) :=
    ((Port.swdToJtag_extends s.port).trans (Port.setPins_extends _ _)).trans (Port.setPins_extends _ _)
  generalize (s.port.swdToJtag.setClkOe false).setDioOe false = p at hp
  exact ExecRun.of_run .disconnect s { s with port := p } p s.busy s.link linkDisconnected (PacketRun.refl _ _) hp rfl
    (fun h => absurd h (by decide)) (fun _ => by decide)

theorem ExecRun.of_clearErrors (s t : State) (h : exec .clearErrors s = .next t) : ExecRun .clearErrors s t := by
  rw [exec_clearErrors] at h; injection h with h; subst h
  have hu := (((clearErrorsRead_run (storedBy .clearErrors) 0 s.accept (Or.inl rfl)).trans
    (setData_run _ abortMask _)).trans (shiftPacket_run _ (reqHeader dpAbortWr) 0x00#8 _)).trans
    (clearErrorsRead_run _ 1 _ (Or.inr rfl))
  unfold sequencerPacket
  generalize clearErrorsRead 1 (shiftPacket (reqHeader dpAbortWr) 0x00#8
    { clearErrorsRead 0 s.accept with data := abortMask }).2 = u at hu
  exact ExecRun.of_run .clearErrors s u s.port true s.link u.link hu (Port.Extends.refl _) rfl (fun _ => hu.link)
    (fun hl => by rw [hu.link]; exact hl)

theorem ExecRun.of_packet (i : Instr) (q r : Byte) (s : State) (hi : writesStatus i = false) :
    ExecRun i s { (shiftPacket q r s).2 with busy := false } :=
  ExecRun.of_run i s _ s.port s.busy s.link _ (shiftPacket_run _ q r s) (Port.Extends.refl _) hi
    (fun _ => shiftPacket_link q r s) (fun hl => by rw [shiftPacket_link]; exact hl)

/-- Everything an instruction that answers a next state can do. -/
theorem exec_run (i : Instr) (s t : State) (h : exec i s = .next t) : ExecRun i s t := by
  have req : ∀ dap, requestDap i = some dap → writesStatus i = false → ExecRun i s t := by
    intro dap hd hi
    rw [exec_request i dap s hd, exec_shiftPacket] at h; injection h with h; subst h
    exact ExecRun.of_packet i _ _ s hi
  cases i
  case setClock l =>
    rw [exec_setClock] at h; injection h with h; subst h
    exact ExecRun.of_port _ s _ s.result ((Port.setPins_extends _ _).trans (Port.setPins_extends _ _)) rfl (fun _ => rfl)
  case setData l =>
    rw [exec_setData] at h; injection h with h; subst h
    exact ExecRun.of_port _ s _ s.result (Port.setPins_extends _ _) rfl (fun _ => rfl)
  case setDir l =>
    rw [exec_setDir] at h; injection h with h; subst h
    exact ExecRun.of_port _ s _ s.result (Port.setPins_extends _ _) rfl (fun _ => rfl)
  case readData =>
    rw [exec_readData] at h; injection h with h; subst h
    exact ExecRun.of_port _ s _ _ (Port.sample_extends _) rfl (fun h => absurd h (by decide))
  case shiftOut b =>
    rw [exec_shiftOut] at h; injection h with h; subst h
    exact ExecRun.of_port _ s _ s.result (Port.shiftOutByte_extends _ _) rfl (fun _ => rfl)
  case shiftIn =>
    rw [exec_shiftIn] at h; injection h with h; subst h
    exact ExecRun.of_port _ s _ _ (Port.shiftInByte_extends _) rfl (fun h => absurd h (by decide))
  case shiftReset =>
    rw [exec_shiftReset] at h; injection h with h; subst h
    exact ExecRun.of_port _ s _ s.result (Port.shiftResetSeq_extends _) rfl (fun _ => rfl)
  case shiftPacket q r =>
    rw [exec_shiftPacket] at h; injection h with h; subst h
    exact ExecRun.of_packet _ q r s rfl
  case dapMove c d f =>
    obtain ⟨u, hu, rfl⟩ := exec_dapMove_next c d f s t h
    exact ExecRun.of_move c d f s u hu
  case connect => exact ExecRun.of_connect s t h
  case lineReset => exact ExecRun.of_lineReset s t h
  case disconnect => exact ExecRun.of_disconnect s t h
  case clearErrors => exact ExecRun.of_clearErrors s t h
  all_goals exact req _ rfl rfl

end Sys2Proof.Machine
end

