-- ==== Sys2Proof/Laws/Answers.lean ====
section
/-! SUPPORT. What the packets of a move do for any answers of the target: results recorded in order, `DATA` and `WORDS` after each, the slots of each (R141, R173, R174, R176, R183). -/

namespace Sys2Proof.Machine

/-- Bit 2 of a header is `RnW` of its DAP address (R87). -/
theorem headerIsRead_reqHeader (dap : DapAddr) : headerIsRead (reqHeader dap) = isRead dap := by
  revert dap; decide

/-- Recording results one after another leaves the last that is not OK (R149, R183). -/
theorem foldl_accumulate (c : PacketResult) (rs : List PacketResult) :
    rs.foldl accumulate c = accumAfter c rs := by
  unfold accumAfter
  induction rs generalizing c with
  | nil => rfl
  | cons r rs ih =>
    rw [List.foldl_cons, ih, accumulate]
    by_cases h : r = 0x1#4
    · simp [h, resultOk]
    · simp only [resultOk, h, if_false]
      rw [List.filter_cons_of_pos (by simpa using h), List.getLast?_cons]
      simp

/-- Packets took `s` to `t`, with results `rs` recorded in order, slots `sl` added and `rest` of the draws left. -/
structure Answered (rs : List PacketResult) (sl : List Slot) (rest : List Bool) (s t : State) : Prop where
  accum : t.accum = rs.foldl accumulate s.accum
  ack : t.ack = rs.getLastD s.ack
  draws : t.port.draws = rest
  slots : t.port.slots = sl.reverse ++ s.port.slots

namespace Answered

variable {rs rs' : List PacketResult} {sl sl' : List Slot} {rest rest' : List Bool} {s t u : State}

theorem nil (h : s.port.draws = rest) : Answered [] [] rest s s := ⟨rfl, rfl, h, rfl⟩

theorem trans (h : Answered rs sl rest s t) (g : Answered rs' sl' rest' t u) :
    Answered (rs ++ rs') (sl ++ sl') rest' s u where
  accum := by rw [g.accum, h.accum, List.foldl_append]
  ack := by
    rw [g.ack, h.ack]
    cases rs' using List.reverseRecOn with
    | nil => simp
    | append_singleton l a => simp [← List.append_assoc]
  draws := g.draws
  slots := by rw [g.slots, h.slots, List.reverse_append, List.append_assoc]

/-- A store to `WORDS` and a write of `DATA` leave the record. -/
theorem store (h : Answered rs sl rest s t) (i : Nat) (w : Word) : Answered rs sl rest s (t.writeWord i w) :=
  ⟨h.accum, h.ack, h.draws, h.slots⟩

theorem fromData (w : Word) (h : Answered rs sl rest { s with data := w } t) : Answered rs sl rest s t :=
  ⟨h.accum, h.ack, h.draws, h.slots⟩

end Answered

theorem movePacket_readAnswer (h : Byte) (s : State) (a : Answer) (rest : List Bool) (hr : headerIsRead h = true)
    (he : a.Ends 255) (hd : s.port.draws = a.readDraws ++ rest) :
    Answered [a.readResult] (a.readSlots h) rest s (movePacket h s) ∧ (movePacket h s).data = a.dataAfter s.data := by
  obtain ⟨h1, h2, h3, h4⟩ := shiftPacket_readAnswer h 0x00#8 s a rest hr he hd
  exact ⟨⟨by simp [movePacket, h1], by simp [movePacket, h1], h3, h4⟩, h2⟩

theorem movePacket_writeAnswer (h : Byte) (s : State) (a : Answer) (rest : List Bool) (hw : headerIsRead h = false)
    (he : a.Ends 255) (hd : s.port.draws = a.writeDraws ++ rest) :
    Answered [a.writeResult] (a.sentSlots h s.data) rest s (movePacket h s) ∧ (movePacket h s).data = s.data := by
  obtain ⟨h1, h2, h3, h4⟩ := shiftPacket_writeAnswer h 0x00#8 s a rest hw he hd
  exact ⟨⟨by simp [movePacket, h1], by simp [movePacket, h1], h3, h4⟩, h2⟩

@[simp] theorem length_dataAfterEach (d : Word) (as : List Answer) : (Answer.dataAfterEach d as).length = as.length := by
  induction as generalizing d with
  | nil => rfl
  | cons a as ih => simp [Answer.dataAfterEach, ih]

theorem dataAfterEach_append (d : Word) (as bs : List Answer) :
    Answer.dataAfterEach d (as ++ bs) =
      Answer.dataAfterEach d as ++ Answer.dataAfterEach ((Answer.dataAfterEach d as).getLastD d) bs := by
  induction as generalizing d with
  | nil => rfl
  | cons a as ih =>
    rw [List.cons_append, Answer.dataAfterEach, ih, Answer.dataAfterEach]
    cases Answer.dataAfterEach (a.dataAfter d) as <;> rfl

/-- The read loop stores `DATA` after every packet, whatever its result (R173, R176). -/
theorem readWords_answers (h : Byte) (hr : headerIsRead h = true) (as : List Answer) (i : Nat) (s : State)
    (rest : List Bool) (he : ∀ a ∈ as, a.Ends 255) (hd : s.port.draws = as.flatMap Answer.readDraws ++ rest) :
    Answered (as.map Answer.readResult) (as.flatMap (Answer.readSlots h)) rest s (readWords h as.length i s) ∧
      (readWords h as.length i s).data = (Answer.dataAfterEach s.data as).getLastD s.data ∧
      ∀ j, j < as.length →
        Memory.read (readWords h as.length i s).words (i + j) = (Answer.dataAfterEach s.data as)[j]? := by
  induction as generalizing i s with
  | nil => exact ⟨Answered.nil hd, rfl, fun j hj => absurd hj (Nat.not_lt_zero _)⟩
  | cons a as ih =>
    obtain ⟨h1, h2⟩ := movePacket_readAnswer h s a (as.flatMap Answer.readDraws ++ rest) hr
      (he a (List.mem_cons_self ..)) (by rw [hd, List.flatMap_cons, List.append_assoc])
    rw [List.length_cons, readWords]
    generalize movePacket h s = u at *
    obtain ⟨g1, g2, g3⟩ := ih (i + 1) (u.writeWord i u.data) (fun b hb => he b (List.mem_cons_of_mem _ hb)) h1.draws
    have keep := (readWords_run (fun k => i + 1 ≤ k) h as.length (i + 1) (u.writeWord i u.data)
      (fun j hj _ => hj)).words i (by omega)
    have hu : (u.writeWord i u.data).data = a.dataAfter s.data := h2
    rw [hu] at g2 g3
    refine ⟨(h1.store i u.data).trans g1, ?_, fun j hj => ?_⟩
    · rw [g2, Answer.dataAfterEach]
      cases Answer.dataAfterEach (a.dataAfter s.data) as <;> rfl
    · cases j with
      | zero => exact keep.trans (by rw [State.writeWord, Memory.read_write_same, h2]; rfl)
      | succ j => rw [show i + (j + 1) = i + 1 + j by omega, g3 j (by simpa using hj)]; rfl

/-- The write loop leaves `WORDS` as it is (R174). -/
theorem writeWords_words (h : Byte) (ws : List Word) (s : State) : (writeWords h ws s).words = s.words := by
  induction ws generalizing s with
  | nil => rfl
  | cons w ws ih => rw [writeWords, ih, movePacket, shiftPacket_words]

/-- The write loop sends every word, whatever the results (R174, R176). -/
theorem writeWords_answers (h : Byte) (hw : headerIsRead h = false) (ws : List Word) (as : List Answer) (s : State)
    (rest : List Bool) (hl : as.length = ws.length) (he : ∀ a ∈ as, a.Ends 255)
    (hd : s.port.draws = as.flatMap Answer.writeDraws ++ rest) :
    Answered (as.map Answer.writeResult) (List.zipWith (Answer.sentSlots h) ws as).flatten rest s (writeWords h ws s) ∧
      (writeWords h ws s).data = ws.getLastD s.data := by
  induction ws generalizing as s with
  | nil =>
    obtain rfl : as = [] := List.eq_nil_of_length_eq_zero hl
    exact ⟨Answered.nil hd, rfl⟩
  | cons w ws ih =>
    cases as with
    | nil => cases hl
    | cons a as =>
      obtain ⟨h1, h2⟩ := movePacket_writeAnswer h { s with data := w } a (as.flatMap Answer.writeDraws ++ rest) hw
        (he a (List.mem_cons_self ..)) (by rw [List.flatMap_cons, List.append_assoc] at hd; exact hd)
      rw [writeWords]
      generalize movePacket h { s with data := w } = u at *
      obtain ⟨g1, g2⟩ := ih as u (by simpa using hl) (fun b hb => he b (List.mem_cons_of_mem _ hb)) h1.draws
      refine ⟨Answered.fromData w (h1.trans g1), ?_⟩
      rw [g2, h2]; cases ws <;> rfl

/-- What a move of answered packets reports at its end, and its slots, the trailing idle pulse last (R177, R178, R183). -/
theorem Answered.endMove {rs : List PacketResult} {sl : List Slot} {rest : List Bool} {s u : State}
    (h : Answered rs sl rest (startMove s.accept) u) (hne : rs ≠ []) :
    MoveReports rs (endMove u).finish ∧ (endMove u).finish.port.draws = rest ∧
      AddsSlots (sl ++ [.driven false]) s (endMove u).finish := by
  have hacc : u.accum = lastNonOk rs := by rw [h.accum, foldl_accumulate]; rfl
  refine ⟨⟨?_, hacc, ?_⟩, ?_, ?_⟩
  · show some u.ack = _
    rw [h.ack, List.getLastD_eq_getLast?, List.getLast?_eq_getLast_of_ne_nil hne]; rfl
  · show mapStatus u.accum = _
    rw [hacc]
  · exact (Port.idlePulse_draws _).trans h.draws
  · show u.port.idlePulse.slots = _
    rw [Port.idlePulse_slots, h.slots]
    simp [startMove, State.accept]

/-! ### The sequencer's packets (R202, R208, R209) -/

/-- The slots of a line reset whose IDCODE packet is answered `a` (R202). -/
theorem lineResetSeq_answer (s : State) (a : Answer) (rest : List Bool) (he : a.Ends 255)
    (hd : s.port.draws = a.readDraws ++ rest) :
    (lineResetSeq s).data = a.dataAfter s.data ∧ (lineResetSeq s).ack = a.readResult ∧
      (lineResetSeq s).accum = accumulate s.accum a.readResult ∧ (lineResetSeq s).link = linkAfter a.readResult ∧
      (lineResetSeq s).port.draws = rest ∧
      (lineResetSeq s).port.slots = (lineResetSlots a).reverse ++ s.port.slots := by
  generalize hs : ({ s with port := s.port.shiftResetSeq.shiftOutByte 0x00#8 } : State) = s1
  have hp : s1.port = s.port.shiftResetSeq.shiftOutByte 0x00#8 := by rw [← hs]
  have hda : s1.data = s.data := by rw [← hs]
  have hac : s1.accum = s.accum := by rw [← hs]
  have hl : lineResetSeq s = { (shiftPacket (reqHeader dpIdcodeRd) 0x00#8 s1).2 with
      port := (shiftPacket (reqHeader dpIdcodeRd) 0x00#8 s1).2.port.shiftOutByte 0x00#8
      link := linkAfter (shiftPacket (reqHeader dpIdcodeRd) 0x00#8 s1).1 } := by rw [lineResetSeq, hs]; rfl
  obtain ⟨h1, h2, h3, h4⟩ := shiftPacket_readAnswer (reqHeader dpIdcodeRd) 0x00#8 s1 a rest (by decide) he
    (by rw [hp]; simpa using hd)
  have h5 := shiftPacket_accum (reqHeader dpIdcodeRd) 0x00#8 s1
  have h6 := shiftPacket_ack (reqHeader dpIdcodeRd) 0x00#8 s1
  rw [hl]
  generalize shiftPacket (reqHeader dpIdcodeRd) 0x00#8 s1 = r at *
  refine ⟨by rw [← hda]; exact h2, h6.trans h1, ?_, ?_, ?_, ?_⟩
  · dsimp only; rw [h5, h1, hac]
  · dsimp only; rw [h1]
  · dsimp only; rw [Port.shiftOutByte_draws, h3]
  · dsimp only
    rw [Port.shiftOutByte_slots, h4, hp, Port.shiftOutByte_slots, Port.shiftResetSeq_slots,
      show drivenSlots (bitsLsb 0x00#8) = List.replicate 8 (.driven false) by decide,
      show reqHeader dpIdcodeRd = 0xA5#8 by decide]
    simp [lineResetSlots]

/-- The three packets of `CLEAR_ERRORS` for any answers (R208). -/
theorem exec_clearErrors_answers (s : State) (a b c : Answer) (rest : List Bool) (ha : a.Ends 255) (hb : b.Ends 255)
    (hc : c.Ends 255) (hd : s.port.draws = a.readDraws ++ b.writeDraws ++ c.readDraws ++ rest) :
    ∃ t, exec .clearErrors s = .next t ∧ Memory.read t.words 0 = some (a.dataAfter s.data) ∧
      Memory.read t.words 1 = some (c.dataAfter 0x0000001E#32) ∧ t.data = c.dataAfter 0x0000001E#32 ∧
      Answered [a.readResult, b.writeResult, c.readResult]
        (a.readSlots 0x8D#8 ++ b.sentSlots 0x81#8 0x0000001E#32 ++ c.readSlots 0x8D#8) rest s t := by
  refine ⟨_, exec_clearErrors s, ?_⟩
  obtain ⟨a1, a2⟩ := movePacket_readAnswer (reqHeader dpCtrlstatRd) s.accept a (b.writeDraws ++ (c.readDraws ++ rest))
    (by decide) ha (hd.trans (by simp))
  unfold clearErrorsRead sequencerPacket
  dsimp only
  change Answered _ _ _ _ (shiftPacket (reqHeader dpCtrlstatRd) 0x00#8 s.accept).2 at a1
  change (shiftPacket (reqHeader dpCtrlstatRd) 0x00#8 s.accept).2.data = _ at a2
  generalize (shiftPacket (reqHeader dpCtrlstatRd) 0x00#8 s.accept).2 = u at *
  obtain ⟨b1, b2⟩ := movePacket_writeAnswer (reqHeader dpAbortWr) { u.writeWord 0 u.data with data := abortMask } b
    (c.readDraws ++ rest) (by decide) hb a1.draws
  have b3 := shiftPacket_words (reqHeader dpAbortWr) 0x00#8 { u.writeWord 0 u.data with data := abortMask }
  unfold movePacket at b1 b2
  generalize (shiftPacket (reqHeader dpAbortWr) 0x00#8 { u.writeWord 0 u.data with data := abortMask }).2 = v at *
  obtain ⟨c1, c2⟩ := movePacket_readAnswer (reqHeader dpCtrlstatRd) v c rest (by decide) hc b1.draws
  have c3 := shiftPacket_words (reqHeader dpCtrlstatRd) 0x00#8 v
  unfold movePacket at c1 c2
  generalize (shiftPacket (reqHeader dpCtrlstatRd) 0x00#8 v).2 = x at *
  have hx : x.data = c.dataAfter 0x0000001E#32 := by rw [c2, b2]; rfl
  have hrun := ((a1.store 0 u.data).trans (Answered.fromData abortMask b1)).trans c1
  refine ⟨?_, ?_, hx, ⟨hrun.accum, hrun.ack, hrun.draws, hrun.slots⟩⟩
  · show Memory.read (Memory.write x.words 1 x.data) 0 = _
    rw [Memory.read_write_other _ _ (by decide), c3, b3]
    show Memory.read (Memory.write u.words 0 u.data) 0 = _
    rw [Memory.read_write_same, a2]; rfl
  · show Memory.read (Memory.write x.words 1 x.data) 1 = _
    rw [Memory.read_write_same, hx]

end Sys2Proof.Machine
end

