-- ==== Sys2Proof/Laws/Encoding.lean ====
section
/-! SUPPORT. Laws of the command word: the bit at each place of R80, and the row a word falls under (R83). -/

namespace Sys2Proof

/-- The fields of R80 at their places, every other bit 0. -/
theorem getLsbD_cmdWord (op : BitVec 4) (a : DapAddr) (arg8 retry : Byte) (f : Bool) (j : Nat) :
    (cmdWord op a arg8 retry f).getLsbD j =
      if j < 4 then op.getLsbD j
      else if j < 8 then a.getLsbD (j - 4)
      else if j < 16 then arg8.getLsbD (j - 8)
      else if j < 24 then retry.getLsbD (j - 16)
      else decide (j = 24) && f := by
  unfold cmdWord
  rw [BitVec.getLsbD_append, BitVec.getLsbD_append, BitVec.getLsbD_append, BitVec.getLsbD_append, BitVec.getLsbD_append]
  simp only [Nat.sub_sub]
  by_cases h1 : j < 4 
  · simp [h1]
  · by_cases h2 : j < 8
    · simp [h1, h2, show j - 4 < 4 by omega]
    · by_cases h3 : j < 16
      · simp [h1, h2, h3, show ¬ j - 4 < 4 by omega, show j - 8 < 8 by omega]
      · by_cases h4 : j < 24
        · simp [h1, h2, h3, h4, show ¬ j - 4 < 4 by omega, show ¬ j - 8 < 8 by omega, show j - 16 < 8 by omega]
        · simp [h1, h2, h3, h4, show ¬ j - 4 < 4 by omega, show ¬ j - 8 < 8 by omega, show ¬ j - 16 < 8 by omega]
          rcases Nat.eq_or_lt_of_le (show 24 ≤ j by omega) with h5 | h5
          · subst h5; simp
          · simp [show j ≠ 24 by omega, show j - 24 ≠ 0 by omega]

/-- A 1-bit operand is bit 0 of `ARG8`, the rest 0 (R81). -/
theorem getLsbD_arg8OfBit (b : Bool) (j : Nat) : (arg8OfBit b).getLsbD j = (decide (j = 0) && b) := by
  rcases Nat.eq_zero_or_pos j with h | h
  · subst h; cases b <;> rfl
  · cases b <;> simp [arg8OfBit, show j ≠ 0 by omega]

/-- A word under a row decodes by that row: no earlier row claims it (R83). -/
theorem decodeCmd_of_row (w : Word) (r : CmdRow) (hr : r ∈ cmdRows) (hw : w &&& r.mask = r.pattern) :
    decodeCmd w = .ok (r.build w) := by
  have apart : cmdRows.Pairwise (fun r q => r.pattern &&& q.mask ≠ q.pattern &&& r.mask) := by decide
  obtain ⟨pre, post, hp⟩ := List.append_of_mem hr
  have none_before : pre.find? (fun q => q.admits w) = none := by
    rw [List.find?_eq_none]
    intro q hq hadm
    rw [hp, List.pairwise_append] at apart
    apply apart.2.2 q hq r (by simp)
    rw [CmdRow.admits, beq_iff_eq] at hadm
    rw [← hadm, ← hw, BitVec.and_assoc, BitVec.and_assoc, BitVec.and_comm q.mask]
  have found : cmdRows.find? (fun q => q.admits w) = some r := by
    rw [hp, List.find?_append, none_before]
    simp [CmdRow.admits, hw]
  simp [decodeCmd, found]

/-- What decodes falls under one row, which builds it. -/
theorem row_of_decodeCmd (w : Word) (i : Instr) (h : decodeCmd w = .ok i) :
    ∃ r ∈ cmdRows, w &&& r.mask = r.pattern ∧ i = r.build w := by
  unfold decodeCmd at h
  split at h
  · rename_i r hf
    refine ⟨r, List.mem_of_find?_eq_some hf, ?_, by cases h; rfl⟩
    simpa [CmdRow.admits] using List.find?_some hf
  · split at h <;> cases h

end Sys2Proof
end

