-- ==== Sys2Proof/Laws/Listed.lean ====
section
/-! SUPPORT. Packets and moves whose draws are listed and all OK (R92, R94): what they leave in `DATA` and `WORDS`, and their slots (R181, R211). -/

namespace Sys2Proof.Machine

theorem okReadDraws_append (w : Word) (rest : List Bool) :
    okReadDraws w ++ rest = waitDraws 0 ++ bitsLsb (0b001#3) ++ (bitsLsb w ++ parity w :: rest) := by
  simp [okReadDraws, okWriteDraws, waitDraws]

/-- A read packet acknowledged OK in its first attempt, parity right: 47 slots (R153). -/
theorem shiftPacket_okRead (req retry : Byte) (s : State) (w : Word) (rest : List Bool) (hr : headerIsRead req = true)
    (h : s.port.draws = okReadDraws w ++ rest) :
    (shiftPacket req retry s).1 = resultOk ∧ (shiftPacket req retry s).2.data = w ∧
      (shiftPacket req retry s).2.accum = s.accum ∧ (shiftPacket req retry s).2.port.draws = rest ∧
      (shiftPacket req retry s).2.port.slots.length = s.port.slots.length + 47 := by
  have hl := attemptLimit_pos retry
  obtain ⟨h1, h2, h3, h4⟩ := shiftPacket_read req retry s 0 w (parity w) rest (by omega) hr
    (by rw [h, okReadDraws_append])
  have h5 : (shiftPacket req retry s).1 = resultOk := by rw [h1, readResult, if_pos rfl]
  exact ⟨h5, h2, by rw [shiftPacket_accum, h5, accumulate, if_pos rfl], h3, h4⟩

/-- A write packet acknowledged OK in its first attempt: 48 slots (R153). -/
theorem shiftPacket_okWrite (req retry : Byte) (s : State) (rest : List Bool) (hr : headerIsRead req = false)
    (h : s.port.draws = okWriteDraws ++ rest) :
    (shiftPacket req retry s).1 = resultOk ∧ (shiftPacket req retry s).2.data = s.data ∧
      (shiftPacket req retry s).2.accum = s.accum ∧ (shiftPacket req retry s).2.port.draws = rest ∧
      (shiftPacket req retry s).2.port.slots.length = s.port.slots.length + 48 := by
  have hl := attemptLimit_pos retry
  obtain ⟨h1, h2, h3, h4⟩ := shiftPacket_write req retry s 0 rest (by omega) hr (by rw [h]; rfl)
  exact ⟨h1, h2, by rw [shiftPacket_accum, h1, accumulate, if_pos rfl], h3, h4⟩

/-- The answer OK in the first attempt, with word `w` and its right parity. -/
def okAnswer (w : Word) : Answer := ⟨0, 0b001#3, w, parity w⟩

theorem okAnswer_ends (w : Word) : (okAnswer w).Ends 255 := ⟨by simp [okAnswer], Or.inl (by simp [okAnswer])⟩

theorem flatMap_okAnswer_readDraws (ws : List Word) : (ws.map okAnswer).flatMap Answer.readDraws = okReadsDraws ws := by
  have h : Answer.readDraws ∘ okAnswer = okReadDraws := by
    funext w; simp [okAnswer, Answer.readDraws, Answer.writeDraws, okReadDraws, okWriteDraws, waitDraws]
  rw [okReadsDraws, List.flatMap, List.map_map, h]

theorem dataAfterEach_okAnswer (d : Word) (ws : List Word) : Answer.dataAfterEach d (ws.map okAnswer) = ws := by
  induction ws generalizing d with
  | nil => rfl
  | cons w ws ih => simp [Answer.dataAfterEach, ih, Answer.dataAfter, okAnswer]

theorem foldl_accumulate_ok (c : PacketResult) (n : Nat) : (List.replicate n 0x1#4).foldl accumulate c = c := by
  simp [foldl_accumulate, accumAfter]

/-- The read loop with every packet OK: each entry its word, and `DATA` the last (R173). -/
theorem readWords_ok (h : Byte) (hr : headerIsRead h = true) (ws : List Word) (i : Nat) (s : State) (rest : List Bool)
    (hd : s.port.draws = okReadsDraws ws ++ rest) :
    (∀ j, j < ws.length → Memory.read (readWords h ws.length i s).words (i + j) = ws[j]?) ∧
      (readWords h ws.length i s).data = ws.getLastD s.data ∧
      (readWords h ws.length i s).accum = s.accum ∧ (readWords h ws.length i s).port.draws = rest ∧
      (readWords h ws.length i s).port.slots.length = s.port.slots.length + 47 * ws.length := by
  obtain ⟨h1, h2, h3⟩ := readWords_answers h hr (ws.map okAnswer) i s rest
    (fun a ha => by obtain ⟨w, -, rfl⟩ := List.mem_map.mp ha; exact okAnswer_ends w)
    (by rw [hd, flatMap_okAnswer_readDraws])
  rw [dataAfterEach_okAnswer] at h2 h3
  rw [List.length_map] at *
  refine ⟨h3, h2, ?_, h1.draws, ?_⟩
  · rw [h1.accum]
    have : (ws.map okAnswer).map Answer.readResult = List.replicate ws.length 0x1#4 := by
      simp [List.eq_replicate_iff, Answer.readResult, okAnswer]
    rw [this, foldl_accumulate_ok]
  · have : ((ws.map okAnswer).flatMap (Answer.readSlots h)).length = 47 * ws.length := by
      simp [List.length_flatMap, Function.comp_def, Answer.readSlots, Answer.slots, okAnswer, sampledSlots]; omega
    rw [h1.slots]; simp [this]; omega

/-- The write loop with every packet OK (R174). -/
theorem writeWords_ok (h : Byte) (hr : headerIsRead h = false) (ws : List Word) (s : State) (rest : List Bool)
    (hd : s.port.draws = (List.replicate ws.length okWriteDraws).flatten ++ rest) :
    (writeWords h ws s).data = ws.getLastD s.data ∧ (writeWords h ws s).accum = s.accum ∧
      (writeWords h ws s).words = s.words ∧ (writeWords h ws s).port.draws = rest ∧
      (writeWords h ws s).port.slots.length = s.port.slots.length + 48 * ws.length := by
  obtain ⟨h1, h2⟩ := writeWords_answers h hr ws (List.replicate ws.length (okAnswer 0)) s rest (by simp)
    (fun a ha => by rw [(List.mem_replicate.mp ha).2]; exact okAnswer_ends 0)
    (by rw [hd]; simp [List.flatMap, Answer.writeDraws, okAnswer, waitDraws, okWriteDraws])
  refine ⟨h2, ?_, writeWords_words h ws s, h1.draws, ?_⟩
  · rw [h1.accum, List.map_replicate]; exact foldl_accumulate_ok _ _
  · have hlen : ∀ (l : List Word) (n : Nat), n = l.length →
        (List.zipWith (Answer.sentSlots h) l (List.replicate n (okAnswer 0))).flatten.length = 48 * l.length := by
      intro l
      induction l with
      | nil => intro n hn; subst hn; rfl
      | cons w l ih =>
        intro n hn; subst hn
        rw [List.length_cons, List.replicate_succ, List.zipWith_cons_cons, List.flatten_cons, List.length_append,
          ih _ rfl]
        simp [Answer.sentSlots, Answer.slots, okAnswer]; omega
    rw [h1.slots, List.length_append, List.length_reverse, hlen _ _ rfl]; omega

end Sys2Proof.Machine
end

