-- ==== Sys2Proof/Laws/Micro.lean ====
section
/-! SUPPORT. What one statement of the slot level can do, said once (R31). -/

namespace Sys2Proof.Machine

/-- What one statement can do: it extends the wire, leaves `BUSY`, the position and the surroundings alone, and keeps codes, `WORDS` and the statements still to run legal. -/
structure MicroRun (m : Micro) (l : Locals) (s : State) (body : List Micro) (l' : Locals) (t : State) : Prop where
  port : s.port.Extends t.port
  busy : t.busy = s.busy
  pos : t.pos = s.pos
  surroundings : SameSurroundings s t
  legal : Micro.legal m = true → l.code.toNat ≤ 8 → s.CodesLegal → Memory.wf s.words = true →
    t.CodesLegal ∧ Memory.wf t.words = true ∧ body.all Micro.legal = true ∧ l'.code.toNat ≤ 8

/-- A statement that touches the port alone. -/
theorem MicroRun.of_port (m : Micro) (l l' : Locals) (s : State) (p : Port) (h : s.port.Extends p)
    (hl : l'.code = l.code) : MicroRun m l s [] l' { s with port := p } :=
  ⟨h, rfl, rfl, ⟨rfl, rfl, rfl, rfl, rfl⟩, fun _ h1 h2 h3 => ⟨h2, h3, rfl, by rw [hl]; exact h1⟩⟩

/-- A statement that stands for others and touches no state. -/
theorem MicroRun.of_body (m : Micro) (l l' : Locals) (s : State) (body : List Micro)
    (hb : Micro.legal m = true → body.all Micro.legal = true) (hc : l.code.toNat ≤ 8 → l'.code.toNat ≤ 8) :
    MicroRun m l s body l' s :=
  ⟨Port.Extends.refl _, rfl, rfl, ⟨rfl, rfl, rfl, rfl, rfl⟩, fun h0 h1 h2 h3 => ⟨h2, h3, hb h0, hc h1⟩⟩

theorem mapStatus_toNat_le : ∀ r : PacketResult, (mapStatus r).toNat ≤ 3 := by decide

/-- A 3-bit acknowledge pattern as a packet result (R93). -/
theorem ack_toNat_le : ∀ a : AckBits, (a.setWidth 4 : PacketResult).toNat ≤ 8 := by decide

theorem afterAckBody_legal (req : Byte) (a n : Nat) (k : AckBits) : (afterAckBody req a n k).all Micro.legal = true := by
  unfold afterAckBody; split
  · rfl
  · split
    · split <;> rfl
    · rfl

theorem runMicro_run (m : Micro) (l : Locals) (s : State) (body : List Micro) (l' : Locals) (t : State)
    (h : runMicro m l s = .ok (body, l', t)) : MicroRun m l s body l' t := by
  cases m <;> simp only [runMicro, onPort] at h
  case loadWord i =>
    split at h
    · injection h with h; injection h with h1 h; injection h with h2 h3; subst h1 h2 h3
      exact ⟨Port.Extends.refl _, rfl, rfl, ⟨rfl, rfl, rfl, rfl, rfl⟩, fun _ h1 h2 h3 => ⟨h2, h3, rfl, h1⟩⟩
    · cases h
  all_goals injection h with h; injection h with h1 h; injection h with h2 h3; subst h1 h2 h3
  -- statements of the port
  case clkOe | clk | dioOe | dioOut | parityOut => exact MicroRun.of_port _ _ _ s _ (Port.setPins_extends _ _) rfl
  case pulseRise => exact MicroRun.of_port _ _ _ s _ (Port.pulseRise_extends _) rfl
  case sampleBit => exact MicroRun.of_port _ _ _ s _ (Port.sample_extends _) rfl
  case sampleTo dst =>
    exact MicroRun.of_port _ _ _ s _ (Port.sampleSlot_extends _) (by cases dst <;> rfl)
  case delay => exact MicroRun.of_port _ _ _ s _ (Port.delay_extends _ _) rfl
  -- writes of registers and of `WORDS`
  case resultFromBit | resultFromByte | dataFromWord | data =>
    exact ⟨Port.Extends.refl _, rfl, rfl, ⟨rfl, rfl, rfl, rfl, rfl⟩, fun _ h1 h2 h3 => ⟨h2, h3, rfl, h1⟩⟩
  case ackFromCode =>
    exact ⟨Port.Extends.refl _, rfl, rfl, ⟨rfl, rfl, rfl, rfl, rfl⟩,
      fun _ h1 h2 h3 => ⟨⟨h1, h2.2.1, h2.2.2.1, h2.2.2.2⟩, h3, rfl, h1⟩⟩
  case accumFromCode =>
    refine ⟨Port.Extends.refl _, rfl, rfl, ⟨rfl, rfl, rfl, rfl, rfl⟩,
      fun _ h1 h2 h3 => ⟨⟨h2.1, ?_, h2.2.2.1, h2.2.2.2⟩, h3, rfl, h1⟩⟩
    show (accumulate s.accum l.code).toNat ≤ 8
    unfold accumulate; split
    · exact h2.2.1
    · exact h1
  case accumOk =>
    exact ⟨Port.Extends.refl _, rfl, rfl, ⟨rfl, rfl, rfl, rfl, rfl⟩,
      fun _ h1 h2 h3 => ⟨⟨h2.1, (by decide : resultOk.toNat ≤ 8), h2.2.2.1, h2.2.2.2⟩, h3, rfl, h1⟩⟩
  case storeWord i =>
    exact ⟨Port.Extends.refl _, rfl, rfl, ⟨rfl, rfl, rfl, rfl, rfl⟩,
      fun h0 h1 h2 h3 => ⟨h2, Memory.wf_write _ _ _ (by simpa [Micro.legal] using h0) h3, rfl, h1⟩⟩
  case statusFromAccum =>
    exact ⟨Port.Extends.refl _, rfl, rfl, ⟨rfl, rfl, rfl, rfl, rfl⟩,
      fun _ h1 h2 h3 => ⟨⟨h2.1, h2.2.1, Or.inl (mapStatus_toNat_le _), h2.2.2.2⟩, h3, rfl, h1⟩⟩
  case link v =>
    exact ⟨Port.Extends.refl _, rfl, rfl, ⟨rfl, rfl, rfl, rfl, rfl⟩,
      fun h0 h1 h2 h3 => ⟨⟨h2.1, h2.2.1, h2.2.2.1, by simpa [Micro.legal] using h0⟩, h3, rfl, h1⟩⟩
  case linkFromCode =>
    exact ⟨Port.Extends.refl _, rfl, rfl, ⟨rfl, rfl, rfl, rfl, rfl⟩,
      fun _ h1 h2 h3 => ⟨⟨h2.1, h2.2.1, h2.2.2.1, linkAfter_legal _⟩, h3, rfl, h1⟩⟩
  -- statements that stand for others
  case moveRead h i n =>
    refine MicroRun.of_body _ _ _ s _ (fun h0 => ?_) id
    simp only [Micro.legal, decide_eq_true_eq] at h0
    split
    · simp [Micro.legal, h0]; omega
    · rfl
  case moveWrite h i n =>
    refine MicroRun.of_body _ _ _ s _ (fun h0 => ?_) id
    simp only [Micro.legal, decide_eq_true_eq] at h0
    split
    · simp [Micro.legal, h0]; omega
    · rfl
  case afterAck req a n => exact MicroRun.of_body _ _ _ s _ (fun _ => afterAckBody_legal _ _ _ _) (fun _ => ack_toNat_le _)
  case checkParity =>
    refine MicroRun.of_body _ _ _ s _ (fun _ => rfl) (fun _ => ?_)
    show (readResult _ _).toNat ≤ 8
    unfold readResult; split <;> decide
  all_goals exact MicroRun.of_body _ _ _ s _ (fun _ => by first | rfl | (split <;> rfl)) id

/-- The pseudocode of every instruction is legal (R61, R172). -/
theorem program_legal (i : Instr) : (program i).all Micro.legal = true := by
  cases i
  case dapMove c d f =>
    have := c.isLt
    have h1 : moveLength c ≤ wordsDepth := by simp only [moveLength, wordsDepth]; omega
    have h2 : moveLength c - 1 < wordsDepth := by simp only [moveLength, wordsDepth]; omega
    simp only [program, moveProgram]
    split
    · split <;> simp [Micro.legal, h1, h2]; omega
    · split <;> simp [Micro.legal, h1]
  all_goals rfl

end Sys2Proof.Machine
end

