-- ==== Sys2Proof/Laws/PerInstr.lean ====
section
/-! SUPPORT. One law per instruction, for every value of its operands: its encoding falls under its own row of the opcode table (R83, R90). -/

namespace Sys2Proof.Laws.TableRow
open Sys2Proof

/-- A row of the opcode table: how many bits, the match and the mask. -/
structure Entry where
  nbits : Nat
  pattern : Nat
  mask : Nat
  deriving DecidableEq, Repr

/-- The row of each instruction, as spec/opcode_table.json has it. -/
def entry : Instr → Entry
  | .setClock _ => ⟨32, 0x00000001, 0xFFFFFEFF⟩
  | .setData _ => ⟨32, 0x00000002, 0xFFFFFEFF⟩
  | .readData => ⟨32, 0x00000003, 0xFFFFFFFF⟩
  | .setDir _ => ⟨32, 0x00000004, 0xFFFFFEFF⟩
  | .shiftOut _ => ⟨32, 0x00000005, 0xFFFF00FF⟩
  | .shiftIn => ⟨32, 0x00000006, 0xFFFFFFFF⟩
  | .shiftReset => ⟨32, 0x00000007, 0xFFFFFFFF⟩
  | .shiftPacket _ _ => ⟨32, 0x00000008, 0xFF0000FF⟩
  | .dapMove _ _ _ => ⟨32, 0x00000009, 0xFEFF000F⟩
  | .connect => ⟨32, 0x0000000A, 0xFFFFFFFF⟩
  | .lineReset => ⟨32, 0x0000000B, 0xFFFFFFFF⟩
  | .disconnect => ⟨32, 0x0000000C, 0xFFFFFFFF⟩
  | .clearErrors => ⟨32, 0x0000000D, 0xFFFFFFFF⟩
  | .reqDpAbortWr => ⟨8, 0x81, 0xFF⟩
  | .reqAp0Wr => ⟨8, 0xA3, 0xFF⟩
  | .reqDpIdcodeRd => ⟨8, 0xA5, 0xFF⟩
  | .reqAp0Rd => ⟨8, 0x87, 0xFF⟩
  | .reqDpCtrlstatWr => ⟨8, 0xA9, 0xFF⟩
  | .reqAp4Wr => ⟨8, 0x8B, 0xFF⟩
  | .reqDpCtrlstatRd => ⟨8, 0x8D, 0xFF⟩
  | .reqAp4Rd => ⟨8, 0xAF, 0xFF⟩
  | .reqDpSelectWr => ⟨8, 0xB1, 0xFF⟩
  | .reqAp8Wr => ⟨8, 0x93, 0xFF⟩
  | .reqDapA => ⟨8, 0x95, 0xFF⟩
  | .reqAp8Rd => ⟨8, 0xB7, 0xFF⟩
  | .reqDapC => ⟨8, 0x99, 0xFF⟩
  | .reqApCWr => ⟨8, 0xBB, 0xFF⟩
  | .reqDpRdbuffRd => ⟨8, 0xBD, 0xFF⟩
  | .reqApCRd => ⟨8, 0x9F, 0xFF⟩

/-- The encoding of `i` has its row's width and, masked, its row's match. -/
def Statement (i : Instr) : Prop :=
  match encode i with
  | .cmd32 w => (entry i).nbits = 32 ∧ w &&& BitVec.ofNat 32 (entry i).mask = BitVec.ofNat 32 (entry i).pattern
  | .request8 b => (entry i).nbits = 8 ∧ b &&& BitVec.ofNat 8 (entry i).mask = BitVec.ofNat 8 (entry i).pattern

/-- A command word is under a row when each bit the mask keeps is the match's. -/
theorem masked (w : Word) (mask pattern : Nat)
    (h : ∀ j, j < 32 → (w.getLsbD j && (BitVec.ofNat 32 mask).getLsbD j) = (BitVec.ofNat 32 pattern).getLsbD j) :
    w &&& BitVec.ofNat 32 mask = BitVec.ofNat 32 pattern := by
  apply BitVec.eq_of_getLsbD_eq
  intro j hj
  rw [BitVec.getLsbD_and, h j hj]

theorem setClock (l : Bool) : Statement (.setClock l) := by cases l <;> exact ⟨rfl, rfl⟩
theorem setData (l : Bool) : Statement (.setData l) := by cases l <;> exact ⟨rfl, rfl⟩
theorem readData : Statement .readData := ⟨rfl, rfl⟩
theorem setDir (l : Bool) : Statement (.setDir l) := by cases l <;> exact ⟨rfl, rfl⟩
theorem shiftOut (b : Byte) : Statement (.shiftOut b) :=
  ⟨rfl, masked _ _ _ (fun j hj => by rw [getLsbD_cmdWord]; interval_cases j <;> simp [entry])⟩
theorem shiftIn : Statement .shiftIn := ⟨rfl, rfl⟩
theorem shiftReset : Statement .shiftReset := ⟨rfl, rfl⟩
theorem shiftPacket (q r : Byte) : Statement (.shiftPacket q r) :=
  ⟨rfl, masked _ _ _ (fun j hj => by rw [getLsbD_cmdWord]; interval_cases j <;> simp [entry])⟩
theorem dapMove (c : Byte) (d : DapAddr) (f : Bool) : Statement (.dapMove c d f) :=
  ⟨rfl, masked _ _ _ (fun j hj => by rw [getLsbD_cmdWord]; interval_cases j <;> simp [entry])⟩
theorem connect : Statement .connect := ⟨rfl, rfl⟩
theorem lineReset : Statement .lineReset := ⟨rfl, rfl⟩
theorem disconnect : Statement .disconnect := ⟨rfl, rfl⟩
theorem clearErrors : Statement .clearErrors := ⟨rfl, rfl⟩
theorem reqDpAbortWr : Statement .reqDpAbortWr := ⟨rfl, rfl⟩
theorem reqAp0Wr : Statement .reqAp0Wr := ⟨rfl, rfl⟩
theorem reqDpIdcodeRd : Statement .reqDpIdcodeRd := ⟨rfl, rfl⟩
theorem reqAp0Rd : Statement .reqAp0Rd := ⟨rfl, rfl⟩
theorem reqDpCtrlstatWr : Statement .reqDpCtrlstatWr := ⟨rfl, rfl⟩
theorem reqAp4Wr : Statement .reqAp4Wr := ⟨rfl, rfl⟩
theorem reqDpCtrlstatRd : Statement .reqDpCtrlstatRd := ⟨rfl, rfl⟩
theorem reqAp4Rd : Statement .reqAp4Rd := ⟨rfl, rfl⟩
theorem reqDpSelectWr : Statement .reqDpSelectWr := ⟨rfl, rfl⟩
theorem reqAp8Wr : Statement .reqAp8Wr := ⟨rfl, rfl⟩
theorem reqDapA : Statement .reqDapA := ⟨rfl, rfl⟩
theorem reqAp8Rd : Statement .reqAp8Rd := ⟨rfl, rfl⟩
theorem reqDapC : Statement .reqDapC := ⟨rfl, rfl⟩
theorem reqApCWr : Statement .reqApCWr := ⟨rfl, rfl⟩
theorem reqDpRdbuffRd : Statement .reqDpRdbuffRd := ⟨rfl, rfl⟩
theorem reqApCRd : Statement .reqApCRd := ⟨rfl, rfl⟩

end Sys2Proof.Laws.TableRow
end

