-- ==== Sys2Proof/Laws/Step.lean ====
section
/-! SUPPORT. What the parts of a step do: instructions, one statement of a running command, reset, host reads. -/

namespace Sys2Proof.Machine

/-- An instruction issued while idle keeps the invariant (R93, R95, R99, U11). -/
theorem exec_inv (i : Instr) (s t : State) (hI : s.Inv) (hb : s.busy = false) (h : exec i s = .next t) : t.Inv := by
  obtain ⟨⟨h1, h2, h3, h4⟩, h5, h6, h7⟩ := hI
  have hr := exec_run i s t h
  obtain ⟨u, hu, ht⟩ := hr.run
  have hpos : t.pos = s.pos := by
    rw [ht]; show u.pos = s.pos; rw [hu.pos]; split <;> rfl
  have hbusy : t.busy = false := by rw [ht]
  have hstatus : t.status = if writesStatus i then mapStatus u.accum else s.status := by
    rw [ht]; cases hw : writesStatus i <;> simp [hw] at hu ⊢; exact hu.status
  refine ⟨⟨?_, ?_, ?_, hr.linkLegal h4⟩, ?_, ?_, by rw [hpos]; exact h7⟩
  · rw [ht]; exact hu.ack (by split <;> exact h1)
  · rw [ht]; refine hu.accum ?_; split
    · exact (by decide : resultOk.toNat ≤ 8)
    · exact h2
  · rw [hstatus]; split
    · exact Or.inl (mapStatus_toNat_le _)
    · exact h3
  · rw [ht]; exact hu.wf (fun j hj => storedBy_lt i j hj) (by split <;> exact h5)
  · simp only [State.BusyIffRunning, hbusy, hpos, true_iff]; exact h6.mp hb

/-- An instruction only extends the wire (R11, R73). -/
theorem exec_extends (i : Instr) (s t : State) (h : exec i s = .next t) : s.port.Extends t.port := by
  obtain ⟨u, hu, ht⟩ := (exec_run i s t h).run
  have hp : (if writesStatus i then { s with accum := resultOk } else s).port = s.port := by split <;> rfl
  rw [ht, ← hp]; exact hu.port

/-- A step of the microsequencer only extends the wire. -/
theorem microStep_extends (s t : State) (h : microStep s = .next t) : s.port.Extends t.port := by
  have go : ∀ (todo : List Micro) (l : Locals) (u : State), (u.goOn todo l).port = u.port := by
    intro todo l u; cases todo <;> rfl
  unfold microStep at h
  split at h
  · injection h with h; subst h; exact Port.Extends.refl _
  · injection h with h; subst h; rw [go]; exact Port.Extends.refl _
  · split at h
    · rename_i hm
      injection h with h; subst h; rw [go]
      exact (runMicro_run _ _ _ _ _ _ hm).port
    · cases h

/-- A step of the microsequencer keeps the invariant (R31). -/
theorem microStep_inv (s t : State) (hI : s.Inv) (h : microStep s = .next t) : t.Inv := by
  unfold microStep at h
  split at h
  · injection h with h; subst h; exact hI
  · injection h with h; subst h
    exact ⟨hI.1, hI.2.1, by simp [State.BusyIffRunning, State.goOn], rfl⟩
  · rename_i m todo l hp
    split at h
    · rename_i body l' u hm
      injection h with h; subst h
      have hr := runMicro_run m l s body l' u hm
      have hleg := hI.2.2.2
      rw [hp] at hleg
      simp only [Position.legal, List.all_cons, Bool.and_eq_true, decide_eq_true_eq] at hleg
      obtain ⟨hc, hw, hb, hl⟩ := hr.legal hleg.1.1 hleg.2 hI.1 hI.2.1
      have hall : (body ++ todo).all Micro.legal = true := by
        simp only [List.all_append, hb, hleg.1.2, Bool.and_self]
      have hbusy : s.busy = true := by
        have := hI.2.2.1
        simpa [State.BusyIffRunning, hp] using this
      cases hbt : body ++ todo with
      | nil => exact ⟨hc, hw, by simp [State.BusyIffRunning, State.goOn], rfl⟩
      | cons a b =>
        rw [hbt] at hall
        exact ⟨hc, hw, by simp [State.BusyIffRunning, State.goOn, hr.busy, hbusy],
          by simp only [State.goOn, Position.legal, hall, hl]; rfl⟩
    · cases h

theorem blockReset_atReset (s : State) : s.blockReset.AtReset := by
  simp [State.AtReset, State.blockReset, State.reset, Pins.reset, Memory.read]

theorem blockReset_inv (s : State) : s.blockReset.Inv :=
  ⟨⟨(by decide : State.reset.ack.toNat ≤ 8), (by decide : State.reset.accum.toNat ≤ 8),
    Or.inl (by decide : State.reset.status.toNat ≤ 3), (by decide : State.reset.link ≠ 3#2)⟩, rfl,
    by simp [State.BusyIffRunning, State.blockReset, State.reset], rfl⟩

theorem blockReset_extends (s : State) : s.port.Extends s.blockReset.port := Port.setPins_extends _ _

/-- A host read that is answered touches the replies and their counter alone (R49). -/
theorem readReg_same (r : Option HostReg) (s t : State) (h : readReg r s = .next t) :
    ∃ v n, t = { s with replies := v :: s.replies, loose := n } := by
  unfold readReg at h
  split at h
  case h_4 | h_5 =>
    split at h
    · injection h with h; subst h; exact ⟨_, _, rfl⟩
    · injection h with h; subst h; exact ⟨_, s.loose, rfl⟩
  case h_7 =>
    split at h
    · injection h with h; subst h; exact ⟨_, _, rfl⟩
    · split at h
      · injection h with h; subst h; exact ⟨_, s.loose, rfl⟩
      · cases h
  all_goals injection h with h; subst h; exact ⟨_, s.loose, rfl⟩

/-- A named entry of `WORDS` is in the buffer (R39, R61). -/
theorem ofOffset_words (offset i : Nat) (h : HostReg.ofOffset offset = some (.words i)) :
    i < wordsDepth ∧ offset = 0x400 + 4 * i := by
  unfold HostReg.ofOffset at h
  repeat' split at h
  all_goals simp at h
  simp only [wordsDepth] at *; omega

theorem ofOffset_offset_words (i : Nat) (h : i < 256) : HostReg.ofOffset (0x400 + 4 * i) = some (.words i) := by
  have hd : wordsDepth = 256 := rfl
  have hp : 0x400 ≤ 0x400 + 4 * i ∧ 0x400 + 4 * i < 0x400 + 4 * wordsDepth ∧ (0x400 + 4 * i) % 4 = 0 := by
    rw [hd]; omega
  unfold HostReg.ofOffset
  rw [if_neg (by omega), if_neg (by omega), if_neg (by omega), if_neg (by omega), if_neg (by omega), if_pos hp]
  congr 2; omega

end Sys2Proof.Machine
end

