-- ==== Sys2Proof/Laws/Timing.lean ====
section
/-! SUPPORT. Only `Delay` takes time beyond the slots: the sum of a trace's delays through the routines (R151, R278). -/

namespace Sys2Proof.Machine

theorem delaySum_setPins (q : Pins) (p : Port) : delaySum (p.setPins q).trace = delaySum p.trace := by
  rw [Port.setPins_trace]; split <;> simp [delaySum, Event.cycles]

theorem delaySum_pulse (p : Port) : delaySum p.pulse.trace = delaySum p.trace :=
  (delaySum_setPins _ _).trans ((delaySum_setPins _ _).trans (delaySum_setPins _ p))

theorem delaySum_shiftOutFrom (b : Byte) (n i : Nat) (p : Port) :
    delaySum (Port.shiftOutFrom b n i p).trace = delaySum p.trace := by
  induction n generalizing i p with
  | zero => rfl
  | succ n ih => rw [Port.shiftOutFrom, ih, delaySum_pulse]; exact delaySum_setPins _ _

theorem delaySum_shiftOutByte (b : Byte) (p : Port) : delaySum (p.shiftOutByte b).trace = delaySum p.trace :=
  (delaySum_shiftOutFrom _ _ _ _).trans (delaySum_setPins _ _)

theorem delaySum_sampleSlot (p : Port) : delaySum p.sampleSlot.2.trace = delaySum p.trace := by
  simp [Port.sampleSlot, Port.sample, delaySum, Event.cycles]

theorem delaySum_readBit (p : Port) : delaySum p.readBit.2.trace = delaySum p.trace :=
  (delaySum_sampleSlot _).trans (delaySum_pulse p)

theorem delaySum_readBitsFrom {m : Nat} (n i : Nat) (v : BitVec m) (p : Port) :
    delaySum (Port.readBitsFrom n i v p).2.trace = delaySum p.trace := by
  induction n generalizing i v p with
  | zero => rfl
  | succ n ih => rw [Port.readBitsFrom, ih, delaySum_readBit]

theorem delaySum_shiftInByte (p : Port) : delaySum p.shiftInByte.2.trace = delaySum p.trace :=
  (delaySum_readBitsFrom 8 0 0x00#8 _).trans (delaySum_setPins _ p)

theorem delaySum_idlePulse (p : Port) : delaySum p.idlePulse.trace = delaySum p.trace :=
  (delaySum_pulse _).trans ((delaySum_setPins _ _).trans (delaySum_setPins _ p))

theorem delaySum_pulses (n : Nat) (p : Port) : delaySum (Port.pulses n p).trace = delaySum p.trace := by
  induction n generalizing p with
  | zero => rfl
  | succ n ih => rw [Port.pulses, ih, delaySum_pulse]

theorem delaySum_shiftResetSeq (p : Port) : delaySum p.shiftResetSeq.trace = delaySum p.trace :=
  (delaySum_pulses _ _).trans ((delaySum_setPins _ _).trans (delaySum_setPins _ p))

theorem delaySum_attempt (req : Byte) (p : Port) : delaySum (p.attempt req).2.trace = delaySum p.trace := by
  rw [Port.attempt, delaySum_readBitsFrom, delaySum_pulse, Port.setDioOe, delaySum_setPins, delaySum_shiftOutByte,
    delaySum_idlePulse]

theorem delaySum_delay (d : Nat) (p : Port) : delaySum (p.delay d).trace = delaySum p.trace + d := by
  unfold Port.delay
  by_cases h : 0 < d
  · simp [h, delaySum, Event.cycles]; omega
  · simp [show d = 0 by omega]

/-- One attempt of `more + 1`, answered WAIT: its delay, then the rest (R143). -/
theorem Port.attempts_wait (req : Byte) (more a : Nat) (p : Port) (h : (p.attempt req).1 = ackWait) :
    Port.attempts req (more + 1) a p =
      Port.attempts req more (a + 1) ((p.attempt req).2.delay (Config.waitDelay a (more + 1))) := by
  rw [Port.attempts]; simp [h]

/-- An attempt not answered WAIT is the last (R143). -/
theorem Port.attempts_last (req : Byte) (more a : Nat) (p : Port) (h : (p.attempt req).1 ≠ ackWait) :
    Port.attempts req more a p = p.attempt req := by
  cases more with
  | zero => rfl
  | succ n => rw [Port.attempts]; simp [h]

end Sys2Proof.Machine
end

