-- ==== Sys2Proof/Laws/Refine.lean ====
section
/-! SUPPORT. The slot level's statements, run to their end, do what the command level's routines do (R5): one lemma per routine. -/

namespace Sys2Proof.Machine

/-- Running the statements `todo` from `l` and `s` ends in `l'` and `t`. -/
inductive Runs : List Micro → Locals → State → Locals → State → Prop where
  | done (l : Locals) (s : State) : Runs [] l s l s
  | cons {m : Micro} {rest body : List Micro} {l l1 l2 : Locals} {s s1 s2 : State}
      (h : runMicro m l s = .ok (body, l1, s1)) (g : Runs (body ++ rest) l1 s1 l2 s2) : Runs (m :: rest) l s l2 s2

namespace Runs

variable {a b body : List Micro} {m : Micro} {l l1 l2 : Locals} {s s1 s2 : State}

theorem append (h : Runs a l s l1 s1) (g : Runs b l1 s1 l2 s2) : Runs (a ++ b) l s l2 s2 := by
  induction h with
  | done => exact g
  | cons h _ ih => exact .cons h (by have := ih g; rwa [List.append_assoc] at this)

theorem one (h : runMicro m l s = .ok ([], l1, s1)) : Runs [m] l s l1 s1 := .cons h (.done _ _)

theorem expand (h : runMicro m l s = .ok (body, l1, s1)) (g : Runs body l1 s1 l2 s2) : Runs [m] l s l2 s2 :=
  .cons h (by rw [List.append_nil]; exact g)

theorem head (h : Runs [m] l s l1 s1) (g : Runs b l1 s1 l2 s2) : Runs (m :: b) l s l2 s2 := h.append g

end Runs

/-- A statement that only changes the port. -/
abbrev DoesPort (m : Micro) (f : Port → Port) : Prop := ∀ l s, Runs [m] l s l { s with port := f s.port }

theorem does_clkOe (b : Bool) : DoesPort (.clkOe b) (Port.setClkOe b) := fun _ _ => .one rfl
theorem does_clk (b : Bool) : DoesPort (.clk b) (Port.setClk b) := fun _ _ => .one rfl
theorem does_dioOe (b : Bool) : DoesPort (.dioOe b) (Port.setDioOe b) := fun _ _ => .one rfl
theorem does_dioOut (b : Bool) : DoesPort (.dioOut b) (Port.setDioOut b) := fun _ _ => .one rfl

theorem does_pulse : DoesPort .pulse Port.pulse := fun l s =>
  .expand rfl ((does_clkOe true l s).head (.head (.one rfl) (does_clk false l _)))

theorem does_shiftOutFrom (b : Byte) (n i : Nat) (h : i + n = 8) :
    DoesPort (.shiftOutFrom b i) (Port.shiftOutFrom b n i) := by
  induction n generalizing i with
  | zero =>
    intro l s
    refine .one ?_
    simp only [runMicro]; rw [if_neg (by omega)]; rfl
  | succ n ih =>
    intro l s
    refine .expand (body := [.dioOut (b.getLsbD i), .pulse, .shiftOutFrom b (i + 1)]) (l1 := l) (s1 := s) ?_ ?_
    · simp only [runMicro]; rw [if_pos (by omega)]
    · exact (does_dioOut _ l s).head ((does_pulse l _).head (ih (i + 1) (by omega) l _))

/-- The body of `ShiftOutByte(b)` (R115). -/
theorem does_shiftOutBody (b : Byte) (l : Locals) (s : State) :
    Runs [.dioOe true, .shiftOutFrom b 0] l s l { s with port := s.port.shiftOutByte b } :=
  (does_dioOe true l s).head (does_shiftOutFrom b 8 0 rfl l _)

theorem does_shiftOutByte (b : Byte) : DoesPort (.shiftOutByte b) (Port.shiftOutByte b) := fun l s =>
  .expand rfl (does_shiftOutBody b l s)

theorem does_idlePulse : DoesPort .idlePulse Port.idlePulse := fun l s =>
  .expand rfl ((does_dioOe true l s).head ((does_dioOut false l _).head (does_pulse l _)))

theorem does_pulses (n k : Nat) (h : k + n = lineResetPulses) : DoesPort (.pulses k) (Port.pulses n) := by
  induction n generalizing k with
  | zero =>
    intro l s
    refine .one ?_
    simp only [runMicro]; rw [if_neg (by omega)]; rfl
  | succ n ih =>
    intro l s
    refine .expand (body := [.pulse, .pulses (k + 1)]) (l1 := l) (s1 := s) ?_ ?_
    · simp only [runMicro]; rw [if_pos (by omega)]
    · exact (does_pulse l s).head (ih (k + 1) (by omega) l _)

theorem does_shiftResetSeq : DoesPort .shiftResetSeq Port.shiftResetSeq := fun l s =>
  .expand rfl ((does_dioOut true l s).head ((does_dioOe true l _).head (does_pulses _ 0 (Nat.zero_add _) l _)))

theorem does_idleLines : DoesPort .idleLines Port.idleLines := fun l s =>
  .expand rfl ((does_clkOe true l s).head ((does_clk false l _).head ((does_dioOe true l _).head (does_dioOut false l _))))

/-- Two bytes in a row. -/
theorem does_twoBytes (a b : Byte) (l : Locals) (s : State) :
    Runs [.shiftOutByte a, .shiftOutByte b] l s l
      { s with port := (s.port.shiftOutByte a).shiftOutByte b } := by
  have h := does_shiftOutByte a l s
  generalize s.port.shiftOutByte a = p at *
  exact h.head (does_shiftOutByte b l { s with port := p })

theorem does_jtagToSwd : DoesPort .jtagToSwd Port.jtagToSwd := by
  intro l s; unfold Port.jtagToSwd; exact .expand rfl (does_twoBytes _ _ l s)

theorem does_swdToJtag : DoesPort .swdToJtag Port.swdToJtag := by
  intro l s; unfold Port.swdToJtag; exact .expand rfl (does_twoBytes _ _ l s)

/-! ### Sampling routines -/

theorem does_readBit (dst : SampleTo) (l : Locals) (s : State) :
    Runs [.readBit dst] l s (l.put dst s.port.readBit.1) { s with port := s.port.readBit.2 } :=
  .expand rfl ((does_pulse l s).head (.one rfl))

theorem does_shiftInFrom (n i : Nat) (h : i + n = 8) (l : Locals) (s : State) :
    Runs [.shiftInFrom i] l s { l with byte := (Port.readBitsFrom n i l.byte s.port).1 }
      { s with port := (Port.readBitsFrom n i l.byte s.port).2 } := by
  induction n generalizing i l s with
  | zero =>
    refine .one ?_
    simp only [runMicro]; rw [if_neg (by omega)]; rfl
  | succ n ih =>
    refine .expand (body := [.pulse, .sampleTo (.byteBit i), .shiftInFrom (i + 1)]) (l1 := l) (s1 := s) ?_ ?_
    · simp only [runMicro]; rw [if_pos (by omega)]
    · exact (does_pulse l s).head (.head (.one rfl) (ih (i + 1) (by omega) _ _))

theorem does_shiftInByte (l : Locals) (s : State) :
    Runs [.shiftInByte] l s { l with byte := s.port.shiftInByte.1 } { s with port := s.port.shiftInByte.2 } :=
  .expand rfl ((does_dioOe false l s).head (.head (.one rfl) (does_shiftInFrom 8 0 rfl { l with byte := 0x00#8 } _)))

theorem does_ackFrom (n i : Nat) (h : i + n = 3) (l : Locals) (s : State) :
    Runs [.ackFrom i] l s { l with ack := (Port.readBitsFrom n i l.ack s.port).1 }
      { s with port := (Port.readBitsFrom n i l.ack s.port).2 } := by
  induction n generalizing i l s with
  | zero =>
    refine .one ?_
    simp only [runMicro]; rw [if_neg (by omega)]; rfl
  | succ n ih =>
    refine .expand (body := [.readBit (.ackBit i), .ackFrom (i + 1)]) (l1 := l) (s1 := s) ?_ ?_
    · simp only [runMicro]; rw [if_pos (by omega)]
    · exact (does_readBit _ l s).head (ih (i + 1) (by omega) _ _)

theorem does_readByteFrom (n k : Nat) (h : k + n = 4) (l : Locals) (s : State) :
    ∃ b, Runs [.readByteFrom k] l s { l with byte := b, word := (Port.readBytesFrom n k l.word s.port).1 }
      { s with port := (Port.readBytesFrom n k l.word s.port).2 } := by
  induction n generalizing k l s with
  | zero =>
    refine ⟨l.byte, .one ?_⟩
    simp only [runMicro]; rw [if_neg (by omega)]; rfl
  | succ n ih =>
    obtain ⟨b, hb⟩ := ih (k + 1) (by omega)
      { l with byte := s.port.shiftInByte.1, word := setByte l.word k s.port.shiftInByte.1 }
      { s with port := s.port.shiftInByte.2 }
    refine ⟨b, .expand (body := [.shiftInByte, .wordByte k, .readByteFrom (k + 1)]) (l1 := l) (s1 := s) ?_ ?_⟩
    · simp only [runMicro]; rw [if_pos (by omega)]
    · have h1 := does_shiftInByte l s
      rw [Port.readBytesFrom]
      generalize s.port.shiftInByte = r at *
      exact h1.head (.head (.one rfl) hb)

theorem does_writeByteFrom (n k : Nat) (h : k + n = 4) (l : Locals) (s : State) :
    Runs [.writeByteFrom k] l s l { s with port := Port.writeBytesFrom s.data n k s.port } := by
  induction n generalizing k s with
  | zero =>
    refine .one ?_
    simp only [runMicro]; rw [if_neg (by omega)]; rfl
  | succ n ih =>
    refine .expand (body := [.dataByteOut k, .writeByteFrom (k + 1)]) (l1 := l) (s1 := s) ?_ ?_
    · simp only [runMicro]; rw [if_pos (by omega)]
    · have h1 : Runs [.dataByteOut k] l s l { s with port := s.port.shiftOutByte (byteAt s.data k) } :=
        .expand rfl (does_shiftOutBody _ l s)
      rw [Port.writeBytesFrom]
      have h2 := ih (k + 1) (by omega) { s with port := s.port.shiftOutByte (byteAt s.data k) }
      generalize s.port.shiftOutByte (byteAt s.data k) = q at *
      exact h1.head h2

/-! ### The packet framer -/

/-- One attempt leaves the acknowledge in the locals (R144). -/
theorem does_attempt (req : Byte) (l : Locals) (s : State) :
    ∃ l', l'.ack = (s.port.attempt req).1 ∧
      Runs [.idlePulse, .shiftOutByte req, .dioOe false, .pulse, .clearAck, .ackFrom 0] l s l'
        { s with port := (s.port.attempt req).2 } := by
  unfold Port.attempt
  have h1 := does_idlePulse l s
  generalize s.port.idlePulse = p1 at *
  have h2 := does_shiftOutByte req l { s with port := p1 }
  dsimp only at h2
  generalize p1.shiftOutByte req = p2 at *
  have h3 := does_dioOe false l { s with port := p2 }
  dsimp only at h3
  generalize p2.setDioOe false = p3 at *
  have h4 := does_pulse l { s with port := p3 }
  dsimp only at h4
  generalize p3.pulse = p4 at *
  have h5 : Runs [.clearAck] l { s with port := p4 } { l with ack := 0b000#3 } { s with port := p4 } := .one rfl
  have h6 := does_ackFrom 3 0 rfl { l with ack := 0b000#3 } { s with port := p4 }
  dsimp only at h6
  generalize Port.readBitsFrom 3 0 (0b000#3) p4 = r at *
  exact ⟨_, rfl, h1.head (h2.head (h3.head (h4.head (h5.head h6))))⟩

/-- Steps 7 and 8 (R148, R149). -/
theorem does_packetEnd (l : Locals) (s : State) : Runs packetEnd l s l (s.endPacket l.code) := by
  have h1 := does_idlePulse l s
  unfold State.endPacket
  generalize s.port.idlePulse = p at *
  exact h1.head (.head (.one rfl) (.one rfl))

/-- What follows the last acknowledge: the data phase and the end (R145 to R149). -/
theorem does_dataPhase (req : Byte) (ack : AckBits) (a n : Nat) (hend : ¬ (ack = ackWait ∧ a < n)) (l : Locals)
    (s : State) (hl : l.code = ack.setWidth 4) :
    ∃ l', l'.code = (dataPhase req (ack.setWidth 4) s).1 ∧
      Runs (afterAckBody req a n ack) l s l'
        ((dataPhase req (ack.setWidth 4) s).2.endPacket (dataPhase req (ack.setWidth 4) s).1) := by
  unfold afterAckBody dataPhase
  rw [if_neg hend]
  by_cases hok : (ack.setWidth 4 : PacketResult) = resultOk
  · rw [if_pos hok, if_pos hok]
    by_cases hr : headerIsRead req = true
    · rw [if_pos hr, if_pos hr]
      have h1 : Runs [.clearWord] l s { l with word := 0x00000000#32 } s := .one rfl
      obtain ⟨b, h2⟩ := does_readByteFrom 4 0 rfl { l with word := 0x00000000#32 } s
      dsimp only at h2
      have hph : s.port.readPhase = ((Port.readBytesFrom 4 0 0x00000000#32 s.port).1,
        (Port.readBytesFrom 4 0 0x00000000#32 s.port).2.readBit) := rfl
      rw [hph]
      generalize Port.readBytesFrom 4 0 0x00000000#32 s.port = r at *
      have h3 := does_readBit .parity { l with byte := b, word := r.1 } { s with port := r.2 }
      dsimp only [Locals.put] at h3
      generalize r.2.readBit = q at *
      have h4 : Runs [.dataFromWord] { l with byte := b, word := r.1, parity := q.1 } { s with port := q.2 }
          { l with byte := b, word := r.1, parity := q.1 } { s with port := q.2, data := r.1 } := .one rfl
      have h5 : Runs [.checkParity] { l with byte := b, word := r.1, parity := q.1 } { s with port := q.2, data := r.1 }
          { l with byte := b, word := r.1, parity := q.1, code := readResult r.1 q.1 }
          { s with port := q.2, data := r.1 } := .one rfl
      have h6 := does_packetEnd { l with byte := b, word := r.1, parity := q.1, code := readResult r.1 q.1 }
        { s with port := q.2, data := r.1 }
      exact ⟨_, rfl, h1.head (h2.head (h3.head (h4.head (h5.head h6))))⟩
    · rw [if_neg hr, if_neg hr]
      refine ⟨l, hl, ?_⟩
      have h1 := does_dioOe true l s
      unfold Port.writePhase
      generalize s.port.setDioOe true = p1 at *
      have h2 := does_pulse l { s with port := p1 }
      dsimp only at h2
      generalize p1.pulse = p2 at *
      have h3 := does_writeByteFrom 4 0 rfl l { s with port := p2 }
      dsimp only at h3
      generalize Port.writeBytesFrom s.data 4 0 p2 = p3 at *
      have h4 : Runs [.parityOut] l { s with port := p3 } l { s with port := p3.setDioOut (parity s.data) } := .one rfl
      generalize p3.setDioOut (parity s.data) = p4 at *
      have h5 := does_pulse l { s with port := p4 }
      dsimp only at h5
      generalize p4.pulse = p5 at *
      have h6 := does_packetEnd l { s with port := p5 }
      rw [hl] at h6
      exact h1.head (h2.head (h3.head (h4.head (h5.head h6))))
  · rw [if_neg hok, if_neg hok]
    have h := does_packetEnd l s
    rw [hl] at h
    exact ⟨l, hl, h⟩

/-- From attempt `a` of `n` to the end of the packet (R143). -/
theorem does_attempts (req : Byte) (n more a : Nat) (ha : a + more = n) (l : Locals) (s : State) :
    ∃ l', l'.code = (dataPhase req ((Port.attempts req more a s.port).1.setWidth 4)
          { s with port := (Port.attempts req more a s.port).2 }).1 ∧
      Runs [.attempt req a n] l s l'
        ((dataPhase req ((Port.attempts req more a s.port).1.setWidth 4)
            { s with port := (Port.attempts req more a s.port).2 }).2.endPacket
          (dataPhase req ((Port.attempts req more a s.port).1.setWidth 4)
            { s with port := (Port.attempts req more a s.port).2 }).1) := by
  induction more generalizing a l s with
  | zero =>
    obtain ⟨l1, hack, h1⟩ := does_attempt req l s
    have hat : Port.attempts req 0 a s.port = s.port.attempt req := rfl
    rw [hat]
    generalize s.port.attempt req = r at *
    rw [← hack] at *
    obtain ⟨l2, hc, h2⟩ := does_dataPhase req l1.ack a n (by omega) { l1 with code := l1.ack.setWidth 4 }
      { s with port := r.2 } rfl
    exact ⟨l2, hc, .expand rfl (h1.append (b := [.afterAck req a n]) (.expand rfl h2))⟩
  | succ more ih =>
    obtain ⟨l1, hack, h1⟩ := does_attempt req l s
    by_cases hw : (s.port.attempt req).1 = ackWait
    · rw [Port.attempts_wait _ _ _ _ hw]
      have hd : ∀ u : State, Runs [.delay a (n - a)] { l1 with code := l1.ack.setWidth 4 } u
          { l1 with code := l1.ack.setWidth 4 } { u with port := u.port.delay (Config.waitDelay a (n - a)) } :=
        fun u => .one rfl
      have hna : n - a = more + 1 := by omega
      rw [hna] at hd
      have h2 := hd { s with port := (s.port.attempt req).2 }
      dsimp only at h2
      generalize hq : (s.port.attempt req).2.delay (Config.waitDelay a (more + 1)) = q at *
      obtain ⟨l2, hc, h3⟩ := ih (a + 1) (by omega) { l1 with code := l1.ack.setWidth 4 } { s with port := q }
      refine ⟨l2, hc, .expand rfl (h1.append (b := [.afterAck req a n]) (.expand
        (body := [.delay a (n - a), .attempt req (a + 1) n]) (l1 := { l1 with code := l1.ack.setWidth 4 })
        (s1 := { s with port := (s.port.attempt req).2 }) ?_ ?_))⟩
      · simp only [runMicro, afterAckBody]
        rw [if_pos ⟨hack.trans hw, by omega⟩]
      · rw [hna]; exact h2.head h3
    · rw [Port.attempts_last _ _ _ _ hw]
      generalize s.port.attempt req = r at *
      rw [← hack] at *
      obtain ⟨l2, hc, h2⟩ := does_dataPhase req l1.ack a n (fun h => hw h.1) { l1 with code := l1.ack.setWidth 4 }
        { s with port := r.2 } rfl
      exact ⟨l2, hc, .expand rfl (h1.append (b := [.afterAck req a n]) (.expand rfl h2))⟩

/-- A packet, run statement by statement, is `shiftPacket`; its result is left in the locals (R141). -/
theorem does_shiftPacket (req retry : Byte) (l : Locals) (s : State) :
    ∃ l', l'.code = (shiftPacket req retry s).1 ∧ Runs [.shiftPacket req retry] l s l' (shiftPacket req retry s).2 := by
  obtain ⟨l', hc, h⟩ := does_attempts req (attemptLimit retry) (attemptLimit retry - 1) 1
    (by have := attemptLimit_pos retry; omega) l s
  exact ⟨l', hc, .expand rfl h⟩

/-! ### The loops of a move -/

/-- The read loop of a move (R173). -/
theorem does_moveRead (h : Byte) (n : Nat) (k i : Nat) (hk : i + k = n) (l : Locals) (s : State) :
    ∃ l', Runs [.moveRead h i n] l s l' (readWords h k i s) := by
  induction k generalizing i l s with
  | zero =>
    refine ⟨l, .one ?_⟩
    simp only [runMicro]; rw [if_neg (by omega)]; rfl
  | succ k ih =>
    obtain ⟨l1, _, h1⟩ := does_shiftPacket h 0x00#8 l s
    rw [readWords, movePacket]
    generalize (shiftPacket h 0x00#8 s).2 = u at *
    obtain ⟨l2, h2⟩ := ih (i + 1) (by omega) l1 (u.writeWord i u.data)
    refine ⟨l2, .expand (body := [.shiftPacket h 0x00#8, .storeWord i, .moveRead h (i + 1) n]) (l1 := l) (s1 := s) ?_ ?_⟩
    · simp only [runMicro]; rw [if_pos (by omega)]
    · exact h1.head (.head (.one rfl) h2)

/-- The write loop of a move whose entries are all written (R174). -/
theorem does_moveWrite (h : Byte) (n : Nat) (k i : Nat) (hk : i + k = n) (l : Locals) (s : State)
    (ws : List Word) (hg : Memory.gather s.words k i = .ok ws) :
    ∃ l', Runs [.moveWrite h i n] l s l' (writeWords h ws s) := by
  induction k generalizing i l s ws with
  | zero =>
    cases hg
    refine ⟨l, .one ?_⟩
    simp only [runMicro]; rw [if_neg (by omega)]; rfl
  | succ k ih =>
    unfold Memory.gather at hg
    cases hr : Memory.read s.words i with
    | none => simp [hr] at hg
    | some w =>
      cases hg2 : Memory.gather s.words k (i + 1) with
      | error j => simp [hr, hg2] at hg
      | ok vs =>
        simp [hr, hg2] at hg; subst hg
        obtain ⟨l1, _, h1⟩ := does_shiftPacket h 0x00#8 l { s with data := w }
        rw [writeWords, movePacket]
        have hw := shiftPacket_words h 0x00#8 { s with data := w }
        generalize (shiftPacket h 0x00#8 { s with data := w }).2 = u at *
        obtain ⟨l2, h2⟩ := ih (i + 1) (by omega) l1 u vs (by rw [hw]; exact hg2)
        refine ⟨l2, .expand (body := [.loadWord i, .shiftPacket h 0x00#8, .moveWrite h (i + 1) n]) (l1 := l) (s1 := s) ?_ ?_⟩
        · simp only [runMicro]; rw [if_pos (by omega)]
        · exact .head (.one (by simp only [runMicro, hr])) (h1.head h2)

/-! ### The microsequencer -/

/-- A statement does not see `BUSY`, the position or the surroundings it leaves alone. -/
theorem runMicro_position (m : Micro) (l : Locals) (s : State) (b : Bool) (p : Position) :
    runMicro m l { s with busy := b, pos := p } =
      match runMicro m l s with
      | .ok (body, l', t) => .ok (body, l', { t with busy := b, pos := p })
      | .error f => .error f := by
  cases m <;> try rfl
  simp only [runMicro]
  cases Memory.read s.words _ <;> rfl

/-- A running block without pending inputs: one step is one statement (R31). -/
theorem step_running (s : State) (todo : List Micro) (l : Locals) (hr : s.rstN = true) (hi : s.inputs = []) :
    step { s with busy := true, pos := .running todo l } = microStep { s with busy := true, pos := .running todo l } := by
  simp [step, stepAgents, hr, hi]

theorem run_next (k : Nat) (s u : State) (h : step s = .next u) :
    Host.Core.run Sys2Proof.core (k + 1) s = Host.Core.run Sys2Proof.core k u := by
  have e : Sys2Proof.core.step s = .next u := h
  simp only [Host.Core.run, e]

theorem run_fault (k : Nat) (s : State) (f : Fault) (h : step s = .fault f) :
    Host.Core.run Sys2Proof.core (k + 1) s = .fault f := by
  have e : Sys2Proof.core.step s = .fault f := h
  simp only [Host.Core.run, e]

/-- Statements that run to their end, run by the machine: `BUSY` drops and the position is idle (R35, R85). -/
theorem run_of_runs (todo : List Micro) (l l' : Locals) (s t : State) (h : Runs todo l s l' t) (hr : s.rstN = true)
    (hi : s.inputs = []) :
    ∃ n, Host.Core.run Sys2Proof.core n { s with busy := true, pos := .running todo l } =
      .next { t with busy := false, pos := .idle } := by
  induction h with
  | done l s => exact ⟨1, run_next 0 _ _ (by rw [step_running s [] l hr hi]; rfl)⟩
  | @cons m rest body l l1 l2 s s1 s2 h g ih =>
    have hs := (runMicro_run m l s body l1 s1 h).surroundings
    obtain ⟨n, hn⟩ := ih (hs.1.trans hr) (hs.2.1.trans hi)
    have hstep : step { s with busy := true, pos := .running (m :: rest) l } =
        .next (State.goOn (body ++ rest) l1 { s1 with busy := true, pos := .running (m :: rest) l }) := by
      rw [step_running s _ l hr hi]
      simp only [microStep, runMicro_position, h]
    cases hb : body ++ rest with
    | nil =>
      rw [hb] at g hstep
      cases g
      exact ⟨1, run_next 0 _ _ hstep⟩
    | cons x y =>
      rw [hb] at hn hstep
      exact ⟨n + 1, (run_next n _ _ hstep).trans hn⟩

/-- Statements that run up to one that faults stop the machine with its fault (R174). -/
theorem run_of_runs_fault (todo : List Micro) (m : Micro) (rest : List Micro) (l l' : Locals) (s t : State) (f : Fault)
    (h : Runs todo l s l' t) (hf : runMicro m l' t = .error f) (hr : s.rstN = true) (hi : s.inputs = []) :
    ∃ n, Host.Core.run Sys2Proof.core n { s with busy := true, pos := .running (todo ++ m :: rest) l } = .fault f := by
  induction h with
  | done l s =>
    refine ⟨1, run_fault 0 _ _ ?_⟩
    rw [List.nil_append, step_running s _ l hr hi]
    simp only [microStep, runMicro_position, hf]
  | @cons m' rest' body l l1 l2 s s1 s2 h _ ih =>
    have hs := (runMicro_run m' l s body l1 s1 h).surroundings
    obtain ⟨n, hn⟩ := ih hf (hs.1.trans hr) (hs.2.1.trans hi)
    refine ⟨n + 1, (run_next n _ _ ?_).trans hn⟩
    rw [List.cons_append, step_running s _ l hr hi]
    simp only [microStep, runMicro_position, h]
    cases hb : body ++ (rest' ++ m :: rest) with
    | nil => simp at hb
    | cons x y => rw [List.append_assoc, hb]; rfl

/-- From an idle block without pending inputs, a command whose statements run to their end ends in the state they give, `BUSY` 0 (R5, R85). -/
theorem run_program (s t : State) (todo : List Micro) (l' : Locals) (hR : s.Ready) (hi : s.inputs = [])
    (h : Runs todo {} s.accept l' t) (hp : t.pos = .idle) :
    ∃ n, Host.Core.run Sys2Proof.core n (s.startSlots todo) = .next { t with busy := false } := by
  obtain ⟨n, hn⟩ := run_of_runs todo {} l' s.accept t h hR.2.2 hi
  refine ⟨n, ?_⟩
  rw [← hp] at hn
  exact hn

end Sys2Proof.Machine
end

