-- ==== Sys2Proof/Laws/State.lean ====
section
/-! SUPPORT. One lemma per field per named update of State, all true by rfl, so that no proof unfolds a record update. -/

namespace Sys2Proof.Machine

/-! ### `accept` -/

@[simp] theorem State.accept_port (s : State) : s.accept.port = s.port := rfl
@[simp] theorem State.accept_data (s : State) : s.accept.data = s.data := rfl
@[simp] theorem State.accept_result (s : State) : s.accept.result = s.result := rfl
@[simp] theorem State.accept_ack (s : State) : s.accept.ack = s.ack := rfl
@[simp] theorem State.accept_accum (s : State) : s.accept.accum = s.accum := rfl
@[simp] theorem State.accept_status (s : State) : s.accept.status = s.status := rfl
@[simp] theorem State.accept_link (s : State) : s.accept.link = s.link := rfl
@[simp] theorem State.accept_busy (s : State) : s.accept.busy = true := rfl
@[simp] theorem State.accept_words (s : State) : s.accept.words = s.words := rfl
@[simp] theorem State.accept_pos (s : State) : s.accept.pos = s.pos := rfl
@[simp] theorem State.accept_rstN (s : State) : s.accept.rstN = s.rstN := rfl
@[simp] theorem State.accept_inputs (s : State) : s.accept.inputs = s.inputs := rfl
@[simp] theorem State.accept_replies (s : State) : s.accept.replies = s.replies := rfl
@[simp] theorem State.accept_loose (s : State) : s.accept.loose = s.loose := rfl
@[simp] theorem State.accept_level (s : State) : s.accept.level = s.level := rfl

/-! ### `finish` -/

@[simp] theorem State.finish_port (s : State) : s.finish.port = s.port := rfl
@[simp] theorem State.finish_data (s : State) : s.finish.data = s.data := rfl
@[simp] theorem State.finish_result (s : State) : s.finish.result = s.result := rfl
@[simp] theorem State.finish_ack (s : State) : s.finish.ack = s.ack := rfl
@[simp] theorem State.finish_accum (s : State) : s.finish.accum = s.accum := rfl
@[simp] theorem State.finish_status (s : State) : s.finish.status = s.status := rfl
@[simp] theorem State.finish_link (s : State) : s.finish.link = s.link := rfl
@[simp] theorem State.finish_busy (s : State) : s.finish.busy = false := rfl
@[simp] theorem State.finish_words (s : State) : s.finish.words = s.words := rfl
@[simp] theorem State.finish_pos (s : State) : s.finish.pos = s.pos := rfl
@[simp] theorem State.finish_rstN (s : State) : s.finish.rstN = s.rstN := rfl
@[simp] theorem State.finish_inputs (s : State) : s.finish.inputs = s.inputs := rfl
@[simp] theorem State.finish_replies (s : State) : s.finish.replies = s.replies := rfl
@[simp] theorem State.finish_loose (s : State) : s.finish.loose = s.loose := rfl
@[simp] theorem State.finish_level (s : State) : s.finish.level = s.level := rfl

/-! ### `recordResult` -/

@[simp] theorem State.recordResult_port (c : PacketResult) (s : State) : (s.recordResult c).port = s.port := rfl
@[simp] theorem State.recordResult_data (c : PacketResult) (s : State) : (s.recordResult c).data = s.data := rfl
@[simp] theorem State.recordResult_result (c : PacketResult) (s : State) : (s.recordResult c).result = s.result := rfl
@[simp] theorem State.recordResult_ack (c : PacketResult) (s : State) : (s.recordResult c).ack = c := rfl
@[simp] theorem State.recordResult_accum (c : PacketResult) (s : State) : (s.recordResult c).accum = accumulate s.accum c := rfl
@[simp] theorem State.recordResult_status (c : PacketResult) (s : State) : (s.recordResult c).status = s.status := rfl
@[simp] theorem State.recordResult_link (c : PacketResult) (s : State) : (s.recordResult c).link = s.link := rfl
@[simp] theorem State.recordResult_busy (c : PacketResult) (s : State) : (s.recordResult c).busy = s.busy := rfl
@[simp] theorem State.recordResult_words (c : PacketResult) (s : State) : (s.recordResult c).words = s.words := rfl
@[simp] theorem State.recordResult_pos (c : PacketResult) (s : State) : (s.recordResult c).pos = s.pos := rfl
@[simp] theorem State.recordResult_rstN (c : PacketResult) (s : State) : (s.recordResult c).rstN = s.rstN := rfl
@[simp] theorem State.recordResult_inputs (c : PacketResult) (s : State) : (s.recordResult c).inputs = s.inputs := rfl
@[simp] theorem State.recordResult_replies (c : PacketResult) (s : State) : (s.recordResult c).replies = s.replies := rfl
@[simp] theorem State.recordResult_loose (c : PacketResult) (s : State) : (s.recordResult c).loose = s.loose := rfl
@[simp] theorem State.recordResult_level (c : PacketResult) (s : State) : (s.recordResult c).level = s.level := rfl

/-! ### `writeWord` -/

@[simp] theorem State.writeWord_port (i : Nat) (w : Word) (s : State) : (s.writeWord i w).port = s.port := rfl
@[simp] theorem State.writeWord_data (i : Nat) (w : Word) (s : State) : (s.writeWord i w).data = s.data := rfl
@[simp] theorem State.writeWord_result (i : Nat) (w : Word) (s : State) : (s.writeWord i w).result = s.result := rfl
@[simp] theorem State.writeWord_ack (i : Nat) (w : Word) (s : State) : (s.writeWord i w).ack = s.ack := rfl
@[simp] theorem State.writeWord_accum (i : Nat) (w : Word) (s : State) : (s.writeWord i w).accum = s.accum := rfl
@[simp] theorem State.writeWord_status (i : Nat) (w : Word) (s : State) : (s.writeWord i w).status = s.status := rfl
@[simp] theorem State.writeWord_link (i : Nat) (w : Word) (s : State) : (s.writeWord i w).link = s.link := rfl
@[simp] theorem State.writeWord_busy (i : Nat) (w : Word) (s : State) : (s.writeWord i w).busy = s.busy := rfl
@[simp] theorem State.writeWord_words (i : Nat) (w : Word) (s : State) : (s.writeWord i w).words = Memory.write s.words i w := rfl
@[simp] theorem State.writeWord_pos (i : Nat) (w : Word) (s : State) : (s.writeWord i w).pos = s.pos := rfl
@[simp] theorem State.writeWord_rstN (i : Nat) (w : Word) (s : State) : (s.writeWord i w).rstN = s.rstN := rfl
@[simp] theorem State.writeWord_inputs (i : Nat) (w : Word) (s : State) : (s.writeWord i w).inputs = s.inputs := rfl
@[simp] theorem State.writeWord_replies (i : Nat) (w : Word) (s : State) : (s.writeWord i w).replies = s.replies := rfl
@[simp] theorem State.writeWord_loose (i : Nat) (w : Word) (s : State) : (s.writeWord i w).loose = s.loose := rfl
@[simp] theorem State.writeWord_level (i : Nat) (w : Word) (s : State) : (s.writeWord i w).level = s.level := rfl

/-! ### `reportInvalid` -/

@[simp] theorem State.reportInvalid_port (s : State) : s.reportInvalid.port = s.port := rfl
@[simp] theorem State.reportInvalid_data (s : State) : s.reportInvalid.data = s.data := rfl
@[simp] theorem State.reportInvalid_result (s : State) : s.reportInvalid.result = s.result := rfl
@[simp] theorem State.reportInvalid_ack (s : State) : s.reportInvalid.ack = s.ack := rfl
@[simp] theorem State.reportInvalid_accum (s : State) : s.reportInvalid.accum = s.accum := rfl
@[simp] theorem State.reportInvalid_status (s : State) : s.reportInvalid.status = statusInvalidCommand := rfl
@[simp] theorem State.reportInvalid_link (s : State) : s.reportInvalid.link = s.link := rfl
@[simp] theorem State.reportInvalid_busy (s : State) : s.reportInvalid.busy = s.busy := rfl
@[simp] theorem State.reportInvalid_words (s : State) : s.reportInvalid.words = s.words := rfl
@[simp] theorem State.reportInvalid_pos (s : State) : s.reportInvalid.pos = s.pos := rfl
@[simp] theorem State.reportInvalid_rstN (s : State) : s.reportInvalid.rstN = s.rstN := rfl
@[simp] theorem State.reportInvalid_inputs (s : State) : s.reportInvalid.inputs = s.inputs := rfl
@[simp] theorem State.reportInvalid_replies (s : State) : s.reportInvalid.replies = s.replies := rfl
@[simp] theorem State.reportInvalid_loose (s : State) : s.reportInvalid.loose = s.loose := rfl
@[simp] theorem State.reportInvalid_level (s : State) : s.reportInvalid.level = s.level := rfl

/-! ### `answer` -/

@[simp] theorem State.answer_port (v : Word) (s : State) : (s.answer v).port = s.port := rfl
@[simp] theorem State.answer_data (v : Word) (s : State) : (s.answer v).data = s.data := rfl
@[simp] theorem State.answer_result (v : Word) (s : State) : (s.answer v).result = s.result := rfl
@[simp] theorem State.answer_ack (v : Word) (s : State) : (s.answer v).ack = s.ack := rfl
@[simp] theorem State.answer_accum (v : Word) (s : State) : (s.answer v).accum = s.accum := rfl
@[simp] theorem State.answer_status (v : Word) (s : State) : (s.answer v).status = s.status := rfl
@[simp] theorem State.answer_link (v : Word) (s : State) : (s.answer v).link = s.link := rfl
@[simp] theorem State.answer_busy (v : Word) (s : State) : (s.answer v).busy = s.busy := rfl
@[simp] theorem State.answer_words (v : Word) (s : State) : (s.answer v).words = s.words := rfl
@[simp] theorem State.answer_pos (v : Word) (s : State) : (s.answer v).pos = s.pos := rfl
@[simp] theorem State.answer_rstN (v : Word) (s : State) : (s.answer v).rstN = s.rstN := rfl
@[simp] theorem State.answer_inputs (v : Word) (s : State) : (s.answer v).inputs = s.inputs := rfl
@[simp] theorem State.answer_replies (v : Word) (s : State) : (s.answer v).replies = v :: s.replies := rfl
@[simp] theorem State.answer_loose (v : Word) (s : State) : (s.answer v).loose = s.loose := rfl
@[simp] theorem State.answer_level (v : Word) (s : State) : (s.answer v).level = s.level := rfl

/-! ### `answerLoose` -/

@[simp] theorem State.answerLoose_port (s : State) : s.answerLoose.port = s.port := rfl
@[simp] theorem State.answerLoose_data (s : State) : s.answerLoose.data = s.data := rfl
@[simp] theorem State.answerLoose_result (s : State) : s.answerLoose.result = s.result := rfl
@[simp] theorem State.answerLoose_ack (s : State) : s.answerLoose.ack = s.ack := rfl
@[simp] theorem State.answerLoose_accum (s : State) : s.answerLoose.accum = s.accum := rfl
@[simp] theorem State.answerLoose_status (s : State) : s.answerLoose.status = s.status := rfl
@[simp] theorem State.answerLoose_link (s : State) : s.answerLoose.link = s.link := rfl
@[simp] theorem State.answerLoose_busy (s : State) : s.answerLoose.busy = s.busy := rfl
@[simp] theorem State.answerLoose_words (s : State) : s.answerLoose.words = s.words := rfl
@[simp] theorem State.answerLoose_pos (s : State) : s.answerLoose.pos = s.pos := rfl
@[simp] theorem State.answerLoose_rstN (s : State) : s.answerLoose.rstN = s.rstN := rfl
@[simp] theorem State.answerLoose_inputs (s : State) : s.answerLoose.inputs = s.inputs := rfl
@[simp] theorem State.answerLoose_replies (s : State) : s.answerLoose.replies = Config.busyRead s.loose :: s.replies := rfl
@[simp] theorem State.answerLoose_loose (s : State) : s.answerLoose.loose = s.loose + 1 := rfl
@[simp] theorem State.answerLoose_level (s : State) : s.answerLoose.level = s.level := rfl

/-! ### `startSlots` -/

@[simp] theorem State.startSlots_port (b : List Micro) (s : State) : (s.startSlots b).port = s.port := rfl
@[simp] theorem State.startSlots_data (b : List Micro) (s : State) : (s.startSlots b).data = s.data := rfl
@[simp] theorem State.startSlots_result (b : List Micro) (s : State) : (s.startSlots b).result = s.result := rfl
@[simp] theorem State.startSlots_ack (b : List Micro) (s : State) : (s.startSlots b).ack = s.ack := rfl
@[simp] theorem State.startSlots_accum (b : List Micro) (s : State) : (s.startSlots b).accum = s.accum := rfl
@[simp] theorem State.startSlots_status (b : List Micro) (s : State) : (s.startSlots b).status = s.status := rfl
@[simp] theorem State.startSlots_link (b : List Micro) (s : State) : (s.startSlots b).link = s.link := rfl
@[simp] theorem State.startSlots_busy (b : List Micro) (s : State) : (s.startSlots b).busy = true := rfl
@[simp] theorem State.startSlots_words (b : List Micro) (s : State) : (s.startSlots b).words = s.words := rfl
@[simp] theorem State.startSlots_pos (b : List Micro) (s : State) : (s.startSlots b).pos = .running b {} := rfl
@[simp] theorem State.startSlots_rstN (b : List Micro) (s : State) : (s.startSlots b).rstN = s.rstN := rfl
@[simp] theorem State.startSlots_inputs (b : List Micro) (s : State) : (s.startSlots b).inputs = s.inputs := rfl
@[simp] theorem State.startSlots_replies (b : List Micro) (s : State) : (s.startSlots b).replies = s.replies := rfl
@[simp] theorem State.startSlots_loose (b : List Micro) (s : State) : (s.startSlots b).loose = s.loose := rfl
@[simp] theorem State.startSlots_level (b : List Micro) (s : State) : (s.startSlots b).level = s.level := rfl

/-! ### `startMove` -/

@[simp] theorem startMove_port (s : State) : (startMove s).port = s.port := rfl
@[simp] theorem startMove_data (s : State) : (startMove s).data = s.data := rfl
@[simp] theorem startMove_result (s : State) : (startMove s).result = s.result := rfl
@[simp] theorem startMove_ack (s : State) : (startMove s).ack = s.ack := rfl
@[simp] theorem startMove_accum (s : State) : (startMove s).accum = resultOk := rfl
@[simp] theorem startMove_status (s : State) : (startMove s).status = s.status := rfl
@[simp] theorem startMove_link (s : State) : (startMove s).link = s.link := rfl
@[simp] theorem startMove_busy (s : State) : (startMove s).busy = s.busy := rfl
@[simp] theorem startMove_words (s : State) : (startMove s).words = s.words := rfl
@[simp] theorem startMove_pos (s : State) : (startMove s).pos = s.pos := rfl
@[simp] theorem startMove_rstN (s : State) : (startMove s).rstN = s.rstN := rfl
@[simp] theorem startMove_inputs (s : State) : (startMove s).inputs = s.inputs := rfl
@[simp] theorem startMove_replies (s : State) : (startMove s).replies = s.replies := rfl
@[simp] theorem startMove_loose (s : State) : (startMove s).loose = s.loose := rfl
@[simp] theorem startMove_level (s : State) : (startMove s).level = s.level := rfl

/-! ### `endMove` -/

@[simp] theorem endMove_port (s : State) : (endMove s).port = s.port.idlePulse := rfl
@[simp] theorem endMove_data (s : State) : (endMove s).data = s.data := rfl
@[simp] theorem endMove_result (s : State) : (endMove s).result = s.result := rfl
@[simp] theorem endMove_ack (s : State) : (endMove s).ack = s.ack := rfl
@[simp] theorem endMove_accum (s : State) : (endMove s).accum = s.accum := rfl
@[simp] theorem endMove_status (s : State) : (endMove s).status = mapStatus s.accum := rfl
@[simp] theorem endMove_link (s : State) : (endMove s).link = s.link := rfl
@[simp] theorem endMove_busy (s : State) : (endMove s).busy = s.busy := rfl
@[simp] theorem endMove_words (s : State) : (endMove s).words = s.words := rfl
@[simp] theorem endMove_pos (s : State) : (endMove s).pos = s.pos := rfl
@[simp] theorem endMove_rstN (s : State) : (endMove s).rstN = s.rstN := rfl
@[simp] theorem endMove_inputs (s : State) : (endMove s).inputs = s.inputs := rfl
@[simp] theorem endMove_replies (s : State) : (endMove s).replies = s.replies := rfl
@[simp] theorem endMove_loose (s : State) : (endMove s).loose = s.loose := rfl
@[simp] theorem endMove_level (s : State) : (endMove s).level = s.level := rfl

/-! ### `withFetchWord` -/

@[simp] theorem State.withFetchWord_port (n w : Nat) (s : State) : (s.withFetchWord n w).port = s.port := rfl
@[simp] theorem State.withFetchWord_data (n w : Nat) (s : State) : (s.withFetchWord n w).data = s.data := rfl
@[simp] theorem State.withFetchWord_result (n w : Nat) (s : State) : (s.withFetchWord n w).result = s.result := rfl
@[simp] theorem State.withFetchWord_ack (n w : Nat) (s : State) : (s.withFetchWord n w).ack = s.ack := rfl
@[simp] theorem State.withFetchWord_accum (n w : Nat) (s : State) : (s.withFetchWord n w).accum = s.accum := rfl
@[simp] theorem State.withFetchWord_status (n w : Nat) (s : State) : (s.withFetchWord n w).status = s.status := rfl
@[simp] theorem State.withFetchWord_link (n w : Nat) (s : State) : (s.withFetchWord n w).link = s.link := rfl
@[simp] theorem State.withFetchWord_busy (n w : Nat) (s : State) : (s.withFetchWord n w).busy = false := rfl
@[simp] theorem State.withFetchWord_words (n w : Nat) (s : State) : (s.withFetchWord n w).words = s.words := rfl
@[simp] theorem State.withFetchWord_pos (n w : Nat) (s : State) : (s.withFetchWord n w).pos = .idle := rfl
@[simp] theorem State.withFetchWord_rstN (n w : Nat) (s : State) : (s.withFetchWord n w).rstN = true := rfl
@[simp] theorem State.withFetchWord_inputs (n w : Nat) (s : State) : (s.withFetchWord n w).inputs = inputOfTable n w :: s.inputs := rfl
@[simp] theorem State.withFetchWord_replies (n w : Nat) (s : State) : (s.withFetchWord n w).replies = s.replies := rfl
@[simp] theorem State.withFetchWord_loose (n w : Nat) (s : State) : (s.withFetchWord n w).loose = s.loose := rfl
@[simp] theorem State.withFetchWord_level (n w : Nat) (s : State) : (s.withFetchWord n w).level = .command := rfl

end Sys2Proof.Machine
end

