-- ==== Sys2Proof/Tests/Slice0.lean ====
section
/-! SUPPORT. The model's own tests. Expected values are the worked examples and vectors of spec/95_test_vectors.md (named in each test), or words written out from the encodings of R80 and R87. -/

namespace Sys2Proof.Tests
open Sys2Proof.Machine

/-! ### Helpers -/

/-- The bits of a value, bit 0 first. -/
def bitsOf {n : Nat} (v : BitVec n) : List Bool := (List.range n).map v.getLsbD

/-- Draws of one packet (95, Conventions): the acknowledge, then for an OK read the word and its parity bit. -/
def okWrite : List Bool := [true, false, false]
def okRead (w : Word) (p : Bool) : List Bool := okWrite ++ bitsOf w ++ [p]
def wait : List Bool := [false, true, false]
def fault : List Bool := [false, false, true]

/-- The reset state with a target that will answer `draws`. -/
def withDraws (draws : List Bool) : State := { State.reset with port := { State.reset.port with draws := draws } }

/-- The start of most vectors: some draws and `DATA`. -/
def withData (d : Word) (draws : List Bool) : State := { withDraws draws with data := d }

/-- `o` is a next state that passes the test `f`. -/
def passes (o : Host.Outcome State Fault Refusal) (f : State → Bool) : Bool :=
  match o with
  | .next t => f t
  | .fault _ => false
  | .refused _ => false

/-- A slot string of R12 as a decimal number: first digit 9, then `0`, `1`, 2 for `z`, 3 for `L`, 4 for `H`; newest slot first. -/
def slotString : Nat → Nat → List Slot
  | 0, _ => []
  | n + 1, v =>
    (match v % 10 with
      | 0 => Slot.driven false
      | 1 => Slot.driven true
      | 2 => Slot.released
      | 3 => Slot.sampled false
      | _ => Slot.sampled true) :: slotString n (v / 10)

/-- `Pins(clk_oe, clk, dio_oe, dio_out)` as four bits, `clk_oe` the leftmost. -/
def pins (v : BitVec 4) : Pins := ⟨v.getLsbD 3, v.getLsbD 2, v.getLsbD 1, v.getLsbD 0⟩

def ID : Word := 0x0BB11477#32

/-! ### Decoding: every constructor from a word written out from R80, R82 and R87 (95 part E) -/

/-- E-2: F, RETRY, ARG8 = 1, A, OP = 0x1 -/
theorem test_decode_setClock :
    decode (.cmd32 0b0000000_0_00000000_00000001_0000_0001#32) = .ok (.setClock true) := by
  rfl

/-- E-21 -/
theorem test_decode_setData :
    decode (.cmd32 0b0000000_0_00000000_00000001_0000_0010#32) = .ok (.setData true) := by
  rfl

/-- E-20 -/
theorem test_decode_readData :
    decode (.cmd32 0b0000000_0_00000000_00000000_0000_0011#32) = .ok (.readData) := by
  rfl

/-- E-22 -/
theorem test_decode_setDir :
    decode (.cmd32 0b0000000_0_00000000_00000001_0000_0100#32) = .ok (.setDir true) := by
  rfl

/-- E-7 -/
theorem test_decode_shiftOut :
    decode (.cmd32 0b0000000_0_00000000_10100101_0000_0101#32) = .ok (.shiftOut 0xA5#8) := by
  rfl

/-- E-20 -/
theorem test_decode_shiftIn :
    decode (.cmd32 0b0000000_0_00000000_00000000_0000_0110#32) = .ok (.shiftIn) := by
  rfl

/-- E-20 -/
theorem test_decode_shiftReset :
    decode (.cmd32 0b0000000_0_00000000_00000000_0000_0111#32) = .ok (.shiftReset) := by
  rfl

/-- E-10 -/
theorem test_decode_shiftPacket :
    decode (.cmd32 0b0000000_0_00000011_10100101_0000_1000#32) = .ok (.shiftPacket 0xA5#8 3#8) := by
  rfl

/-- E-13 -/
theorem test_decode_dapMove :
    decode (.cmd32 0b0000000_1_00000000_00000000_1101_1001#32) = .ok (.dapMove 0#8 0xD#4 true) := by
  rfl

/-- E-19 -/
theorem test_decode_connect :
    decode (.cmd32 0b0000000_0_00000000_00000000_0000_1010#32) = .ok (.connect) := by
  rfl

/-- E-19 -/
theorem test_decode_lineReset :
    decode (.cmd32 0b0000000_0_00000000_00000000_0000_1011#32) = .ok (.lineReset) := by
  rfl

/-- E-19 -/
theorem test_decode_disconnect :
    decode (.cmd32 0b0000000_0_00000000_00000000_0000_1100#32) = .ok (.disconnect) := by
  rfl

/-- E-19 -/
theorem test_decode_clearErrors :
    decode (.cmd32 0b0000000_0_00000000_00000000_0000_1101#32) = .ok (.clearErrors) := by
  rfl

/-- R90: park, stop, parity, A3, A2, RnW, APnDP, start of each DAP address -/
theorem test_decode_requests :
    [
    decode (.request8 0b10000001#8),
    decode (.request8 0b10100011#8),
    decode (.request8 0b10100101#8),
    decode (.request8 0b10000111#8),
    decode (.request8 0b10101001#8),
    decode (.request8 0b10001011#8),
    decode (.request8 0b10001101#8),
    decode (.request8 0b10101111#8),
    decode (.request8 0b10110001#8),
    decode (.request8 0b10010011#8),
    decode (.request8 0b10010101#8),
    decode (.request8 0b10110111#8),
    decode (.request8 0b10011001#8),
    decode (.request8 0b10111011#8),
    decode (.request8 0b10111101#8),
    decode (.request8 0b10011111#8)] =
    [.ok .reqDpAbortWr, .ok .reqAp0Wr, .ok .reqDpIdcodeRd, .ok .reqAp0Rd, .ok .reqDpCtrlstatWr, .ok .reqAp4Wr, .ok .reqDpCtrlstatRd, .ok .reqAp4Rd,
     .ok .reqDpSelectWr, .ok .reqAp8Wr, .ok .reqDapA, .ok .reqAp8Rd, .ok .reqDapC, .ok .reqApCWr, .ok .reqDpRdbuffRd, .ok .reqApCRd] := by
  rfl

/-- E-3, E-4, E-6, E-8, E-11, E-16, R99 (d) -/
theorem test_decode_invalid :
    [decode (.cmd32 0x00000201#32), decode (.cmd32 0x00000000#32), decode (.cmd32 0x0000000F#32),
     decode (.cmd32 0x0001A505#32), decode (.cmd32 0x0100A508#32), decode (.cmd32 0x02000009#32), decode (.request8 0xA4#8)] =
    [.error .nonzeroUnusedField, .error .reservedOpcode, .error .reservedOpcode, .error .nonzeroUnusedField,
     .error .nonzeroUnusedField, .error .nonzeroUnusedField, .error .notARequestHeader] := by
  rfl

/-- E-12, R90 -/
theorem test_table_words :
    decodeTableWord 32 0x000002F9 = some (.dapMove 2#8 0xF#4 false) ∧ decodeTableWord 8 0x9F = some .reqApCRd := by
  exact ⟨rfl, rfl⟩

/-- R83: no word falls under two rows, since any two patterns differ in a bit both masks keep -/
theorem test_rows_never_overlap :
    (cmdRows.map (fun r => (r.pattern, r.mask))).Pairwise (fun r q => r.1 &&& q.2 ≠ q.1 &&& r.2) := by
  decide +kernel

/-! ### Well-formed source lines: one ill-formed line for each check (R100, R101) -/

/-- Every check of `AsmLine.wellFormed` refuses a line that breaks it alone. -/
theorem test_ill_formed_lines :
    ([ (.setClock 2 : AsmLine),
      .setData 2,
      .shiftOut 256,
      .shiftPacket 256 0,
      .shiftPacket 0xA5 256,
      .dapMove 256 (.name .apCRd) false,
      .dapMove 0 (.imm 16) false,
      .wr (.words 256) 0,
      .wr .data (2 ^ 32),
      .rd (.words 256),
      .packet (.imm 16) 0,
      .packet (.imm 2) 256,
      .dpRead (.imm 16),
      .dpWrite (.imm 16) 0,
      .dpWrite (.imm 4) (2 ^ 32),
      .apRead (.imm 16) 1,
      .apRead (.imm 15) 0,
      .apRead (.imm 15) 257,
      .apWrite (.imm 16) 0 true,
      .apWrite (.imm 13) (2 ^ 32) true,
      .select (2 ^ 32) ]).all (fun l => !l.wellFormed) = true := by
  decide +kernel

/-- program 2, line 6 -/
theorem test_assemble_program2_line6 :
    assemble [.apWrite (.name .apCWr) 0xDEADBEEF true] =
    some [.write 32 0x400 0xDEADBEEF#32, .write 32 0 0x010000D9#32, .waitIdle] := by
  rfl

/-- program 4, line 3, and R101 -/
theorem test_assemble_pseudo :
    assemble [.apRead (.name .apCRd) 1, .packet (.imm 2) 0, .pulse] =
    some [.write 32 0 0x000000F9#32, .waitIdle, .write 32 0 0x0000A508#32, .waitIdle, .write 32 0 0x00000101#32, .waitIdle,
      .write 32 0 0x00000001#32, .waitIdle] := by
  rfl

/-! ### Encodings and codes -/

/-- W-1, R90 -/
theorem test_request_headers :
    (List.range 16).map (fun d => reqHeader (BitVec.ofNat 4 d)) =
    [0x81#8, 0xA3#8, 0xA5#8, 0x87#8, 0xA9#8, 0x8B#8, 0x8D#8, 0xAF#8, 0xB1#8, 0x93#8, 0x95#8, 0xB7#8, 0x99#8, 0xBB#8, 0xBD#8, 0x9F#8] := by
  decide +kernel

/-- W-3 -/
theorem test_status_map :
    (List.range 9).map (fun r => mapStatus (BitVec.ofNat 4 r)) = [3#3, 0#3, 1#3, 3#3, 2#3, 3#3, 3#3, 3#3, 3#3] := by
  decide +kernel

/-- R89, 95 part E parity table -/
theorem test_parity :
    [parity 0x00000000#32, parity 0xFFFFFFFF#32, parity 0x80000000#32, parity ID, parity 0x0000001E#32, parity 0xA05F0001#32] =
    [false, false, true, true, false, true] := by
  decide +kernel

/-- program 4, line 4, and E-25 -/
theorem test_csr_fields :
    csrValue { State.reset with ack := 4#4, status := 2#3, link := 2#2, accum := 4#4 } = 0x00042240#32 ∧
    csrValue State.reset = 0x00010000#32 := by
  decide +kernel

/-! ### Transceiver commands (95 part T) -/

/-- T-1, newest event first -/
theorem test_setClock :
    passes (exec (.setClock true) State.reset) (fun t =>
      t.port.trace == [.pins (pins 0b1100#4), .pins (pins 0b1000#4)]) = true := by
  decide +kernel

/-- T-3, first command -/
theorem test_setData :
    passes (exec (.setData true) State.reset) (fun t => t.port.trace == [.pins (pins 0b0001#4)]) = true := by
  decide +kernel

/-- T-4 -/
theorem test_setData_no_event :
    passes (exec (.setData false) State.reset) (fun t => t == State.reset) = true := by
  decide +kernel

/-- T-8 -/
theorem test_readData :
    passes (exec .readData (withDraws [true])) (fun t =>
      t.result == 0x01#8 && t.port.trace == [.sample true] && t.port.slots == []) = true := by
  decide +kernel

/-- T-3, second command -/
theorem test_setDir :
    passes (exec (.setDir true) { State.reset with port := { State.reset.port with pins := pins 0b0001#4 } }) (fun t =>
      t.port.pins == pins 0b0011#4) = true := by
  decide +kernel

/-- T-5 -/
theorem test_shiftOut :
    passes (exec (.shiftOut 0xA5#8) State.reset) (fun t => t.port.pins == pins 0b1011#4 &&
      t.port.slots == slotString 8 910100101 && t.port.trace.length == 25 &&
      t.port.trace.drop 20 == [.pins (pins 0b1011#4), .pins (pins 0b1111#4), .pins (pins 0b1011#4), .pins (pins 0b0011#4), .pins (pins 0b0010#4)]) = true := by
  decide +kernel

/-- T-12: the first pulse has no rising edge -/
theorem test_shiftOut_clock_high :
    passes (exec (.shiftOut 0x01#8) { State.reset with port := { State.reset.port with pins := pins 0b1100#4 } }) (fun t =>
      t.port.slots.length == 8 && t.port.trace.length == 18 &&
      t.port.trace.drop 15 == [.pins (pins 0b1011#4), .pins (pins 0b1111#4), .pins (pins 0b1110#4)]) = true := by
  decide +kernel

/-- T-6 -/
theorem test_shiftIn :
    passes (exec .shiftIn { withDraws [true, true, true, false, true, true, true, false] with
        port := { (withDraws [true, true, true, false, true, true, true, false]).port with pins := pins 0b1000#4 } }) (fun t =>
      t.result == 0x77#8 && t.port.pins == pins 0b1000#4 && t.port.trace.length == 24 && t.port.slots == slotString 8 944434443) = true := by
  decide +kernel

/-- T-7 -/
theorem test_shiftReset :
    passes (exec .shiftReset State.reset) (fun t =>
      t.port.pins == pins 0b1011#4 && t.link == 0#2 && t.port.slots == slotString 64 91111111111111111111111111111111111111111111111111111111111111111 && t.port.trace.length == 131) = true := by
  decide +kernel

/-! ### Packets (95 part P) -/

/-- P-1 -/
theorem test_shiftPacket_read :
    passes (exec (.shiftPacket 0xA5#8 0#8) (withDraws (okRead ID true))) (fun t =>
      t.ack == 1#4 && t.data == ID && t.accum == 1#4 && t.port.pins == pins 0b1010#4 &&
      t.port.slots == slotString 47 901010010124334443444333434333433344344434333340) = true := by
  decide +kernel

/-- P-12 -/
theorem test_shiftPacket_malformed_write :
    passes (exec (.shiftPacket 0x01#8 0#8) (withData 0x00000001#32 okWrite)) (fun t =>
      t.ack == 1#4 && t.data == 0x00000001#32 && t.port.slots == slotString 48 9010000000243301000000000000000000000000000000010) = true := by
  decide +kernel

/-- P-4 -/
theorem test_reqDpIdcodeRd_retry :
    passes (exec .reqDpIdcodeRd (withDraws (wait ++ okRead ID true))) (fun t =>
      t.ack == 1#4 && t.data == ID && t.port.slots == slotString 60 9010100101234301010010124334443444333434333433344344434333340) = true := by
  decide +kernel

/-- P-2 -/
theorem test_reqDpIdcodeRd_parity :
    passes (exec .reqDpIdcodeRd (withDraws (okRead ID false))) (fun t =>
      t.ack == 8#4 && t.accum == 8#4 && t.data == ID && t.slotCount == 47) = true := by
  decide +kernel

/-- P-3 -/
theorem test_reqDpCtrlstatWr :
    passes (exec .reqDpCtrlstatWr (withData 0x50000000#32 okWrite)) (fun t =>
      t.ack == 1#4 && t.port.slots == slotString 48 9010010101243310000000000000000000000000000101000) = true := by
  decide +kernel

/-- P-11 -/
theorem test_reqDpAbortWr_fault :
    passes (exec .reqDpAbortWr (withData 0x0000001E#32 fault)) (fun t =>
      t.ack == 4#4 && t.accum == 4#4 && t.slotCount == 14) = true := by
  decide +kernel

/-- The header byte a request instruction sends first on the wire, after the leading idle slot: its eight driven slots, bit 0 first (R67, R90, R96). -/
def sentHeader (i : Instr) : List Slot :=
  match exec i (withDraws fault) with
  | .next t => (t.port.slots.reverse.drop 1).take 8
  | .fault _ => []
  | .refused _ => []

/-- R90: what each request-header row puts on the wire -/
theorem test_request_headers_sent :
    [Instr.reqDpAbortWr, .reqAp0Wr, .reqDpIdcodeRd, .reqAp0Rd, .reqDpCtrlstatWr, .reqAp4Wr, .reqDpCtrlstatRd, .reqAp4Rd,
      .reqDpSelectWr, .reqAp8Wr, .reqDapA, .reqAp8Rd, .reqDapC, .reqApCWr, .reqDpRdbuffRd, .reqApCRd].map sentHeader =
    [0x81#8, 0xA3#8, 0xA5#8, 0x87#8, 0xA9#8, 0x8B#8, 0x8D#8, 0xAF#8, 0xB1#8, 0x93#8, 0x95#8, 0xB7#8, 0x99#8, 0xBB#8, 0xBD#8, 0x9F#8].map
      (fun h => (bitsOf h).map Slot.driven) := by
  decide +kernel

/-! ### Moves (95 part M) -/

/-- M-1 -/
theorem test_dapMove_ap_read :
    passes (exec (.dapMove 2#8 0xF#4 false) (withDraws (okRead 0xAAAA0001#32 true ++ okRead 0xBBBB0002#32 true ++
        okRead 0xCCCC0003#32 false ++ okRead 0xDDDD0004#32 true))) (fun t =>
      t.words == [(0, 0xBBBB0002#32), (1, 0xCCCC0003#32), (2, 0xDDDD0004#32)] && t.data == 0xDDDD0004#32 && t.status == 0#3 &&
      t.port.slots == slotString 189 9011111001243343333333333333333434343434343434400111110012433343333333333333344344434443444344001111100124334433333333333333334433443344334430010111101243333433333333333334344434443444344400) = true := by
  decide +kernel

/-- M-4 -/
theorem test_dapMove_ap_write_final :
    passes (exec (.dapMove 1#8 0xD#4 true) { withDraws (okWrite ++ okWrite ++ okRead 0#32 false) with
        words := [(0, 0x11111111#32), (1, 0x22222222#32)] }) (fun t =>
      t.words == [(0, 0x11111111#32), (1, 0x22222222#32)] && t.data == 0#32 && t.status == 0#3 &&
      t.port.slots == slotString 144 9011011101243311000100010001000100010001000100000011011101243310100010001000100010001000100010000010111101243333333333333333333333333333333333300) = true := by
  decide +kernel

/-! ### Target control (95 part S) -/

/-- S-1, E-26 -/
theorem test_connect :
    passes (exec .connect (withDraws (okRead ID true))) (fun t =>
      t.ack == 1#4 && t.data == ID && t.link == 2#2 && t.accum == 1#4 && t.port.pins == pins 0b1010#4 &&
      csrValue t == 0x00012010#32 && t.port.slots == slotString 143 901111001111001111111111111111111111111111111111111111111111111111111111111111111000000000101001012433444344433343433343334434443433334000000000) = true := by
  decide +kernel

/-- S-3 -/
theorem test_lineReset_fault :
    passes (exec .lineReset (withData ID fault)) (fun t =>
      t.ack == 4#4 && t.accum == 4#4 && t.link == 1#2 && t.data == ID && t.port.slots == slotString 94 91111111111111111111111111111111111111111111111111111111111111111000000000101001012334000000000) = true := by
  decide +kernel

/-- S-8: a wrong parity bit leaves the word in `DATA`, and the second idle byte is sent -/
theorem test_lineReset_parity :
    passes (exec .lineReset (withDraws (okRead ID false))) (fun t =>
      t.ack == 8#4 && t.accum == 8#4 && t.link == 1#2 && t.data == ID && t.slotCount == 127) = true := by
  decide +kernel

/-- S-5: no target -/
theorem test_connect_no_target :
    passes (exec .connect (withDraws [true, true, true])) (fun t =>
      t.ack == 7#4 && t.accum == 7#4 && t.link == 1#2 && t.data == 0#32 && t.slotCount == 110) = true := by
  decide +kernel

/-- S-4, E-29 -/
theorem test_disconnect :
    passes (exec .disconnect State.reset) (fun t =>
      t.port.pins == pins 0b0001#4 && pinsValue t.port.pins == 0x8#32 && t.link == 0#2 && t.ack == 0#4 &&
      t.port.slots == slotString 16 90011110011100111) = true := by
  decide +kernel

/-- S-2 -/
theorem test_clearErrors :
    passes (exec .clearErrors (withDraws (okRead 0x20#32 true ++ okWrite ++ okRead 0#32 false))) (fun t =>
      t.words == [(0, 0x20#32), (1, 0#32)] && t.data == 0#32 && t.ack == 1#4 && t.port.slots == slotString 142 90101100012433333334333333333333333333333333334001000000124331011110000000000000000000000000000001011000124333333333333333333333333333333333330) = true := by
  decide +kernel

/-- S-6 and S-7: a failing ABORT write, and a failing first read -/
theorem test_clearErrors_failing :
    passes (exec .clearErrors (withDraws (okRead 0x20#32 true ++ fault ++ okRead 0x20#32 true))) (fun t =>
      t.words == [(0, 0x20#32), (1, 0x20#32)] && t.data == 0x20#32 && t.ack == 1#4 && t.accum == 4#4 && t.slotCount == 108) = true ∧
    passes (exec .clearErrors (withData 5#32 (fault ++ okWrite ++ okRead 0#32 false))) (fun t =>
      t.words == [(0, 5#32), (1, 0#32)] && t.ack == 1#4 && t.accum == 4#4 && t.slotCount == 109) = true := by
  decide +kernel

/-! ### The step -/

/-- R85: a CMD write runs its command -/
theorem test_step_runs_command :
    passes (step (State.reset.withFetchWord 32 0x00000101)) (fun t => t.port.pins == pins 0b1100#4 && t.inputs == []) = true := by
  decide +kernel

/-- E-3: an invalid word changes STATUS alone -/
theorem test_step_invalid :
    passes (step (State.reset.withFetchWord 32 0x00000201)) (fun t => t == { State.reset with status := 5#3 }) = true := by
  decide +kernel

/-- M-13: a write path that reads an unwritten entry faults -/
theorem test_step_unwritten :
    (match step (State.reset.withFetchWord 32 0x00000019) with | .fault f => f == .unwrittenWord 0 | _ => false) = true := by
  decide +kernel

/-- R35: BUSY is 1 from the acceptance of the command -/
theorem test_step_slot_level :
    passes (step { State.reset with level := .slot, inputs := [.write 32 0 0x00000101#32] }) (fun t =>
      t.busy && t.port.pins == pins 0b0000#4 && t.pos == .running [.clkOe true, .clk true] {}) = true := by
  decide +kernel

/-- R261 -/
theorem test_step_reset_ends_command :
    passes (step { State.reset with busy := true, pos := .running [.clk false] {}, data := ID, inputs := [.rstN false], port := { State.reset.port with pins := pins 0b1111#4 } }) (fun t =>
      !t.busy && t.pos == .idle && t.data == 0#32 && t.port.pins == pins 0b0000#4 && !t.rstN) = true := by
  decide +kernel

/-! ### Witnesses: for each statement with hypotheses, states and operands that meet all of them together, one for each clause, at the ends of its range -/

/-- The reset state with inputs waiting. -/
def withInputs (l : List Input) : State := { State.reset with inputs := l }

/-- A block in the middle of a command: a `SHIFT_OUT` between two bits. -/
def running : State :=
  { State.reset with
    busy := true, pos := .running [.clkOe true, .pulseRise, .clk false, .shiftOutFrom 0xA5#8 3] {}
    port := { State.reset.port with pins := pins 0b0011#4, trace := [.pins (pins 0b0011#4)] } }

theorem witness_CommandWordIssuesItsRowOrIsInvalid :
    (∃ (s : State) (w : Word) (rest : List Input), s.rstN = true ∧ s.busy = false ∧ s.inputs = .write 32 0x000 w :: rest ∧ s.level = .command ∧
      ∃ r ∈ cmdRows, w &&& r.mask = r.pattern) ∧
    (∃ (s : State) (w : Word) (rest : List Input), s.rstN = true ∧ s.busy = false ∧ s.inputs = .write 32 0x000 w :: rest ∧ s.level = .slot ∧
      ∃ r ∈ cmdRows, w &&& r.mask = r.pattern) ∧
    (∃ (s : State) (w : Word) (rest : List Input), s.rstN = true ∧ s.busy = false ∧ s.inputs = .write 32 0x000 w :: rest ∧
      ∀ r ∈ cmdRows, w &&& r.mask ≠ r.pattern) :=
  ⟨⟨withInputs [.write 32 0 0x000002F9#32], 0x000002F9#32, [], rfl, rfl, rfl, rfl, by decide +kernel⟩,
    ⟨{ withInputs [.write 32 0 0x00000003#32] with level := .slot }, 0x00000003#32, [], rfl, rfl, rfl, rfl,
      by decide +kernel⟩,
    ⟨withInputs [.write 32 0 0x00000201#32], 0x00000201#32, [], rfl, rfl, rfl, by decide +kernel⟩⟩

theorem witness_StepRunsDecodedInstruction :
    (∃ (s : State) (w : Word) (rest : List Input) (i : Instr), s.rstN = true ∧ s.busy = false ∧ s.level = .command ∧ s.inputs = .write 32 0x000 w :: rest ∧
      decode (.cmd32 w) = .ok i) ∧
    (∃ (s : State) (b : Byte) (rest : List Input) (i : Instr), s.rstN = true ∧ s.busy = false ∧ s.level = .command ∧ s.inputs = .request b :: rest ∧
      decode (.request8 b) = .ok i) ∧
    (∃ (s : State) (w : Word) (rest : List Input) (i : Instr), s.rstN = true ∧ s.busy = false ∧ s.level = .slot ∧ decode (.cmd32 w) = .ok i ∧
      s.inputs = .write 32 0x000 w :: rest) ∧
    (∃ i, decodeTableWord 32 0x0000000D = some i) ∧ (∃ i, decodeTableWord 8 0x81 = some i) :=
  ⟨⟨withInputs [.write 32 0 0x0000000A#32], 0x0000000A#32, [], .connect, rfl, rfl, rfl, rfl, rfl⟩,
    ⟨withInputs [.request 0xA5#8], 0xA5#8, [], .reqDpIdcodeRd, rfl, rfl, rfl, rfl, rfl⟩,
    ⟨{ withInputs [.write 32 0 0x0000A505#32] with level := .slot }, 0x0000A505#32, [], .shiftOut 0xA5#8, rfl, rfl,
      rfl, rfl, rfl⟩,
    ⟨.clearErrors, rfl⟩, ⟨.reqDpAbortWr, rfl⟩⟩

theorem witness_EncodeOfDecode : decode (.cmd32 0x010000D9#32) = .ok (.dapMove 0#8 0xD#4 true) := rfl

theorem witness_AssembledCommandsAreValid :
    (AsmLine.apRead (.name .apCRd) 256).wellFormed = true ∧
      Input.write 32 0x000 0x0000FFF9#32 ∈ assembleLine (.apRead (.name .apCRd) 256) :=
  ⟨rfl, List.Mem.head _⟩

theorem witness_ResetEndsRunningCommand :
    { running with inputs := [.rstN false] }.rstN = true ∧
      { running with inputs := [.rstN false] }.inputs = Input.rstN false :: [] := ⟨rfl, rfl⟩

theorem witness_ResetIsHeldWhileLow :
    (∃ s t : State, s.rstN = false ∧ s.inputs = [.write 32 0x008 ID] ∧ step s = .next t) ∧
      (∃ s t : State, s.rstN = false ∧ s.inputs = [.rstN true] ∧ step s = .next t) :=
  ⟨⟨{ withInputs [.write 32 0x008 ID] with rstN := false }, _, rfl, rfl, rfl⟩,
    ⟨{ withInputs [.rstN true] with rstN := false }, _, rfl, rfl, rfl⟩⟩

theorem witness_StepKeepsInvariant :
    running.Inv ∧ running.TraceTellsPins ∧ (∃ t, step running = .next t) ∧
      (withInputs [.write 32 0 0x00000101#32]).Inv ∧
      (∃ t, step (withInputs [.write 32 0 0x00000101#32]) = .next t) :=
  ⟨by decide +kernel, by decide +kernel, ⟨_, rfl⟩, by decide +kernel, ⟨_, rfl⟩⟩

theorem witness_StepKeepsTraceTellingPins : running.TraceTellsPins ∧ ∃ t, step running = .next t :=
  ⟨by decide +kernel, _, rfl⟩

theorem witness_StepOnlyExtendsWire : ∃ t, step running = .next t := ⟨_, rfl⟩

theorem witness_StatusWriters :
    (∃ t, exec (.dapMove 255#8 0x2#4 false) State.reset = .next t) ∧ (∃ t, exec .clearErrors State.reset = .next t) ∧
      (State.reset.busy = false ∧ decode (.cmd32 0x00000000#32) = .error .reservedOpcode) :=
  ⟨⟨_, exec_dapMove_read _ _ _ _ rfl⟩, ⟨_, exec_clearErrors _⟩, rfl, rfl⟩

theorem witness_LinkTransitions :
    (∃ t, exec .connect State.reset = .next t) ∧ (∃ t, exec .lineReset State.reset = .next t) ∧
      (∃ t, exec .disconnect State.reset = .next t) ∧ (∃ t, exec .shiftReset State.reset = .next t) :=
  ⟨⟨_, exec_connect _⟩, ⟨_, exec_lineReset _⟩, ⟨_, exec_disconnect _⟩, ⟨_, exec_shiftReset _⟩⟩

theorem witness_ResultWriters :
    writesResult (.shiftPacket 0xA5#8 0#8) = false ∧ ∃ t, exec (.shiftPacket 0xA5#8 0#8) State.reset = .next t :=
  ⟨rfl, _, exec_shiftPacket _ _ _⟩

theorem witness_AccumClearedByMovesOnly :
    writesStatus .lineReset = false ∧ ∃ t, exec .lineReset (withDraws fault) = .next t := ⟨rfl, _, exec_lineReset _⟩

theorem witness_ClockLatches :
    (∃ t, exec .shiftIn { State.reset with port := { State.reset.port with pins := pins 0b1000#4 } } = .next t) ∧
      (∃ t, exec .disconnect State.reset = .next t) ∧ (∃ t, exec (.setClock true) State.reset = .next t) ∧
      (∃ t, exec .connect State.reset = .next t) :=
  ⟨⟨_, exec_shiftIn _⟩, ⟨_, exec_disconnect _⟩, ⟨_, exec_setClock _ _⟩, ⟨_, exec_connect _⟩⟩

theorem witness_TransceiverCommandsCannotFail :
    isTransceiver .readData = true ∧ isTransceiver .shiftReset = true ∧ isTransceiver (.setDir true) = true :=
  ⟨rfl, rfl, rfl⟩

theorem witness_LoopbackRoundTrip :
    (∃ t u, exec (.shiftOut 0xA5#8) State.reset = .next t ∧ AddsSlots (drivenSlots (bitsOf 0xA5#8)) State.reset t ∧
      exec .shiftIn { t with port := { t.port with draws := bitsOf 0xA5#8 ++ [true] } } = .next u) ∧
    (State.reset.port.writePhase ID).slots = (drivenSlots (false :: (bitsOf ID ++ [true]))).reverse ++ State.reset.port.slots ∧
      (withDraws (bitsOf ID ++ [true])).port.draws = (bitsOf ID ++ [true]) ++ [] :=
  ⟨⟨_, _, exec_shiftOut _ _, by decide +kernel, exec_shiftIn _⟩, by decide +kernel, by decide +kernel⟩

theorem witness_PacketOutcome :
    (1 ≤ attemptLimit 1#8 ∧ (ackWait ≠ (0b010#3 : AckBits) ∨ 1 = attemptLimit 1#8) ∧
      (withDraws wait).port.draws = waitDraws 0 ++ bitsLsb ackWait ++ []) ∧
    (255 ≤ attemptLimit 0#8 ∧ (withDraws (waitDraws 254 ++ fault)).port.draws = waitDraws 254 ++ bitsLsb (0b100#3) ++ []) ∧
    ((0xA9#8).getLsbD 2 = false ∧ (withDraws okWrite).port.draws = waitDraws 0 ++ bitsLsb (0b001#3) ++ []) ∧
    ((0xA5#8).getLsbD 2 = true ∧ true = parity ID ∧
      (withDraws (okRead ID true)).port.draws = waitDraws 0 ++ bitsLsb (0b001#3) ++ (bitsLsb ID ++ true :: [])) ∧
    (false ≠ parity ID ∧
      (withDraws (okRead ID false)).port.draws = waitDraws 0 ++ bitsLsb (0b001#3) ++ (bitsLsb ID ++ false :: [])) := by
  decide +kernel

theorem witness_RetryExhaustion :
    (withDraws (wait ++ wait)).port.draws = waitDraws (attemptLimit 1#8) ++ wait ∧
      (withDraws (waitDraws 255)).port.draws = waitDraws (attemptLimit 0#8) ++ [] := by
  decide +kernel

theorem witness_RequestRowsSendTheirHeader :
    requestDap .reqDpAbortWr = some 0x0#4 ∧ requestDap .reqDapC = some 0xC#4 ∧ requestDap .reqApCRd = some 0xF#4 :=
  ⟨rfl, rfl, rfl⟩

theorem witness_WritePacketWire :
    (0xA9#8).getLsbD 2 = false ∧ 0 + 1 ≤ attemptLimit 1#8 ∧ 254 + 1 ≤ attemptLimit 0#8 ∧
      (withDraws okWrite).port.draws = waitDraws 0 ++ [true, false, false] ++ [] ∧
      (withDraws (waitDraws 254 ++ okWrite)).port.draws = waitDraws 254 ++ [true, false, false] ++ [] := by
  decide +kernel

theorem witness_MoveMapsAccumToStatus : ∃ t, exec (.dapMove 0#8 0xF#4 false) State.reset = .next t :=
  ⟨_, exec_dapMove_read _ _ _ _ rfl⟩

theorem witness_MoveForgetsEarlierResults :
    ({ withDraws okWrite with ack := 0x8#4, accum := 0x4#4, status := 5#3, link := 2#2, result := 0xFF#8, busy := true, replies := [ID] }.port = (withDraws okWrite).port ∧
      { withDraws okWrite with ack := 0x8#4, accum := 0x4#4, status := 5#3, link := 2#2, result := 0xFF#8, busy := true, replies := [ID] }.data = (withDraws okWrite).data ∧
      { withDraws okWrite with ack := 0x8#4, accum := 0x4#4, status := 5#3, link := 2#2, result := 0xFF#8, busy := true, replies := [ID] }.words = (withDraws okWrite).words) ∧
    (0xC#4).getLsbD 1 = false ∧ ((0xC#4).getLsbD 0 && true) = false ∧
      ∃ t, exec (.dapMove 0#8 0xC#4 true) { withDraws okWrite with words := [(0, ID)] } = .next t :=
  ⟨⟨rfl, rfl, rfl⟩, rfl, rfl, _, exec_dapMove_write _ _ _ _ [ID] rfl rfl⟩

/-- One answer of each kind: OK after a WAIT, FAULT, a protocol error, a wrong parity bit, and WAIT in all 255 attempts. -/
def answers : List Answer :=
  [⟨1, 0b001#3, ID, parity ID⟩, ⟨0, 0b100#3, 0#32, false⟩, ⟨254, 0b111#3, 0#32, false⟩, ⟨0, 0b001#3, ID, !parity ID⟩,
    ⟨254, 0b010#3, 0#32, false⟩]

/-- A packet answered FAULT. -/
def refused : Answer := ⟨0, 0b100#3, 0#32, false⟩

theorem witness_ApReadIsOneTransferBehind :
    ((0xF#4).getLsbD 1 = true ∧ (0xF#4).getLsbD 0 = true ∧ [ID].length = (0#8).toNat + 1 ∧
      (List.replicate 256 ID).length = (255#8).toNat + 1 ∧
      (withDraws (okReadsDraws [0#32, ID])).port.draws = okReadsDraws (0#32 :: [ID]) ++ []) ∧
    answers.length = (4#8).toNat + 1 ∧ (∀ a ∈ answers ++ [refused], a.Ends 255) ∧
      (withDraws ((answers ++ [refused]).flatMap Answer.readDraws)).port.draws =
        (answers ++ [refused]).flatMap Answer.readDraws ++ [] := by
  refine ⟨by decide +kernel, rfl, by decide +kernel, (List.append_nil _).symm⟩

theorem witness_DpReadStoresEachWord :
    ((0x2#4).getLsbD 1 = true ∧ (0x2#4).getLsbD 0 = false ∧ [ID].length = (0#8).toNat + 1 ∧
      (withDraws (okReadsDraws [ID])).port.draws = okReadsDraws [ID] ++ []) ∧
    answers.length = (4#8).toNat + 1 ∧ (∀ a ∈ answers, a.Ends 255) ∧
      (withDraws (answers.flatMap Answer.readDraws)).port.draws = answers.flatMap Answer.readDraws ++ [] := by
  refine ⟨by decide +kernel, rfl, by decide +kernel, (List.append_nil _).symm⟩

theorem witness_WriteMoveSendsItsWords :
    ((0xD#4).getLsbD 1 = false ∧
      (∀ i, i ≤ (1#8).toNat → (Memory.read [(0, ID), (1, ID)] i).isSome = true) ∧
      (withDraws (okWrite ++ okWrite ++ okReadDraws ID)).port.draws =
        (List.replicate ((1#8).toNat + 1) okWriteDraws).flatten ++
          (if (0xD#4).getLsbD 0 && true then okReadDraws ID else []) ++ [] ∧
      (withDraws (okWrite ++ okWrite)).port.draws =
        (List.replicate ((1#8).toNat + 1) okWriteDraws).flatten ++
          (if (0x8#4).getLsbD 0 && true then okReadDraws ID else []) ++ []) ∧
    ([ID, 7#32].length = (1#8).toNat + 1 ∧
      (∀ i, i ≤ (1#8).toNat → Memory.read [(0, ID), (1, 7#32)] i = [ID, 7#32][i]?) ∧
      (answers.take 2).length = (1#8).toNat + 1 ∧ (∀ a ∈ answers.take 2 ++ answers.drop 4, a.Ends 255) ∧
      (answers.drop 4).length = (if (0xD#4).getLsbD 0 && true then 1 else 0) ∧
      ([] : List Answer).length = (if (0xD#4).getLsbD 0 && false then 1 else 0) ∧
      (withDraws (wait ++ okWrite ++ fault ++ waitDraws 255)).port.draws =
        (answers.take 2).flatMap Answer.writeDraws ++ (answers.drop 4).flatMap Answer.readDraws ++ []) := by
  decide +kernel

/-- By hand from R141, R173, R176, R177: a DP read of two words, FAULT then OK, goes on after the fault, keeps the earlier `DATA` in the first entry, and reports the fault. -/
theorem test_move_goes_on_after_fault :
    passes (exec (.dapMove 1#8 0x2#4 false) (withData 7#32 (fault ++ okRead ID true))) (fun t =>
      Memory.read t.words 0 == some 7#32 && Memory.read t.words 1 == some ID && t.ack == 0x1#4 && t.accum == 0x4#4 &&
        t.status == 2#3 && t.port.slots.length == 14 + 47 + 1) = true := by
  decide +kernel

theorem witness_WritePathFaultsOnUnwrittenWord :
    (0x8#4).getLsbD 1 = false ∧
      (2 ≤ (2#8).toNat ∧ Memory.read [(0, ID), (1, ID)] 2 = none ∧
        ∀ j, j < 2 → (Memory.read [(0, ID), (1, ID)] j).isSome = true) ∧
      (∀ i, i ≤ (1#8).toNat → (Memory.read [(0, ID), (1, ID)] i).isSome = true) := by
  decide +kernel

theorem witness_MoveFrame :
    (0x6#4).getLsbD 1 = true ∧ ∀ i, i ≤ (0#8).toNat → (Memory.read [(0, ID)] i).isSome = true := by
  decide +kernel

theorem witness_FinalConcernsApWritesOnly : (0xF#4).getLsbD 1 = true ∧ (0x8#4).getLsbD 0 = false := ⟨rfl, rfl⟩

theorem witness_MoveEndsWithTwoIdleSlots :
    (∃ t, exec (.dapMove 0#8 0x2#4 false) State.reset = .next t) ∧
      ∃ t, exec (.dapMove 0#8 0xD#4 true) { State.reset with words := [(0, ID)] } = .next t :=
  ⟨⟨_, exec_dapMove_read _ _ _ _ rfl⟩, _, exec_dapMove_write _ _ _ _ [ID] rfl rfl⟩

theorem witness_MoveIsBounded : ∃ t, exec (.dapMove 255#8 0xF#4 true) State.reset = .next t :=
  ⟨_, exec_dapMove_read _ _ _ _ rfl⟩

theorem witness_ConnectAndLineResetFrame : (Instr.connect = .connect ∨ Instr.connect = .lineReset) := Or.inl rfl

theorem witness_ConnectReadsIdcode :
    (254 < 255 ∧ (withDraws (okRead ID true)).port.draws = waitDraws 0 ++ okReadDraws ID ++ [] ∧
      (withDraws (waitDraws 254 ++ okRead ID true)).port.draws = waitDraws 254 ++ okReadDraws ID ++ []) ∧
    (∀ a ∈ answers, a.Ends 255 ∧ (withDraws a.readDraws).port.draws = a.readDraws ++ []) := by
  decide +kernel

theorem witness_ClearErrorsFrame :
    (refused.Ends 255 ∧ refused.Ends 255 ∧ (⟨254, 0b010#3, 0#32, false⟩ : Answer).Ends 255) ∧
      (withDraws (fault ++ fault ++ waitDraws 255)).port.draws =
        refused.readDraws ++ refused.writeDraws ++ Answer.readDraws ⟨254, 0b010#3, 0#32, false⟩ ++ [] := by
  decide +kernel

theorem witness_ClearErrorsSnapshots :
    (withDraws (okRead 0x20#32 true ++ okWrite ++ okRead 0#32 false)).port.draws =
      okReadDraws 0x20#32 ++ okWriteDraws ++ okReadDraws 0#32 ++ [] := by
  decide +kernel

theorem witness_HostReadChangesNothing :
    (withInputs [.read 32 0x004]).rstN = true ∧ (withInputs [.read 32 0x004]).inputs = Input.read 32 0x004 :: [] ∧
      ∃ t, step (withInputs [.read 32 0x004]) = .next t :=
  ⟨rfl, rfl, _, rfl⟩

/-- Offsets at the ends of each clause's range; the clauses share no offset. -/
theorem witness_IdleReadValues :
    (State.reset.rstN = true ∧ State.reset.busy = false) ∧ (running.rstN = true ∧ running.busy = true) ∧
      { running with inputs := [.read 32 0x3FC] }.inputs = Input.read 32 0x3FC :: [] ∧
      (withInputs [.read 32 (0x400 + 4 * 255)]).inputs = Input.read 32 (0x400 + 4 * 255) :: [] ∧
      ([0x000, 0x014, 0x3FC, 0x800].all (fun off =>
        decide (off = 0x000 ∨ (off % 4 = 0 ∧ ((0x010 < off ∧ off < 0x400) ∨ 0x800 ≤ off))))) = true ∧
      ([0x004, 0x008, 0x00C, 0x010, 0x400, 0x400 + 4 * 255].all (fun off =>
        decide (¬ (off = 0x000 ∨ (off % 4 = 0 ∧ ((0x010 < off ∧ off < 0x400) ∨ 0x800 ≤ off)))))) = true ∧
      Memory.read [(255, ID)] 255 = some ID ∧ Memory.read [(255, ID)] 0 = none :=
  ⟨⟨rfl, rfl⟩, ⟨rfl, rfl⟩, rfl, rfl, by decide +kernel, by decide +kernel, rfl, rfl⟩

theorem witness_BusyBlockAndTheHost :
    (running.rstN = true ∧ running.busy = true) ∧
    ({ running with inputs := [.write 32 0x000 0x0000000A#32] }.inputs = Input.write 32 0x000 0x0000000A#32 :: [] ∧
      { running with inputs := [.write 32 0x008 ID] }.inputs = Input.write 32 0x008 ID :: [] ∧
      { running with inputs := [.write 32 (0x400 + 4 * 255) ID] }.inputs = Input.write 32 (0x400 + 4 * 255) ID :: []) ∧
    ({ running with inputs := [.read 32 0x004] }.inputs = Input.read 32 0x004 :: [] ∧
      { running with inputs := [.read 32 0x010] }.inputs = Input.read 32 0x010 :: []) ∧
    ({ running with inputs := [.read 32 0x008] }.inputs = Input.read 32 0x008 :: [] ∧
      { running with inputs := [.read 32 0x00C] }.inputs = Input.read 32 0x00C :: [] ∧
      { running with inputs := [.read 32 (0x400 + 4 * 255)] }.inputs = Input.read 32 (0x400 + 4 * 255) :: [] ∧
      { running with inputs := [.read 32 (0x400 + 4 * 0)], words := [(0, ID)] }.inputs = Input.read 32 (0x400 + 4 * 0) :: []) :=
  ⟨⟨rfl, rfl⟩, ⟨rfl, rfl, rfl⟩, ⟨rfl, rfl⟩, rfl, rfl, rfl, rfl⟩

theorem witness_BadHostAccessIsRefused :
    ((16 ≠ 32 ∨ 0x004 % 4 ≠ 0) ∧ (withInputs [.read 16 0x004]).inputs = Input.read 16 0x004 :: []) ∧
      ((32 ≠ 32 ∨ 0x402 % 4 ≠ 0) ∧ (withInputs [.write 32 0x402 ID]).inputs = Input.write 32 0x402 ID :: []) :=
  ⟨⟨by decide, rfl⟩, by decide, rfl⟩

theorem witness_IdleHostWrites :
    (State.reset.rstN = true ∧ State.reset.busy = false) ∧ (running.rstN = true ∧ running.busy = true) ∧
      (withInputs [.write 32 (0x400 + 4 * 255) ID]).inputs = Input.write 32 (0x400 + 4 * 255) ID :: [] ∧
      { running with inputs := [.write 32 0x010 ID] }.inputs = Input.write 32 0x010 ID :: [] ∧
      ([0x004, 0x00C, 0x010, 0x3FC, 0x800].all (fun off =>
        decide (off % 4 = 0 ∧ (off = 0x004 ∨ (0x00C ≤ off ∧ off < 0x400) ∨ 0x800 ≤ off)))) = true :=
  ⟨⟨rfl, rfl⟩, ⟨rfl, rfl⟩, rfl, rfl, by decide⟩

theorem witness_SlotLevelAgreesWithCommandLevel : State.reset.Ready ∧ State.reset.inputs = [] := by decide

end Sys2Proof.Tests
end

section
/-! PROOFS. Scope, the wire (R11, R12, R73): whatever a step does, at either level and through reset, it only extends the port. -/

namespace Sys2Proof.Machine

/-- A part of a step that answers a state with the port untouched extends it trivially. -/
theorem Port.Extends.of_next {s u t : State}
    (h : (.next u : Host.Outcome State Fault Refusal) = .next t) (hp : u.port = s.port) : s.port.Extends t.port := by
  cases h
  rw [hp]
  exact Port.Extends.refl _

theorem issue_extends (i : Instr) (s t : State) (h : issue i s = .next t) : s.port.Extends t.port := by
  unfold issue at h
  split at h
  · exact exec_extends i s t h
  · exact .of_next h rfl

theorem issueWord_extends (w : Word) (s t : State) (h : issueWord w s = .next t) : s.port.Extends t.port := by
  unfold issueWord at h
  split at h
  · exact .of_next h rfl
  · split at h
    · exact issue_extends _ s t h
    · exact .of_next h rfl

theorem issueRequest_extends (b : Byte) (s t : State) (h : issueRequest b s = .next t) :
    s.port.Extends t.port := by
  unfold issueRequest at h
  split at h
  · exact .of_next h rfl
  · split at h <;> exact issue_extends _ s t h

theorem writeReg_extends (r : Option HostReg) (v : Word) (s t : State) (h : writeReg r v s = .next t) :
    s.port.Extends t.port := by
  unfold writeReg at h
  split at h
  case h_2 => exact issueWord_extends v s t h
  case h_4 | h_7 => exact .of_next h (by split <;> rfl)
  all_goals exact .of_next h rfl

theorem hostWrite_extends (width offset : Nat) (v : Word) (s t : State) (h : hostWrite width offset v s = .next t) :
    s.port.Extends t.port := by
  unfold hostWrite at h
  split at h
  · exact writeReg_extends _ v s t h
  · cases h

/-- A host read never touches the port (R49). -/
theorem hostRead_port (width offset : Nat) (s t : State) (h : hostRead width offset s = .next t) :
    t.port = s.port := by
  unfold hostRead at h
  split at h
  · obtain ⟨v, n, rfl⟩ := readReg_same _ s t h
    rfl
  · cases h

theorem handleInput_extends (a : Input) (s t : State) (h : handleInput a s = .next t) : s.port.Extends t.port := by
  cases a with
  | write width offset v => exact hostWrite_extends width offset v s t h
  | read width offset => exact hostRead_port width offset s t h ▸ Port.Extends.refl _
  | waitIdle =>
    simp only [handleInput] at h
    split at h
    · exact microStep_extends { s with inputs := .waitIdle :: s.inputs } t h
    · exact .of_next h rfl
  | tick => exact microStep_extends s t h
  | rstN level =>
    cases level with
    | true => exact .of_next h rfl
    | false => cases h; exact blockReset_extends s
  | request b => exact issueRequest_extends b s t h

/-- No input acts on the port while `RST_N` is low (R260). -/
theorem handleInReset_port (a : Input) (s t : State) (h : handleInReset a s = .next t) : t.port = s.port := by
  cases a with
  | write width offset v =>
    simp only [handleInReset] at h
    split at h
    · cases h; rfl
    · cases h
  | read width offset => exact hostRead_port width offset s t h
  | waitIdle | tick | rstN _ | request _ => cases h; rfl

/-- Every step only extends the wire, at both levels and through reset (R11, R73, R260). -/
theorem step_extends (s t : State) (h : step s = .next t) : s.port.Extends t.port := by
  unfold step stepAgents at h
  split at h
  · split at h
    next => exact microStep_extends s t h
    next a rest _ => exact handleInput_extends a { s with inputs := rest } t h
  · split at h
    next => cases h; exact blockReset_extends s
    next a rest _ =>
      exact handleInReset_port a { s.blockReset with inputs := rest } t h ▸ blockReset_extends s

/-- Settles O13: telling the pins is one of the things `Port.Extends` carries across a step. -/
theorem stepKeepsTraceTellingPins : Obligations.StepKeepsTraceTellingPins :=
  fun s t hs h => (step_extends s t h).tells hs

/-- Settles O15: the suffix and the slot count of `Port.Extends`. -/
theorem stepOnlyExtendsWire : Obligations.StepOnlyExtendsWire :=
  fun s t h => ⟨(step_extends s t h).trace, (step_extends s t h).slots⟩

end Sys2Proof.Machine
end

section
/-! PROOFS. Scope, the two levels (R5, R31, R85): the pseudocode of every instruction, run to its end or to its fault, is what the command level answers. -/

namespace Sys2Proof.Machine

/-! ### Runs that end -/

/-- No statement moves the position itself; the microsequencer does (R31). -/
theorem Runs.pos {todo : List Micro} {l l' : Locals} {s t : State} (h : Runs todo l s l' t) : t.pos = s.pos := by
  induction h with
  | done => rfl
  | cons h _ ih => exact ih.trans (runMicro_run _ _ _ _ _ _ h).pos

/-- Statements that only change the port, as `f` does. -/
abbrev StatementsDoPort (ms : List Micro) (f : Port → Port) : Prop := ∀ l s, Runs ms l s l { s with port := f s.port }

theorem DoesPort.cons {m : Micro} {ms : List Micro} {f g : Port → Port} (h : DoesPort m f) (hs : StatementsDoPort ms g) :
    StatementsDoPort (m :: ms) (fun p => g (f p)) := fun l s => (h l s).head (hs l _)

/-- A packet of the block's own, statement by statement (R209). -/
theorem does_packetProgram (dap : DapAddr) (l : Locals) (s : State) :
    ∃ l', l'.code = (sequencerPacket dap s).1 ∧ Runs (packetProgram dap) l s l' (sequencerPacket dap s).2 :=
  does_shiftPacket (reqHeader dap) 0x00#8 l s

theorem does_storeData (i : Nat) (l : Locals) (s : State) : Runs [.storeWord i] l s l (s.writeWord i s.data) :=
  .one rfl

/-- A line reset, statement by statement: `LINK` is written from the packet's code, which the idle byte leaves in the locals (R202). -/
theorem does_lineResetSeq (l : Locals) (s : State) : ∃ l', Runs [.lineResetSeq] l s l' (lineResetSeq s) := by
  have h1 : Runs _ l s l { s with port := s.port.shiftResetSeq.shiftOutByte 0x00#8 } :=
    does_shiftResetSeq.cons (does_shiftOutByte 0x00#8) l s
  obtain ⟨l1, hcode, h2⟩ :=
    does_packetProgram dpIdcodeRd l { s with port := s.port.shiftResetSeq.shiftOutByte 0x00#8 }
  simp only [lineResetSeq]
  generalize s.port.shiftResetSeq.shiftOutByte 0x00#8 = p at *
  generalize sequencerPacket dpIdcodeRd { s with port := p } = r at *
  have h3 := does_shiftOutByte 0x00#8 l1 r.2
  generalize r.2.port.shiftOutByte 0x00#8 = q at *
  have h4 : Runs [.linkFromCode] l1 { r.2 with port := q } l1 { r.2 with port := q, link := linkAfter r.1 } :=
    .one (by rw [← hcode]; rfl)
  have hbody := h1.append (h2.append (h3.head h4))
  exact ⟨l1, .expand rfl hbody⟩

/-- A CTRL/STAT read and its snapshot, statement by statement (R208). -/
theorem does_clearErrorsRead (i : Nat) (l : Locals) (s : State) :
    ∃ l', Runs (packetProgram dpCtrlstatRd ++ [.storeWord i]) l s l' (clearErrorsRead i s) := by
  obtain ⟨l', _, h⟩ := does_packetProgram dpCtrlstatRd l s
  exact ⟨l', h.append (does_storeData i l' _)⟩

theorem does_clearErrors (l : Locals) (s : State) :
    ∃ l', Runs (program .clearErrors) l s l'
      (clearErrorsRead 1 (sequencerPacket dpAbortWr { clearErrorsRead 0 s with data := abortMask }).2) := by
  obtain ⟨l1, h1⟩ := does_clearErrorsRead 0 l s
  have h2 : Runs [.data abortMask] l1 (clearErrorsRead 0 s) l1 { clearErrorsRead 0 s with data := abortMask } := .one rfl
  obtain ⟨l2, _, h3⟩ := does_packetProgram dpAbortWr l1 { clearErrorsRead 0 s with data := abortMask }
  obtain ⟨l3, h4⟩ := does_clearErrorsRead 1 l2 (sequencerPacket dpAbortWr { clearErrorsRead 0 s with data := abortMask }).2
  exact ⟨l3, h1.append (h2.append (h3.append h4))⟩

/-! ### Moves -/

/-- The move's paths between its start and its end, in a read move (R173). -/
theorem does_moveReadPath (count : Byte) (dap : DapAddr) (final : Bool) (hr : isRead dap = true) (l : Locals)
    (s : State) : ∃ l', Runs (moveProgram count dap final) l s l' (moveReadPath count dap s) := by
  unfold moveProgram moveReadPath
  rw [if_pos hr]
  split
  · obtain ⟨l1, _, h1⟩ := does_shiftPacket (reqHeader dap) 0x00#8 l s
    obtain ⟨l2, h2⟩ := does_moveRead (reqHeader dap) (moveLength count - 1) (moveLength count - 1) 0 (Nat.zero_add _) l1
      (movePacket (reqHeader dap) s)
    obtain ⟨l3, _, h3⟩ := does_shiftPacket (reqHeader dpRdbuffRd) 0x00#8 l2
      (readWords (reqHeader dap) (moveLength count - 1) 0 (movePacket (reqHeader dap) s))
    exact ⟨l3, h1.head (h2.head (h3.head (does_storeData _ l3 _)))⟩
  · exact does_moveRead (reqHeader dap) (moveLength count) (moveLength count) 0 (Nat.zero_add _) l s

/-- The same in a write move whose entries are all written (R174, R175). -/
theorem does_moveWritePath (count : Byte) (dap : DapAddr) (final : Bool) (hr : isRead dap = false) (ws : List Word)
    (l : Locals) (s : State) (hg : Memory.gather s.words (moveLength count) 0 = .ok ws) :
    ∃ l', Runs (moveProgram count dap final) l s l' (moveWrite dap final ws s) := by
  obtain ⟨l1, h1⟩ := does_moveWrite (reqHeader dap) (moveLength count) (moveLength count) 0 (Nat.zero_add _) l s ws hg
  unfold moveProgram moveWrite
  rw [if_neg (by simp [hr])]
  split
  · obtain ⟨l2, _, h2⟩ := does_shiftPacket (reqHeader dpRdbuffRd) 0x00#8 l1 (writeWords (reqHeader dap) ws s)
    exact ⟨l2, h1.head h2⟩
  · exact ⟨l1, h1⟩

/-- A move whose path runs to its end: start, path, idle pulse, status (R171, R177, R178). -/
theorem does_dapMove {count : Byte} {dap : DapAddr} {final : Bool} {l l' : Locals} {s t : State}
    (h : Runs (moveProgram count dap final) l (startMove s) l' t) :
    Runs (program (.dapMove count dap final)) l s l' (endMove t) := by
  have h1 : Runs [.accumOk] l s l (startMove s) := .one rfl
  have h2 : Runs [.statusFromAccum] l' { t with port := t.port.idlePulse } l' (endMove t) := .one rfl
  exact h1.head (h.append ((does_idlePulse l' t).head h2))

/-! ### Runs that fault -/

/-- Running the statements `todo` from `l` and `s` stops at one that faults with `f`. -/
inductive Faults (f : Fault) : List Micro → Locals → State → Prop where
  | now {m : Micro} {rest : List Micro} {l : Locals} {s : State} (h : runMicro m l s = .error f) :
      Faults f (m :: rest) l s
  | later {m : Micro} {rest body : List Micro} {l l1 : Locals} {s s1 : State}
      (h : runMicro m l s = .ok (body, l1, s1)) (g : Faults f (body ++ rest) l1 s1) : Faults f (m :: rest) l s

/-- Statements that run to their end, followed by ones that fault, fault. -/
theorem Runs.faults {f : Fault} {a b : List Micro} {l l1 : Locals} {s s1 : State} (h : Runs a l s l1 s1)
    (g : Faults f b l1 s1) : Faults f (a ++ b) l s := by
  induction h with
  | done => exact g
  | cons h _ ih => exact .later h (by have := ih g; rwa [List.append_assoc] at this)

/-- Statements that fault stop the machine with their fault (R174, U7). -/
theorem run_of_faults {f : Fault} {todo : List Micro} {l : Locals} {s : State} (h : Faults f todo l s)
    (hr : s.rstN = true) (hi : s.inputs = []) :
    ∃ n, Host.Core.run Sys2Proof.core n { s with busy := true, pos := .running todo l } = .fault f := by
  induction h with
  | now h =>
    refine ⟨1, run_fault 0 _ _ ?_⟩
    rw [step_running _ _ _ hr hi]
    simp only [microStep, runMicro_position, h]
  | @later m rest body l l1 s s1 h g ih =>
    obtain ⟨hrst, hin, _⟩ := (runMicro_run m l s body l1 s1 h).surroundings
    obtain ⟨n, hn⟩ := ih (hrst.trans hr) (hin.trans hi)
    refine ⟨n + 1, (run_next n _ _ ?_).trans hn⟩
    rw [step_running s _ l hr hi]
    simp only [microStep, runMicro_position, h]
    cases hb : body ++ rest with
    | nil => rw [hb] at g; cases g
    | cons x y => rfl

/-- The first unwritten entry is the one at hand, or that of the entries after it. -/
theorem Memory.gather_succ_error {m : Memory} {n i j : Nat} (h : Memory.gather m (n + 1) i = .error j) :
    (Memory.read m i = none ∧ j = i) ∨ ∃ w, Memory.read m i = some w ∧ Memory.gather m n (i + 1) = .error j := by
  unfold Memory.gather at h
  split at h
  next hr => cases h; exact .inl ⟨hr, rfl⟩
  next w hr =>
    split at h
    next => cases h
    next hg => cases h; exact .inr ⟨w, hr, hg⟩

/-- The write loop of a move faults at its first unwritten entry: its packets leave `WORDS` alone (R174). -/
theorem faults_moveWrite (h : Byte) (n k i j : Nat) (hk : i + k = n) (rest : List Micro) (l : Locals) (s : State)
    (hg : Memory.gather s.words k i = .error j) : Faults (.unwrittenWord j) (.moveWrite h i n :: rest) l s := by
  induction k generalizing i l s with
  | zero => cases hg
  | succ k ih =>
    refine .later (body := [.loadWord i, .shiftPacket h 0x00#8, .moveWrite h (i + 1) n]) (l1 := l) (s1 := s) ?_ ?_
    · simp only [runMicro]; rw [if_pos (by omega)]
    obtain ⟨hnone, rfl⟩ | ⟨w, hsome, hlater⟩ := Memory.gather_succ_error hg
    · exact .now (by simp only [runMicro, hnone])
    · obtain ⟨l1, _, hp⟩ := does_shiftPacket h 0x00#8 l { s with data := w }
      have hload : Runs [.loadWord i] l s l { s with data := w } := .one (by simp only [runMicro, hsome])
      exact (hload.head hp).faults (ih (i + 1) (by omega) l1 _ (by rw [shiftPacket_words]; exact hlater))

/-- A write move one of whose entries is unwritten faults at the slot level too (R174, log entry 14). -/
theorem faults_dapMove (count : Byte) (dap : DapAddr) (final : Bool) (hr : isRead dap = false) (j : Nat) (l : Locals)
    (s : State) (hg : Memory.gather s.words (moveLength count) 0 = .error j) :
    Faults (.unwrittenWord j) (program (.dapMove count dap final)) l s := by
  have hprog : program (.dapMove count dap final) = .accumOk :: .moveWrite (reqHeader dap) 0 (moveLength count) ::
      ((if isAp dap && final then packetProgram dpRdbuffRd else []) ++ [.idlePulse, .statusFromAccum]) := by
    simp [program, moveProgram, packetProgram, hr]
  rw [hprog]
  have hstart : Runs [.accumOk] l s l (startMove s) := .one rfl
  exact hstart.faults (faults_moveWrite _ _ _ 0 j (Nat.zero_add _) _ l (startMove s) hg)

/-! ### The two levels agree -/

/-- A request header's pseudocode is that of the packet it is (R90; log entry 8). -/
theorem program_request (i : Instr) (dap : DapAddr) (h : requestDap i = some dap) :
    program i = program (.shiftPacket (reqHeader dap) 0x00#8) := by
  cases i <;> simp only [requestDap, Option.some.injEq, reduceCtorEq] at h <;> subst h <;> rfl

/-- The machine, started on the pseudocode of `i` in `s`, comes to what `exec` answers (R5). -/
abbrev SlotsAgree (i : Instr) (s : State) : Prop :=
  ∃ n, Host.Core.run Sys2Proof.core n (s.startSlots (program i)) = exec i s

section
variable {s : State} (hR : s.Ready) (hi : s.inputs = [])
include hR hi

/-- The levels agree when the statements run to the state the meaning gives before `BUSY <- 0`. -/
theorem slotsAgree_of_runs {i : Instr} {t : State} {l' : Locals} (h : Runs (program i) {} s.accept l' t)
    (he : exec i s = .next t.finish) : SlotsAgree i s := by
  unfold SlotsAgree
  rw [he]
  exact run_program s t (program i) l' hR hi h (h.pos.trans hR.2.1)

/-- The case of a command that touches the port alone. -/
theorem slotsAgree_of_port {i : Instr} {f : Port → Port} (h : StatementsDoPort (program i) f)
    (he : exec i s = .next { s with port := f s.port, busy := false }) : SlotsAgree i s :=
  slotsAgree_of_runs hR hi (h {} s.accept) he

theorem slotsAgree_dapMove (count : Byte) (dap : DapAddr) (final : Bool) : SlotsAgree (.dapMove count dap final) s := by
  cases hr : isRead dap with
  | true =>
    obtain ⟨l', h⟩ := does_moveReadPath count dap final hr {} (startMove s.accept)
    exact slotsAgree_of_runs hR hi (does_dapMove h) (exec_dapMove_read count dap final s hr)
  | false =>
    cases hg : Memory.gather s.words (moveLength count) 0 with
    | ok ws =>
      obtain ⟨l', h⟩ := does_moveWritePath count dap final hr ws {} (startMove s.accept) hg
      exact slotsAgree_of_runs hR hi (does_dapMove h) (exec_dapMove_write count dap final s ws hr hg)
    | error j =>
      unfold SlotsAgree
      rw [exec_dapMove_fault count dap final s j hr hg]
      exact run_of_faults (faults_dapMove count dap final hr j {} s hg) hR.2.2 hi

theorem slotsAgree_shiftPacket (req retry : Byte) : SlotsAgree (.shiftPacket req retry) s := by
  obtain ⟨l', _, h⟩ := does_shiftPacket req retry {} s.accept
  exact slotsAgree_of_runs hR hi h rfl

theorem slotsAgree_request (i : Instr) (dap : DapAddr) (h : requestDap i = some dap) : SlotsAgree i s := by
  unfold SlotsAgree
  rw [program_request i dap h, exec_request i dap s h]
  exact slotsAgree_shiftPacket hR hi _ _

theorem slotsAgree_connect : SlotsAgree .connect s := by
  have h1 : Runs _ {} s.accept {} { s.accept with port := s.port.idleLines.jtagToSwd } :=
    does_idleLines.cons does_jtagToSwd {} s.accept
  have he := exec_connect s
  generalize s.port.idleLines.jtagToSwd = p at h1 he
  have h2 : Runs [.link linkLineResetPending] {} { s.accept with port := p } {}
      { s.accept with port := p, link := linkLineResetPending } := .one rfl
  obtain ⟨l', h3⟩ := does_lineResetSeq {} { s.accept with port := p, link := linkLineResetPending }
  have h := h1.append (h2.head h3)
  exact slotsAgree_of_runs hR hi h he

theorem slotsAgree_disconnect : SlotsAgree .disconnect s := by
  have h1 : Runs _ {} s.accept {} { s.accept with port := (s.port.swdToJtag.setClkOe false).setDioOe false } :=
    does_swdToJtag.cons ((does_clkOe false).cons (does_dioOe false)) {} s.accept
  have he := exec_disconnect s
  generalize (s.port.swdToJtag.setClkOe false).setDioOe false = p at h1 he
  have h2 : Runs [.link linkDisconnected] {} { s.accept with port := p } {}
      { s.accept with port := p, link := linkDisconnected } := .one rfl
  have h := h1.append h2
  exact slotsAgree_of_runs hR hi h he

theorem slotsAgree_shiftIn : SlotsAgree .shiftIn s := by
  have h1 := does_shiftInByte {} s.accept
  have he := exec_shiftIn s
  rw [State.accept_port] at h1
  generalize s.port.shiftInByte = r at h1 he
  exact slotsAgree_of_runs hR hi (h1.head (.one rfl)) he

end

/-- Settles O59, instruction by instruction: the routines of the pseudocode do what those of the command level do, and a write move with an unwritten entry faults at both. -/
theorem slotLevelAgreesWithCommandLevel : Obligations.SlotLevelAgreesWithCommandLevel := by
  intro i s hR hi
  cases i with
  | setClock l => exact slotsAgree_of_port hR hi ((does_clkOe true).cons (does_clk l)) (exec_setClock l s)
  | setData l => exact slotsAgree_of_port hR hi (does_dioOut l) (exec_setData l s)
  | readData => exact slotsAgree_of_runs hR hi (.head (.one rfl) (.one rfl)) (exec_readData s)
  | setDir d => exact slotsAgree_of_port hR hi (does_dioOe d) (exec_setDir d s)
  | shiftOut b => exact slotsAgree_of_port hR hi (does_shiftOutByte b) (exec_shiftOut b s)
  | shiftIn => exact slotsAgree_shiftIn hR hi
  | shiftReset => exact slotsAgree_of_port hR hi does_shiftResetSeq (exec_shiftReset s)
  | shiftPacket req retry => exact slotsAgree_shiftPacket hR hi req retry
  | dapMove count dap final => exact slotsAgree_dapMove hR hi count dap final
  | connect => exact slotsAgree_connect hR hi
  | lineReset =>
    obtain ⟨l', h⟩ := does_lineResetSeq {} s.accept
    exact slotsAgree_of_runs hR hi h (exec_lineReset s)
  | disconnect => exact slotsAgree_disconnect hR hi
  | clearErrors =>
    obtain ⟨l', h⟩ := does_clearErrors {} s.accept
    exact slotsAgree_of_runs hR hi h (exec_clearErrors s)
  | _ => exact slotsAgree_request hR hi _ _ rfl

end Sys2Proof.Machine
end

section
/-! PROOFS. State, the registers (R21, R29, R32, R33, R34): which instructions write `STATUS`, `RESULT` and `ACCUM`, that `LINK` gates none of them, and what each does to SWCLK. -/

namespace Sys2Proof.Machine

/-! ### `STATUS`, `RESULT` and `ACCUM` -/

/-- Settles O16: the `STATUS` field of `ExecRun`, and the report of an invalid word. -/
theorem statusWriters : Obligations.StatusWriters := by
  refine ⟨fun i s t h => ?_, fun s w e hb he => ⟨s.reportInvalid, by simp [issueWord, hb, he], rfl⟩⟩
  obtain ⟨u, hu, ht⟩ := (exec_run i s t h).run
  cases hw : writesStatus i with
  | true => rw [ht, hw]; rfl
  | false =>
    rw [hw] at hu ht
    rw [ht]
    exact hu.status

/-- Settles O19: the states `READ_DATA` and `SHIFT_IN` answer, and the `RESULT` field of `ExecRun` for the rest. -/
theorem resultWriters : Obligations.ResultWriters := by
  refine ⟨fun s => ⟨_, exec_readData s, ?_⟩, fun s => ?_, fun i s t hi h => (exec_run i s t h).result hi⟩
  · exact congrArg (fun b => (BitVec.ofBool b).setWidth 8) (Port.sample_fst s.port)
  · have he := exec_shiftIn s
    have hbits := Port.shiftInByte_getLsbD s.port
    generalize s.port.shiftInByte = r at he hbits
    exact ⟨_, he, hbits⟩

/-- Settles O20: outside a move an instruction is a run of packets from `s` itself, and no packet sets `ACCUM` back. -/
theorem accumClearedByMovesOnly : Obligations.AccumClearedByMovesOnly := by
  intro i s t hi h
  obtain ⟨u, hu, ht⟩ := (exec_run i s t h).run
  rw [hi] at hu
  rw [ht]
  exact hu.accumOk

/-! ### `LINK` gates nothing -/

/-- `s` with `v` in `LINK`. -/
def State.withLink (v : BitVec 2) (s : State) : State := { s with link := v }

@[simp] theorem State.withLink_port (v : BitVec 2) (s : State) : (s.withLink v).port = s.port := rfl
theorem State.withLink_accept (v : BitVec 2) (s : State) : (s.withLink v).accept = s.accept.withLink v := rfl
theorem State.withLink_startMove (v : BitVec 2) (s : State) : startMove (s.withLink v) = (startMove s).withLink v := rfl

/-- A run of packets keeps `LINK`, so writing `LINK` before it or after it is the same. -/
theorem PacketRun.withRun_withLink {P : Nat → Prop} {s t : State} (h : PacketRun P s t) (v : BitVec 2) :
    (s.withLink v).withRun t = t.withLink v := by
  conv_rhs => rw [h.same]
  rfl

theorem shiftPacket_withLink (req retry : Byte) (v : BitVec 2) (s : State) :
    (shiftPacket req retry (s.withLink v)).2 = (shiftPacket req retry s).2.withLink v :=
  (shiftPacket_withRun req retry (s.withLink v) s).trans
    ((shiftPacket_run (fun _ => False) req retry s).withRun_withLink v)

theorem moveReadPath_withLink (count : Byte) (dap : DapAddr) (v : BitVec 2) (s : State) :
    moveReadPath count dap (s.withLink v) = (moveReadPath count dap s).withLink v :=
  (moveReadPath_withRun count dap (s.withLink v) s).trans ((moveReadPath_run count dap s).withRun_withLink v)

theorem moveWrite_withLink (dap : DapAddr) (final : Bool) (ws : List Word) (v : BitVec 2) (s : State) :
    moveWrite dap final ws (s.withLink v) = (moveWrite dap final ws s).withLink v :=
  (moveWrite_withRun dap final ws (s.withLink v) s).trans
    ((moveWrite_run (fun _ => False) dap final ws s).withRun_withLink v)

theorem clearErrorsRead_withLink (i : Nat) (v : BitVec 2) (s : State) :
    clearErrorsRead i (s.withLink v) = (clearErrorsRead i s).withLink v := by
  simp only [clearErrorsRead, sequencerPacket, shiftPacket_withLink]
  generalize (shiftPacket (reqHeader dpCtrlstatRd) 0x00#8 s).2 = t
  rfl

/-- A line reset writes `LINK` without reading it (R200, R202). -/
theorem lineResetSeq_withLink (v : BitVec 2) (s : State) : lineResetSeq (s.withLink v) = lineResetSeq s := by
  simp only [lineResetSeq, sequencerPacket, State.withLink_port]
  generalize s.port.shiftResetSeq.shiftOutByte 0x00#8 = p
  have hcode := (shiftPacket_congr (reqHeader dpIdcodeRd) 0x00#8 { s with port := p }
    (State.withLink v { s with port := p }) rfl rfl).1
  have hstate := shiftPacket_withLink (reqHeader dpIdcodeRd) 0x00#8 v { s with port := p }
  simp only [State.withLink] at hcode hstate ⊢
  rw [hcode, hstate]

/-- The outcome `o` with `v` in `LINK` of its next state. -/
def outcomeWithLink (v : BitVec 2) (o : Host.Outcome State Fault Refusal) : Host.Outcome State Fault Refusal :=
  match o with
  | .next t => .next (t.withLink v)
  | .fault f => .fault f
  | .refused r => .refused r

theorem exec_withLink_of_port {i : Instr} (v : BitVec 2) (s : State) (f : Port → Port)
    (he : ∀ u, exec i u = .next { u with port := f u.port, busy := false }) :
    exec i (s.withLink v) = outcomeWithLink v (exec i s) := by
  rw [he, he]; rfl

theorem exec_shiftPacket_withLink (q r : Byte) (v : BitVec 2) (s : State) :
    exec (.shiftPacket q r) (s.withLink v) = outcomeWithLink v (exec (.shiftPacket q r) s) := by
  rw [exec_shiftPacket, exec_shiftPacket, shiftPacket_withLink]
  generalize (shiftPacket q r s).2 = t
  rfl

theorem exec_dapMove_withLink (c : Byte) (d : DapAddr) (f : Bool) (v : BitVec 2) (s : State) :
    exec (.dapMove c d f) (s.withLink v) = outcomeWithLink v (exec (.dapMove c d f) s) := by
  cases hr : isRead d with
  | true =>
    rw [exec_dapMove_read c d f _ hr, exec_dapMove_read c d f s hr, State.withLink_accept, State.withLink_startMove,
      moveReadPath_withLink]
    generalize moveReadPath c d (startMove s.accept) = t
    rfl
  | false =>
    cases hg : Memory.gather s.words (moveLength c) 0 with
    | ok ws =>
      rw [exec_dapMove_write c d f s ws hr hg, exec_dapMove_write c d f (s.withLink v) ws hr hg, State.withLink_accept,
        State.withLink_startMove, moveWrite_withLink]
      generalize moveWrite d f ws (startMove s.accept) = t
      rfl
    | error i =>
      rw [exec_dapMove_fault c d f s i hr hg, exec_dapMove_fault c d f (s.withLink v) i hr hg]
      rfl

theorem exec_clearErrors_withLink (v : BitVec 2) (s : State) :
    exec .clearErrors (s.withLink v) = outcomeWithLink v (exec .clearErrors s) := by
  rw [exec_clearErrors, exec_clearErrors, State.withLink_accept, clearErrorsRead_withLink]
  generalize clearErrorsRead 0 s.accept = t
  have h := shiftPacket_withLink (reqHeader dpAbortWr) 0x00#8 v { t with data := abortMask }
  simp only [State.withLink, sequencerPacket] at h ⊢
  rw [h]
  generalize (shiftPacket (reqHeader dpAbortWr) 0x00#8 { t with data := abortMask }).2 = u
  exact congrArg (fun x => Host.Outcome.next x.finish) (clearErrorsRead_withLink 1 v u)

/-- An instruction that does not write `LINK` carries another value of it along (R34). -/
theorem exec_withLink_of_keeps (i : Instr) (v : BitVec 2) (s : State) (hi : writesLink i = false) :
    exec i (s.withLink v) = outcomeWithLink v (exec i s) := by
  have request : ∀ dap, requestDap i = some dap → exec i (s.withLink v) = outcomeWithLink v (exec i s) := by
    intro dap hd
    rw [exec_request i dap _ hd, exec_request i dap s hd]
    exact exec_shiftPacket_withLink _ _ v s
  cases i with
  | setClock l => exact exec_withLink_of_port v s (fun p => (p.setClkOe true).setClk l) (exec_setClock l)
  | setData l => exact exec_withLink_of_port v s (Port.setDioOut l) (exec_setData l)
  | readData => rw [exec_readData, exec_readData]; rfl
  | setDir d => exact exec_withLink_of_port v s (Port.setDioOe d) (exec_setDir d)
  | shiftOut b => exact exec_withLink_of_port v s (Port.shiftOutByte b) (exec_shiftOut b)
  | shiftIn =>
    rw [exec_shiftIn, exec_shiftIn, State.withLink_port]
    generalize s.port.shiftInByte = r
    rfl
  | shiftReset => exact exec_withLink_of_port v s Port.shiftResetSeq exec_shiftReset
  | shiftPacket q r => exact exec_shiftPacket_withLink q r v s
  | dapMove c d f => exact exec_dapMove_withLink c d f v s
  | clearErrors => exact exec_clearErrors_withLink v s
  | connect | lineReset | disconnect => cases hi
  | _ => exact request _ rfl

/-- An instruction that writes `LINK` does not read it (R200, R202, R205, R207). -/
theorem exec_withLink_of_writes (i : Instr) (v : BitVec 2) (s : State) (hi : writesLink i = true) :
    exec i (s.withLink v) = exec i s := by
  cases i with
  | connect => rw [exec_connect, exec_connect]; rfl
  | lineReset => rw [exec_lineReset, exec_lineReset, State.withLink_accept, lineResetSeq_withLink]
  | disconnect => rw [exec_disconnect, exec_disconnect]; rfl
  | _ => cases hi

/-- Settles O18: writers of `LINK` do not read it, the others carry it along. -/
theorem linkGatesNothing : Obligations.LinkGatesNothing := by
  intro i s v
  cases hi : writesLink i with
  | true => exact (exec_withLink_of_writes i v s hi).trans (by cases exec i s <;> rfl)
  | false => exact (exec_withLink_of_keeps i v s hi).trans (by cases exec i s <;> rfl)

/-! ### SWCLK -/

/-- SWCLK driven low, as every `Pulse()` leaves it (R10, R21). -/
def Port.ClockLow (p : Port) : Prop := p.pins.clkOe = true ∧ p.pins.clk = false

theorem Port.clockLow_of_pins {p : Port} {oe out : Bool} (h : p.pins = ⟨true, false, oe, out⟩) : p.ClockLow := by
  unfold Port.ClockLow; rw [h]; exact ⟨rfl, rfl⟩

theorem Port.shiftOutByte_clockLow (b : Byte) (p : Port) : (p.shiftOutByte b).ClockLow :=
  Port.clockLow_of_pins (Port.shiftOutByte_pins b p)

theorem Port.shiftInByte_clockLow (p : Port) : p.shiftInByte.2.ClockLow :=
  Port.clockLow_of_pins (Port.shiftInByte_pins p)

theorem Port.shiftResetSeq_clockLow (p : Port) : p.shiftResetSeq.ClockLow :=
  Port.clockLow_of_pins (Port.shiftResetSeq_pins p)

/-- Everything an instruction can do to SWCLK (R21): `DISCONNECT` releases it, `SET_CLOCK` drives its level without a pulse, some leave it alone and add no slot, all others end with it driven low. -/
inductive ClockEffect (s t : State) : Instr → Prop where
  | released (hoe : t.port.pins.clkOe = false) (hclk : t.port.pins.clk = false) : ClockEffect s t .disconnect
  | set (level : Bool) (hoe : t.port.pins.clkOe = true) (hclk : t.port.pins.clk = level)
      (hslots : t.port.slots = s.port.slots) : ClockEffect s t (.setClock level)
  | kept {i : Instr} (hconnect : i ≠ .connect) (hset : ∀ level, i ≠ .setClock level) (hdisconnect : i ≠ .disconnect)
      (hoe : t.port.pins.clkOe = s.port.pins.clkOe) (hclk : t.port.pins.clk = s.port.pins.clk)
      (hslots : t.port.slots = s.port.slots) : ClockEffect s t i
  | low {i : Instr} (hdisconnect : i ≠ .disconnect) (hlow : t.port.ClockLow) : ClockEffect s t i

theorem lineResetSeq_clockLow (s : State) : (lineResetSeq s).port.ClockLow := by
  obtain ⟨t, -, he, -, hpins, -⟩ := lineResetSeq_run (fun _ => False) s
  rw [he]
  exact Port.clockLow_of_pins hpins

theorem clearErrorsRead_clockLow (i : Nat) (s : State) : (clearErrorsRead i s).port.ClockLow :=
  Port.clockLow_of_pins (shiftPacket_pins (reqHeader dpCtrlstatRd) 0x00#8 s)

theorem clockLow_of_next {i : Instr} {s t : State} {p : Port} {r : Byte}
    (he : exec i s = .next { s with port := p, result := r, busy := false }) (hp : p.ClockLow)
    (h : exec i s = .next t) : t.port.ClockLow := by
  rw [he] at h; injection h with h; subst h
  exact hp

theorem clockLow_of_finish {i : Instr} {s t u : State} (he : exec i s = .next u.finish) (hu : u.port.ClockLow)
    (h : exec i s = .next t) : t.port.ClockLow := by
  rw [he] at h; injection h with h; subst h
  exact hu

theorem exec_shiftPacket_clockLow (q r : Byte) (s t : State) (h : exec (.shiftPacket q r) s = .next t) :
    t.port.ClockLow := by
  rw [exec_shiftPacket] at h; injection h with h; subst h
  exact Port.clockLow_of_pins (shiftPacket_pins q r s)

/-- What an instruction that answers a next state does to SWCLK. -/
theorem exec_clockEffect (i : Instr) (s t : State) (h : exec i s = .next t) : ClockEffect s t i := by
  have request : ∀ dap, requestDap i = some dap → i ≠ .disconnect → ClockEffect s t i := by
    intro dap hd hi
    rw [exec_request i dap s hd] at h
    exact .low hi (exec_shiftPacket_clockLow _ _ s t h)
  cases i with
  | setClock l => rw [exec_setClock] at h; injection h with h; subst h; exact .set l (by simp) (by simp) (by simp)
  | setData l =>
    rw [exec_setData] at h; injection h with h; subst h
    exact .kept nofun nofun nofun (by simp) (by simp) (by simp)
  | readData => rw [exec_readData] at h; injection h with h; subst h; exact .kept nofun nofun nofun rfl rfl rfl
  | setDir d =>
    rw [exec_setDir] at h; injection h with h; subst h
    exact .kept nofun nofun nofun (by simp) (by simp) (by simp)
  | shiftOut b => exact .low nofun (clockLow_of_next (exec_shiftOut b s) (Port.shiftOutByte_clockLow b s.port) h)
  | shiftIn => exact .low nofun (clockLow_of_next (exec_shiftIn s) (Port.shiftInByte_clockLow s.port) h)
  | shiftReset => exact .low nofun (clockLow_of_next (exec_shiftReset s) (Port.shiftResetSeq_clockLow s.port) h)
  | shiftPacket q r => exact .low nofun (exec_shiftPacket_clockLow q r s t h)
  | dapMove c d f =>
    obtain ⟨u, -, rfl⟩ := exec_dapMove_next c d f s t h
    exact .low nofun (Port.clockLow_of_pins (Port.idlePulse_pins u.port))
  | connect => exact .low nofun (clockLow_of_finish (exec_connect s) (lineResetSeq_clockLow _) h)
  | lineReset => exact .low nofun (clockLow_of_finish (exec_lineReset s) (lineResetSeq_clockLow _) h)
  | disconnect =>
    rw [exec_disconnect] at h; injection h with h; subst h
    exact .released (by simp) (by simp [Port.swdToJtag])
  | clearErrors => exact .low nofun (clockLow_of_finish (exec_clearErrors s) (clearErrorsRead_clockLow 1 _) h)
  | _ => exact request _ rfl nofun

/-- Settles O21, effect by effect of `ClockEffect`. -/
theorem clockLatches : Obligations.ClockLatches := by
  intro i s t h
  cases exec_clockEffect i s t h with
  | released hoe hclk => simp [hoe, hclk]
  | set l hoe hclk hslots => simp [hoe, hclk, hslots]
  | kept hconnect hset hdisconnect hoe hclk hslots => simp [hconnect, hset, hdisconnect, hoe, hclk, hslots]
  | low hdisconnect hlow =>
    obtain ⟨hoe, hclk⟩ := hlow
    simp [hdisconnect, hoe, hclk]

end Sys2Proof.Machine
end

section
/-! PROOFS. State, the host register interface (R39 to R50): what a host access does, register by register, busy and idle; and the reset values. -/

namespace Sys2Proof.Machine

/-! ### Reset -/

/-- A reset of the block finds the reset state as it is (R50, R260). -/
theorem State.reset_blockReset : State.reset.blockReset = State.reset := rfl

/-- Settles O9: the reset state is one a reset of the block leaves. -/
theorem resetValues : Obligations.ResetValues :=
  show State.reset.AtReset from State.reset_blockReset ▸ blockReset_atReset State.reset

/-- Settles O14: the reset state is one a reset of the block leaves, and its trace is empty. -/
theorem resetMeetsInvariants : Obligations.ResetMeetsInvariants :=
  ⟨State.reset_blockReset ▸ blockReset_inv State.reset, rfl, rfl⟩

/-! ### A host access as a step -/

/-- Out of reset the next input acts (R6, R260). -/
theorem step_input {s : State} {a : Input} {rest : List Input} (hr : s.rstN = true) (hi : s.inputs = a :: rest) :
    step s = handleInput a { s with inputs := rest } := by
  simp [step, stepAgents, hr, hi]

/-- While `RST_N` is low the block is reset first (R260). -/
theorem step_input_low {s : State} {a : Input} {rest : List Input} (hr : s.rstN = false) (hi : s.inputs = a :: rest) :
    step s = handleInReset a { s.blockReset with inputs := rest } := by
  simp [step, stepAgents, hr, hi]

theorem hostRead_good {width offset : Nat} (s : State) (h : goodAccess width offset = true) :
    hostRead width offset s = readReg (HostReg.ofOffset offset) s := if_pos h

theorem hostRead_bad {width offset : Nat} (s : State) (h : goodAccess width offset = false) :
    hostRead width offset s = .refused (.badHostAccess width offset) := if_neg (by simp [h])

theorem hostWrite_bad {width offset : Nat} (v : Word) (s : State) (h : goodAccess width offset = false) :
    hostWrite width offset v s = .refused (.badHostAccess width offset) := if_neg (by simp [h])

/-- A 32-bit read at a register's offset reads that register (R39, R47). -/
theorem step_read {s : State} {offset : Nat} {rest : List Input} {r : Option HostReg} (hr : s.rstN = true)
    (hi : s.inputs = .read 32 offset :: rest) (h4 : offset % 4 = 0) (ho : HostReg.ofOffset offset = r) :
    step s = readReg r { s with inputs := rest } := by
  simp [step_input hr hi, handleInput, hostRead, goodAccess, h4, ho]

/-- A 32-bit write at a register's offset writes that register (R39, R47). -/
theorem step_write {s : State} {offset : Nat} {v : Word} {rest : List Input} {r : Option HostReg} (hr : s.rstN = true)
    (hi : s.inputs = .write 32 offset v :: rest) (h4 : offset % 4 = 0) (ho : HostReg.ofOffset offset = r) :
    step s = writeReg r v { s with inputs := rest } := by
  simp [step_input hr hi, handleInput, hostWrite, goodAccess, h4, ho]

/-- Between `PINS` and `WORDS`, and past `WORDS`, no register is named (R39, R46). -/
theorem ofOffset_unnamed {offset : Nat} (h : (0x010 < offset ∧ offset < 0x400) ∨ 0x800 ≤ offset) :
    HostReg.ofOffset offset = none := by
  have hd : wordsDepth = 256 := rfl
  unfold HostReg.ofOffset
  rw [if_neg (by omega), if_neg (by omega), if_neg (by omega), if_neg (by omega), if_neg (by omega),
    if_neg (by omega)]

theorem step_readWords {s : State} {i : Nat} {rest : List Input} (hr : s.rstN = true) (hlt : i < 256)
    (hi : s.inputs = .read 32 (0x400 + 4 * i) :: rest) : step s = readReg (some (.words i)) { s with inputs := rest } :=
  step_read hr hi (by omega) (ofOffset_offset_words i hlt)

theorem step_writeWords {s : State} {i : Nat} {v : Word} {rest : List Input} (hr : s.rstN = true) (hlt : i < 256)
    (hi : s.inputs = .write 32 (0x400 + 4 * i) v :: rest) :
    step s = writeReg (some (.words i)) v { s with inputs := rest } :=
  step_write hr hi (by omega) (ofOffset_offset_words i hlt)

/-! ### Reads -/

/-- Settles O53: a read that is answered is one of a register, and touches the replies and their counter alone. -/
theorem hostReadChangesNothing : Obligations.HostReadChangesNothing := by
  intro s t width offset rest hr hi h
  rw [step_input hr hi] at h
  simp only [handleInput] at h
  cases hg : goodAccess width offset with
  | false => rw [hostRead_bad _ hg] at h; cases h
  | true =>
    rw [hostRead_good _ hg] at h
    obtain ⟨v, n, rfl⟩ := readReg_same _ _ t h
    exact ⟨⟨rfl, rfl, rfl, rfl, rfl, rfl, rfl, rfl, rfl, rfl⟩, rfl, rfl, rfl, v, rfl⟩

/-- Settles O54, register by register. -/
theorem idleReadValues : Obligations.IdleReadValues := by
  intro s rest hr
  refine ⟨fun off ho hi => ?_, fun hi => ?_, fun hi => ?_, fun hb hi => ?_, fun hb hi => ?_,
    fun i hb hlt hi => ⟨fun w hw => ?_, fun hw => ?_⟩⟩
  · obtain rfl | ⟨h4, hu⟩ := ho
    · exact step_read (r := some .cmd) hr hi rfl rfl
    · exact step_read hr hi h4 (ofOffset_unnamed hu)
  · exact step_read (r := some .csr) hr hi rfl rfl
  · exact step_read (r := some .pins) hr hi rfl rfl
  · rw [step_read (r := some .data) hr hi rfl rfl]; simp [readReg, hb, State.answer]
  · rw [step_read (r := some .result) hr hi rfl rfl]; simp [readReg, hb, State.answer]
  · rw [step_readWords hr hlt hi]; simp [readReg, hb, hw, State.answer]
  · rw [step_readWords hr hlt hi]; simp [readReg, hb, hw]

/-! ### Writes -/

/-- Settles O58, register by register. -/
theorem idleHostWrites : Obligations.IdleHostWrites := by
  intro s w rest hr
  refine ⟨fun hb hi => ?_, fun i hb hlt hi => ?_, fun off h4 ho hi => ?_⟩
  · rw [step_write (r := some .data) hr hi rfl rfl]; simp [writeReg, hb]
  · refine ⟨State.writeWord i w { s with inputs := rest }, ?_, rfl, ?_, fun j hj => ?_⟩
    · rw [step_writeWords hr hlt hi]; simp [writeReg, hb]
    · exact Memory.read_write_same s.words i w
    · exact Memory.read_write_other _ w hj
  · have hcases : off = 0x004 ∨ off = 0x00C ∨ off = 0x010 ∨ (0x010 < off ∧ off < 0x400) ∨ 0x800 ≤ off := by omega
    obtain rfl | rfl | rfl | hu := hcases
    · exact step_write (r := some .csr) hr hi rfl rfl
    · exact step_write (r := some .result) hr hi rfl rfl
    · exact step_write (r := some .pins) hr hi rfl rfl
    · exact step_write hr hi h4 (ofOffset_unnamed hu)

/-! ### While `BUSY = 1` -/

/-- While busy, a write of any register is ignored (R41, R43, R44, R48). -/
theorem writeReg_busy {s : State} (r : HostReg) (w : Word) (hb : s.busy = true) : writeReg (some r) w s = .next s := by
  cases r <;> simp [writeReg, issueWord, hb]

/-- While busy, `DATA`, `RESULT` and `WORDS` give a free value (R48, log entry 6). -/
theorem readReg_busy {s : State} (r : HostReg) (hb : s.busy = true)
    (h : r = .data ∨ r = .result ∨ ∃ i, r = .words i) : readReg (some r) s = .next s.answerLoose := by
  obtain rfl | rfl | ⟨i, rfl⟩ := h <;> simp [readReg, hb]

/-- Settles O56, register by register. -/
theorem busyBlockAndTheHost : Obligations.BusyBlockAndTheHost := by
  intro s rest hr hb
  refine ⟨fun off w ho hi => ?_, fun hi => ?_, fun hi => ?_, fun off ho hi => ?_⟩
  · obtain rfl | rfl | ⟨i, hlt, rfl⟩ := ho
    · rw [step_write (r := some .cmd) hr hi rfl rfl]; exact writeReg_busy .cmd w hb
    · rw [step_write (r := some .data) hr hi rfl rfl]; exact writeReg_busy .data w hb
    · rw [step_writeWords hr hlt hi]; exact writeReg_busy (.words i) w hb
  · exact step_read (r := some .csr) hr hi rfl rfl
  · exact step_read (r := some .pins) hr hi rfl rfl
  · have hstep : step s = .next (State.answerLoose { s with inputs := rest }) := by
      obtain rfl | rfl | ⟨i, hlt, rfl⟩ := ho
      · rw [step_read (r := some .data) hr hi rfl rfl]; exact readReg_busy .data hb (by simp)
      · rw [step_read (r := some .result) hr hi rfl rfl]; exact readReg_busy .result hb (by simp)
      · rw [step_readWords hr hlt hi]; exact readReg_busy (.words i) hb (by simp)
    exact ⟨_, _, hstep, ⟨rfl, rfl, rfl, rfl, rfl, rfl, rfl, rfl, rfl, rfl⟩, rfl⟩

/-! ### Refused accesses -/

/-- Settles O57: at either level of `RST_N` the access is tested first. -/
theorem badHostAccessIsRefused : Obligations.BadHostAccessIsRefused := by
  intro s width offset w rest hbad hi
  have hg : goodAccess width offset = false := by
    obtain h | h := hbad <;> simp [goodAccess, h]
  cases hr : s.rstN with
  | true =>
    obtain hi | hi := hi
    · rw [step_input hr hi]; exact hostRead_bad _ hg
    · rw [step_input hr hi]; exact hostWrite_bad w _ hg
  | false =>
    obtain hi | hi := hi
    · rw [step_input_low hr hi]; exact hostRead_bad _ hg
    · rw [step_input_low hr hi]; simp [handleInReset, hg]

/-! ### The fields of `CSR` and `PINS` -/

/-- Settles O55: a field is what is left of the value once the fields below it are taken off (R41, R44). -/
theorem csrAndPinsFields : Obligations.CsrAndPinsFields := by
  refine ⟨fun s => ?_, fun q => ?_⟩
  · simp (disch := omega) only [csrValue, BitVec.extractLsb'_append_eq_of_le, BitVec.getLsbD_append]
    exact ⟨by simp, BitVec.extractLsb'_append_eq_right, BitVec.extractLsb'_append_eq_right,
      BitVec.extractLsb'_append_eq_right, by simp, BitVec.extractLsb'_append_eq_right,
      BitVec.extractLsb'_append_eq_right, BitVec.extractLsb'_append_eq_right, BitVec.extractLsb'_eq_self⟩
  · simp (disch := omega) only [pinsValue, BitVec.extractLsb'_append_eq_of_le, BitVec.getLsbD_append]
    exact ⟨by simp, by simp, by simp, by simp, BitVec.extractLsb'_eq_self⟩

end Sys2Proof.Machine
end

section
/-! PROOFS. Encoding (R80 to R90): a command word is what its row fixes and its operands elsewhere, so encoder and decoder undo each other on every row. -/

namespace Sys2Proof

/-! ### The fields of a command word (R80, R81) -/

@[simp] theorem fieldA_cmdWord (op : BitVec 4) (a : DapAddr) (arg8 retry : Byte) (f : Bool) :
    Word.fieldA (cmdWord op a arg8 retry f) = a := by
  simp (disch := omega) only [Word.fieldA, cmdWord, BitVec.extractLsb'_append_eq_of_le]
  exact BitVec.extractLsb'_append_eq_right

@[simp] theorem arg8_cmdWord (op : BitVec 4) (a : DapAddr) (arg8 retry : Byte) (f : Bool) :
    Word.arg8 (cmdWord op a arg8 retry f) = arg8 := by
  simp (disch := omega) only [Word.arg8, cmdWord, BitVec.extractLsb'_append_eq_of_le]
  exact BitVec.extractLsb'_append_eq_right

@[simp] theorem retry_cmdWord (op : BitVec 4) (a : DapAddr) (arg8 retry : Byte) (f : Bool) :
    Word.retry (cmdWord op a arg8 retry f) = retry := by
  simp (disch := omega) only [Word.retry, cmdWord, BitVec.extractLsb'_append_eq_of_le]
  exact BitVec.extractLsb'_append_eq_right

@[simp] theorem flagF_cmdWord (op : BitVec 4) (a : DapAddr) (arg8 retry : Byte) (f : Bool) :
    Word.flagF (cmdWord op a arg8 retry f) = f := by
  simp [Word.flagF, getLsbD_cmdWord, -BitVec.getLsbD_eq_getElem]

/-! ### Rows of command words (R82, R83) -/

/-- No two rows share a word (R83). -/
theorem row_unique {w : Word} {r q : CmdRow} (hr : r ∈ cmdRows) (hq : q ∈ cmdRows)
    (hwr : w &&& r.mask = r.pattern) (hwq : w &&& q.mask = q.pattern) : r = q := by
  have apart : cmdRows.Pairwise (fun r q => r.pattern &&& q.mask ≠ q.pattern &&& r.mask) := by decide
  have meet : r.pattern &&& q.mask = q.pattern &&& r.mask := by
    rw [← hwr, ← hwq, BitVec.and_assoc, BitVec.and_assoc, BitVec.and_comm r.mask]
  have symm : Std.Symm (fun r q : CmdRow => r.pattern &&& q.mask ≠ q.pattern &&& r.mask) := ⟨fun _ _ h => h.symm⟩
  by_contra hne
  exact apart.forall hr hq hne meet

/-- A word under no row does not decode (R83). -/
theorem decodeCmd_of_no_row {w : Word} (h : ∀ r ∈ cmdRows, w &&& r.mask ≠ r.pattern) :
    ∃ e, decodeCmd w = .error e := by
  cases hd : decodeCmd w with
  | error e => exact ⟨e, rfl⟩
  | ok i =>
    obtain ⟨r, hr, hw, _⟩ := row_of_decodeCmd w i hd
    exact absurd hw (h r hr)

/-- A command word whose operands are parts of those of `w` is its opcode and those bits of `w`. -/
theorem cmdWord_masked (w : Word) (op : BitVec 4) (a : DapAddr) (arg8 retry : Byte) (f : Bool) :
    cmdWord op (Word.fieldA w &&& a) (Word.arg8 w &&& arg8) (Word.retry w &&& retry) (Word.flagF w && f) =
      op.setWidth 32 ||| (w &&& cmdWord 0#4 a arg8 retry f) := by
  apply BitVec.eq_of_getLsbD_eq
  intro j hj
  rw [BitVec.getLsbD_or, BitVec.getLsbD_and, getLsbD_cmdWord, getLsbD_cmdWord]
  interval_cases j <;> simp [Word.fieldA, Word.arg8, Word.retry, Word.flagF]

/-- The part of `ARG8` that is an operand of one bit (R81). -/
theorem arg8_and_one (w : Word) : Word.arg8 w &&& 1#8 = arg8OfBit (Word.arg0 w) := by
  apply BitVec.eq_of_getLsbD_eq
  intro j hj
  rw [getLsbD_arg8OfBit]
  interval_cases j <;> simp [Word.arg8, Word.arg0]

/-- What a row builds is encoded as the row's match, with the word's own bits where the mask leaves them free (R81, R82). -/
theorem encode_build : ∀ r ∈ cmdRows, ∀ w : Word, encode (r.build w) = .cmd32 (r.pattern ||| (w &&& ~~~r.mask)) := by
  have bit (op : BitVec 4) (w : Word) := cmdWord_masked w op 0#4 1#8 0#8 false
  have plain (op : BitVec 4) (w : Word) := cmdWord_masked w op 0#4 0#8 0#8 false
  have byte (w : Word) := cmdWord_masked w 0x5#4 0#4 (BitVec.allOnes 8) 0#8 false
  have packet (w : Word) := cmdWord_masked w 0x8#4 0#4 (BitVec.allOnes 8) (BitVec.allOnes 8) false
  have move (w : Word) := cmdWord_masked w 0x9#4 (BitVec.allOnes 4) (BitVec.allOnes 8) 0#8 true
  simp only [arg8_and_one, BitVec.and_zero, BitVec.and_allOnes, Bool.and_false, Bool.and_true]
    at bit plain byte packet move
  simp only [cmdRows, List.cons_append, List.nil_append, List.forall_mem_cons]
  exact ⟨fun w => congrArg _ (bit _ w), fun w => congrArg _ (bit _ w), fun w => congrArg _ (plain _ w),
    fun w => congrArg _ (bit _ w), fun w => congrArg _ (byte w), fun w => congrArg _ (plain _ w),
    fun w => congrArg _ (plain _ w), fun w => congrArg _ (packet w), fun w => congrArg _ (move w),
    fun w => congrArg _ (plain _ w), fun w => congrArg _ (plain _ w), fun w => congrArg _ (plain _ w),
    fun w => congrArg _ (plain _ w), fun _ h => nomatch h⟩

/-- A word under a row is the row's match and the bits the mask leaves free (R83). -/
theorem word_of_row {w : Word} {r : CmdRow} (h : w &&& r.mask = r.pattern) : r.pattern ||| (w &&& ~~~r.mask) = w := by
  rw [← h]
  ext j hj
  simp [← Bool.and_or_distrib_left]

/-! ### Rows of request headers (R87, R90) -/

/-- No two rows share a header, so each decodes to its own instruction. -/
theorem decodeRequest_of_row : ∀ r ∈ requestRows, decodeRequest r.1 = .ok r.2 := by decide

/-- A row's header is the one R87 lays out for its instruction. -/
theorem encode_of_requestRow : ∀ r ∈ requestRows, encode r.2 = .request8 r.1 := by decide

theorem row_of_decodeRequest {b : Byte} {i : Instr} (h : decodeRequest b = .ok i) : (b, i) ∈ requestRows := by
  unfold decodeRequest at h
  split at h
  next r hf =>
    cases h
    have hb : r.1 = b := by simpa using List.find?_some hf
    rw [← hb]
    exact List.mem_of_find?_eq_some hf
  next => cases h

/-- The row of a DAP address is the header of that address (R88, R90). -/
theorem requestRow_of_dap {i : Instr} {dap : DapAddr} (h : Machine.requestDap i = some dap) :
    (Machine.reqHeader dap, i) ∈ requestRows := by
  cases i <;> cases h <;> decide

/-! ### Decoder and encoder -/

/-- Settles O2: every instruction's encoding falls under its own row (`TableRow`), which reads the operands back. -/
theorem decodeOfEncode : Obligations.DecodeOfEncode := by
  have command {i : Instr} {w : Word} (k : Fin 13) (hw : w &&& cmdRows[k].mask = cmdRows[k].pattern)
      (hb : cmdRows[k].build w = i) : decode (.cmd32 w) = .ok i :=
    hb ▸ decodeCmd_of_row w cmdRows[k] (List.getElem_mem _) hw
  have request {i : Instr} {dap : DapAddr} (h : Machine.requestDap i = some dap) : decode (encode i) = .ok i := by
    have hr := requestRow_of_dap h
    rw [encode_of_requestRow _ hr]
    exact decodeRequest_of_row _ hr
  intro i
  cases i
  case setClock l | setData l | setDir l => cases l <;> rfl
  case shiftOut b => exact command 4 (Laws.TableRow.shiftOut b).2 (by simp [cmdRows])
  case shiftPacket q r => exact command 7 (Laws.TableRow.shiftPacket q r).2 (by simp [cmdRows])
  case dapMove c d f => exact command 8 (Laws.TableRow.dapMove c d f).2 (by simp [cmdRows])
  case readData | shiftIn | shiftReset | connect | lineReset | disconnect | clearErrors => rfl
  all_goals exact request rfl

/-- Settles O3: a word is its row's match and its own operand bits, and a header is its row's. -/
theorem encodeOfDecode : Obligations.EncodeOfDecode := by
  intro c i h
  cases c with
  | cmd32 w =>
    obtain ⟨r, hr, hw, rfl⟩ := row_of_decodeCmd w i h
    rw [encode_build r hr w, word_of_row hw]
  | request8 b => exact encode_of_requestRow _ (row_of_decodeRequest h)

/-- Settles O1: six fixed words, decoded. -/
theorem writtenOutWordsDecode : Obligations.WrittenOutWordsDecode := ⟨rfl, rfl, rfl, rfl, rfl, rfl⟩

end Sys2Proof
end

section
/-! PROOFS. Encoding, at the block (R83 to R101): what a step makes of a word or a header, the parity and the packet of a header, and what the assembler writes to `CMD`. -/

namespace Sys2Proof.Machine

/-! ### Words and headers given to an idle block (R83, R85) -/

/-- The input by which a code reaches the block: a write of `CMD`, or a header to the framer (R40; log entry 8). -/
def codeInput : Code → Input
  | .cmd32 w => .write 32 0x000 w
  | .request8 b => .request b

/-- The bits of an opcode-table row that decode are a code, and reach the block as that code does. -/
theorem code_of_decodeTableWord {nbits w : Nat} {i : Instr} (h : decodeTableWord nbits w = some i) :
    ∃ c, decode c = .ok i ∧ inputOfTable nbits w = codeInput c := by
  have decoded {c : Code} (hc : decode? c = some i) : decode c = .ok i := by
    unfold decode? at hc
    split at hc
    next hd => cases hc; exact hd
    next => cases hc
  by_cases h8 : nbits = 8
  · subst h8
    exact ⟨.request8 (BitVec.ofNat 8 w), decoded h, rfl⟩
  · by_cases h32 : nbits = 32
    · subst h32
      exact ⟨.cmd32 (BitVec.ofNat 32 w), decoded h, rfl⟩
    · simp [decodeTableWord, codeOfTable, h8, h32] at h

theorem issue_eq (i : Instr) (s : State) :
    issue i s = if s.level = .command then exec i s else .next (s.startSlots (program i)) := by
  unfold issue
  cases s.level <;> rfl

/-- Out of reset and idle, a code that decodes issues its instruction (R83, R85). -/
theorem step_issues {s : State} {c : Code} {i : Instr} {rest : List Input} (hr : s.rstN = true) (hb : s.busy = false)
    (hi : s.inputs = codeInput c :: rest) (hd : decode c = .ok i) : step s = issue i { s with inputs := rest } := by
  cases c with
  | cmd32 w => rw [step_write (r := some .cmd) hr hi rfl rfl]; simp [writeReg, issueWord, hb, hd]
  | request8 b => rw [step_input hr hi]; simp [handleInput, codeInput, issueRequest, hb, hd]

/-- Settles O4: the row that admits the word is the one that decodes it, and a word under no row does not decode. -/
theorem commandWordIssuesItsRowOrIsInvalid : Obligations.CommandWordIssuesItsRowOrIsInvalid := by
  intro s w rest hr hb hi
  refine ⟨fun r hmem hw => ?_, fun r hmem q hq hwr hwq => row_unique hmem hq hwr hwq, fun hnone => ?_⟩
  · rw [step_issues (c := .cmd32 w) hr hb hi (decodeCmd_of_row w r hmem hw), issue_eq]
  · obtain ⟨e, he⟩ := decodeCmd_of_no_row hnone
    rw [step_write (r := some .cmd) hr hi rfl rfl]
    simp [writeReg, issueWord, hb, decode, he, State.reportInvalid, statusInvalidCommand]

/-- Settles O5: each way a code reaches an idle block is an issue of its instruction. -/
theorem stepRunsDecodedInstruction : Obligations.StepRunsDecodedInstruction := by
  intro s i
  refine ⟨fun w rest hr hb hl hi hd => ?_, fun b rest hr hb hl hi hd => ?_, fun c rest hr hb hl hd hi => ?_,
    fun nbits w hd => ?_⟩
  · rw [step_issues (c := .cmd32 w) hr hb hi hd, issue_eq, if_pos hl]
  · rw [step_issues (c := .request8 b) hr hb hi hd, issue_eq, if_pos hl]
  · have hin : s.inputs = codeInput c :: rest := by cases c <;> exact hi
    rw [step_issues hr hb hin hd, issue_eq, if_neg (by simp [hl])]
  · obtain ⟨c, hc, hin⟩ := code_of_decodeTableWord hd
    have hfetch : (s.withFetchWord nbits w).inputs = codeInput c :: s.inputs := congrArg (· :: s.inputs) hin
    rw [step_issues (s := s.withFetchWord nbits w) rfl rfl hfetch hc, issue_eq]
    rfl

/-! ### Parity and the request header (R87, R89) -/

theorem parityTo_eq_count {n : Nat} (v : BitVec n) (k : Nat) :
    parityTo v k = decide (((List.range k).filter v.getLsbD).length % 2 = 1) := by
  induction k with
  | zero => rfl
  | succ k ih =>
    rw [parityTo, ih, List.range_succ, List.filter_append, List.length_append]
    cases hb : v.getLsbD k
    · simp [hb]
    · simp [hb, Nat.succ_mod_two_eq_one_iff, ← decide_not]

/-- Settles O7, bit by bit. -/
theorem parityCountsOnes : Obligations.ParityCountsOnes := fun n v => parityTo_eq_count v n

/-- Settles O6: the table of the 16 headers. -/
theorem requestHeaderLayout : Obligations.RequestHeaderLayout := by
  unfold Obligations.RequestHeaderLayout
  decide

/-! ### Request headers as packets (R90, R149, R150) -/

/-- What a packet writes and leaves, whatever its header and the target's answer. -/
theorem exec_shiftPacket_frame (s : State) (req retry : Byte) :
    ∃ t, exec (.shiftPacket req retry) s = .next t ∧ t.ack.toNat ≤ 8 ∧ t.accum = accumulate s.accum t.ack ∧
      (t.data = s.data ∨ headerIsRead req = true ∧ (t.ack = resultOk ∨ t.ack = resultParityError)) ∧
      SameBesidesPacket s t ∧ t.busy = false ∧ SameSurroundings s t ∧ WireGrows s t := by
  have hrun := shiftPacket_run (fun _ => False) req retry s
  exact ⟨_, exec_shiftPacket req retry s, shiftPacket_result_legal req retry s, shiftPacket_accum req retry s,
    shiftPacket_data req retry s, ⟨hrun.result, hrun.status, hrun.link, shiftPacket_words req retry s, hrun.pos⟩,
    rfl, hrun.surroundings, hrun.wire⟩

/-- Settles O34: the row's header is that of its DAP address, and the row is the packet that sends it. -/
theorem requestRowsSendTheirHeader : Obligations.RequestRowsSendTheirHeader := by
  intro i dap s h
  have hread : headerIsRead (reqHeader dap) = dap.getLsbD 1 := (requestHeaderLayout dap).2.2.1
  have hframe := exec_shiftPacket_frame s (reqHeader dap) 0x00#8
  rw [hread, ← exec_request i dap s h] at hframe
  exact ⟨encode_of_requestRow _ (requestRow_of_dap h), exec_request i dap s h, hframe⟩

/-! ### What the assembler writes to `CMD` (R100, R101) -/

theorem encode_of_mem_issueInputs {i : Instr} {w : Word} (h : .write 32 0x000 w ∈ issueInputs i) :
    encode i = .cmd32 w := by
  unfold issueInputs at h
  split at h
  next v he => simpa [wrInput, HostReg.offset, he, eq_comm] using h
  next => simp at h

/-- `WORDS[0]` is not `CMD` (R39). -/
theorem wrWord0_ne_cmd (v : Nat) (w : Word) : .write 32 0x000 w ≠ wrWord0 v := by
  simp [wrWord0, wrInput, HostReg.offset]

/-- No register of `WR` is `CMD` (R39, R100). -/
theorem wrInput_ne_cmd (g : AsmReg) (v w : Word) : .write 32 0x000 w ≠ wrInput (AsmReg.reg g) v := by
  have hoff : (AsmReg.reg g).offset ≠ 0x000 := by
    cases g with
    | data | csr | result | pins => simp [AsmReg.reg, HostReg.offset]
    | words i => simp only [AsmReg.reg, HostReg.offset]; omega
  simp [wrInput, hoff.symm]

/-- What a source line writes to `CMD` comes from a command the line issues. -/
theorem issued_of_mem_assembleLine {l : AsmLine} {w : Word} (h : .write 32 0x000 w ∈ assembleLine l) :
    ∃ i, .write 32 0x000 w ∈ issueInputs i := by
  have afterWord0 {v : Nat} {i : Instr} (h : .write 32 0x000 w ∈ wrWord0 v :: issueInputs i) :
      ∃ i, .write 32 0x000 w ∈ issueInputs i :=
    ⟨i, (List.mem_cons.mp h).resolve_left (wrWord0_ne_cmd v w)⟩
  cases l <;> simp only [assembleLine, moveInputs] at h
  case wr g v => exact absurd (List.mem_singleton.mp h) (wrInput_ne_cmd g _ w)
  case rd g => simp at h
  case waitIdle => simp at h
  case pulse => exact (List.mem_append.mp h).elim (fun h => ⟨_, h⟩) (fun h => ⟨_, h⟩)
  case dpWrite d v | apWrite d v f | select v => exact afterWord0 h
  all_goals exact ⟨_, h⟩

/-- Settles O8: such a word is an encoding, and decoding it gives its instruction back. -/
theorem assembledCommandsAreValid : Obligations.AssembledCommandsAreValid := by
  intro l w _ h
  obtain ⟨i, hi⟩ := issued_of_mem_assembleLine h
  exact ⟨i, encode_of_mem_issueInputs hi ▸ decodeOfEncode i⟩

end Sys2Proof.Machine
end

section
/-! PROOFS. The invariant (R31, R35, R93, R95, R99, U11): every part of a step keeps it, at either level and through reset. -/

namespace Sys2Proof.Machine

/-- Acceptance at the slot level: `BUSY` and the position change together (R31, R35). -/
theorem startSlots_inv (i : Instr) {s : State} (hI : s.Inv) : (s.startSlots (program i)).Inv := by
  obtain ⟨hcodes, hwords, _, _⟩ := hI
  exact ⟨hcodes, hwords, by simp [State.BusyIffRunning], by simp [Position.legal, program_legal]⟩

theorem issue_inv (i : Instr) {s t : State} (hI : s.Inv) (hb : s.busy = false) (h : issue i s = .next t) : t.Inv := by
  unfold issue at h
  split at h
  · exact exec_inv i s t hI hb h
  · cases h; exact startSlots_inv i hI

/-- `STATUS` 5 is a legal code (R95). -/
theorem reportInvalid_inv {s : State} (hI : s.Inv) : s.reportInvalid.Inv := by
  obtain ⟨⟨hack, haccum, _, hlink⟩, hrest⟩ := hI
  exact ⟨⟨hack, haccum, Or.inr rfl, hlink⟩, hrest⟩

theorem issueWord_inv (w : Word) {s t : State} (hI : s.Inv) (h : issueWord w s = .next t) : t.Inv := by
  unfold issueWord at h
  split at h
  next => cases h; exact hI
  next hb =>
    split at h
    · exact issue_inv _ hI (by simpa using hb) h
    · cases h; exact reportInvalid_inv hI

theorem issueRequest_inv (b : Byte) {s t : State} (hI : s.Inv) (h : issueRequest b s = .next t) : t.Inv := by
  unfold issueRequest at h
  split at h
  next => cases h; exact hI
  next hb => split at h <;> exact issue_inv _ hI (by simpa using hb) h

/-- A host write of an entry in the buffer keeps its canonical form (R36, R61). -/
theorem writeReg_inv (offset : Nat) (v : Word) {s t : State} (hI : s.Inv)
    (h : writeReg (HostReg.ofOffset offset) v s = .next t) : t.Inv := by
  unfold writeReg at h
  split at h
  case h_2 => exact issueWord_inv v hI h
  case h_4 => split at h <;> (cases h; exact hI)
  case h_7 i ho =>
    split at h
    · cases h; exact hI
    · cases h
      obtain ⟨hcodes, hwords, hrest⟩ := hI
      exact ⟨hcodes, State.writeWord_wf s i v (ofOffset_words offset i ho).1 hwords, hrest⟩
  all_goals cases h; exact hI

theorem hostWrite_inv (width offset : Nat) (v : Word) {s t : State} (hI : s.Inv)
    (h : hostWrite width offset v s = .next t) : t.Inv := by
  unfold hostWrite at h
  split at h
  · exact writeReg_inv offset v hI h
  · cases h

/-- A host read leaves the block as it is (R49). -/
theorem hostRead_inv (width offset : Nat) {s t : State} (hI : s.Inv) (h : hostRead width offset s = .next t) :
    t.Inv := by
  unfold hostRead at h
  split at h
  · obtain ⟨v, n, rfl⟩ := readReg_same _ s t h
    exact hI
  · cases h

theorem handleInput_inv (a : Input) {s t : State} (hI : s.Inv) (h : handleInput a s = .next t) : t.Inv := by
  cases a with
  | write width offset v => exact hostWrite_inv width offset v hI h
  | read width offset => exact hostRead_inv width offset hI h
  | waitIdle =>
    simp only [handleInput] at h
    split at h
    · exact microStep_inv { s with inputs := .waitIdle :: s.inputs } t hI h
    · cases h; exact hI
  | tick => exact microStep_inv s t hI h
  | rstN level =>
    cases level with
    | true => cases h; exact hI
    | false => cases h; exact blockReset_inv s
  | request b => exact issueRequest_inv b hI h

/-- While `RST_N` is low an input reaches the surroundings alone (R260; log entry 10). -/
theorem handleInReset_inv (a : Input) {s t : State} (hI : s.Inv) (h : handleInReset a s = .next t) : t.Inv := by
  cases a with
  | write width offset v =>
    simp only [handleInReset] at h
    split at h
    · cases h; exact hI
    · cases h
  | read width offset => exact hostRead_inv width offset hI h
  | waitIdle | tick | rstN _ | request _ => cases h; exact hI

/-- Settles O12: `RST_N` low gives the reset values, which meet the invariant, and high lets one input or one statement act. -/
theorem stepKeepsInvariant : Obligations.StepKeepsInvariant := by
  intro s t hI h
  unfold step stepAgents at h
  split at h
  · split at h
    next => exact microStep_inv s t hI h
    next a rest _ => exact handleInput_inv a (s := { s with inputs := rest }) hI h
  · split at h
    next => cases h; exact blockReset_inv s
    next a rest _ => exact handleInReset_inv a (s := { s.blockReset with inputs := rest }) (blockReset_inv s) h

end Sys2Proof.Machine
end

section
/-! PROOFS. The transceiver (R110 to R124): what each bit and byte command answers, that none can fail, and that a byte or a word looped back is the one sent. -/

namespace Sys2Proof.Machine

/-! ### Bit commands (R111 to R114) -/

/-- A latch write in one equation: `c` says when the tuple is already `q`, and only then there is no event (R11). -/
theorem Port.setPins_eq {q : Pins} {p : Port} {c : Prop} [Decidable c] (h : q = p.pins ↔ c) :
    p.setPins q = { p with pins := q, trace := (if c then [] else [.pins q]) ++ p.trace } := by
  unfold Port.setPins
  by_cases hc : c
  · obtain rfl := h.mpr hc
    simp [hc]
  · rw [if_neg (mt h.mp hc), if_neg hc]
    rfl

theorem Port.setClkOe_true_eq (p : Port) :
    p.setClkOe true = { p with
      pins := { p.pins with clkOe := true }
      trace := (if p.pins.clkOe then [] else [.pins { p.pins with clkOe := true }]) ++ p.trace } :=
  Port.setPins_eq ⟨fun h => (congrArg Pins.clkOe h).symm, fun h => by rw [← h]⟩

theorem Port.setClk_eq (b : Bool) (p : Port) :
    p.setClk b = { p with
      pins := { p.pins with clk := b }
      trace := (if b = p.pins.clk then [] else [.pins { p.pins with clk := b }]) ++ p.trace } :=
  Port.setPins_eq ⟨congrArg Pins.clk, fun h => by rw [h]⟩

theorem Port.setDioOut_eq (b : Bool) (p : Port) :
    p.setDioOut b = { p with
      pins := { p.pins with dioOut := b }
      trace := (if b = p.pins.dioOut then [] else [.pins { p.pins with dioOut := b }]) ++ p.trace } :=
  Port.setPins_eq ⟨congrArg Pins.dioOut, fun h => by rw [h]⟩

theorem Port.setDioOe_eq (b : Bool) (p : Port) :
    p.setDioOe b = { p with
      pins := { p.pins with dioOe := b }
      trace := (if b = p.pins.dioOe then [] else [.pins { p.pins with dioOe := b }]) ++ p.trace } :=
  Port.setPins_eq ⟨congrArg Pins.dioOe, fun h => by rw [h]⟩

/-- `Sample()` in one equation: one draw, one event, no slot (R10, R11). -/
theorem Port.sample_eq (p : Port) :
    p.sample = (p.drawAt 0, { p with
      draws := p.draws.tail
      drawn := p.drawn + 1
      trace := .sample (p.drawAt 0) :: p.trace }) := by
  rw [← Port.sample_fst]
  rfl

/-- Settles O23: the two latch writes, `CLK_OE` first. -/
theorem setClockResult : Obligations.SetClockResult := by
  intro s l
  rw [exec_setClock, Port.setClk_eq, Port.setClkOe_true_eq, List.append_assoc]

/-- Settles O24: one latch write each. -/
theorem setDataAndSetDirResult : Obligations.SetDataAndSetDirResult := by
  intro s b
  rw [exec_setData, Port.setDioOut_eq, exec_setDir, Port.setDioOe_eq]
  exact ⟨rfl, rfl⟩

/-- Settles O25: one sample. -/
theorem readDataResult : Obligations.ReadDataResult := by
  intro s
  rw [exec_readData, Port.sample_eq]

/-! ### Byte commands (R119 to R121) -/

/-- What a command that only drives the lines leaves in its port `p`, said of its next state (R115, R121). -/
theorem exec_driving_result {i : Instr} {s : State} {p : Port} {l : List Slot} {q : Pins}
    (he : exec i s = .next { s with port := p, busy := false }) (hslots : p.slots = l.reverse ++ s.port.slots)
    (hpins : p.pins = q) (hdraws : p.draws = s.port.draws) :
    ∃ t, exec i s = .next t ∧ AddsSlots l s t ∧ t.port.pins = q ∧ t.port.draws = s.port.draws ∧
      t = { s with port := t.port, busy := false } :=
  ⟨_, he, hslots, hpins, hdraws, rfl⟩

/-- Settles O26, from the laws of `ShiftOutByte`. -/
theorem shiftOutResult : Obligations.ShiftOutResult := fun s b =>
  exec_driving_result (exec_shiftOut b s) (Port.shiftOutByte_slots b s.port) (Port.shiftOutByte_pins b s.port)
    (Port.shiftOutByte_draws b s.port)

/-- Settles O27, from the laws of `ShiftInByte`. -/
theorem shiftInResult : Obligations.ShiftInResult := by
  intro s
  have he := exec_shiftIn s
  have hbits := Port.shiftInByte_getLsbD s.port
  have hslots := Port.shiftInByte_slots s.port
  have hpins := Port.shiftInByte_pins s.port
  have hdraws := Port.shiftInByte_draws s.port
  generalize s.port.shiftInByte = r at he hbits hslots hpins hdraws
  exact ⟨_, he, hbits, hslots, hpins, hdraws, rfl⟩

/-- Settles O28, from the laws of `ShiftResetSeq`: 64 equal slots read the same in either order. -/
theorem shiftResetResult : Obligations.ShiftResetResult := by
  intro s
  refine exec_driving_result (exec_shiftReset s) ?_ (Port.shiftResetSeq_pins s.port)
    (Port.shiftResetSeq_draws s.port)
  rw [List.reverse_replicate, Port.shiftResetSeq_slots]

/-! ### No transceiver command can fail (R110) -/

/-- A transceiver command completes, and what it does is port activity and, where it writes `RESULT`, that write. -/
theorem exec_transceiver (i : Instr) (s : State) (hi : isTransceiver i = true) :
    ∃ p r, exec i s = .next { s with port := p, result := r, busy := false } ∧ s.port.Extends p ∧
      (writesResult i = false → r = s.result) := by
  cases i with
  | setClock l =>
    exact ⟨_, _, exec_setClock l s, (Port.setPins_extends _ _).trans (Port.setPins_extends _ _), fun _ => rfl⟩
  | setData l => exact ⟨_, _, exec_setData l s, Port.setPins_extends _ _, fun _ => rfl⟩
  | readData => exact ⟨_, _, exec_readData s, Port.sample_extends _, nofun⟩
  | setDir d => exact ⟨_, _, exec_setDir d s, Port.setPins_extends _ _, fun _ => rfl⟩
  | shiftOut b => exact ⟨_, _, exec_shiftOut b s, Port.shiftOutByte_extends b _, fun _ => rfl⟩
  | shiftIn => exact ⟨_, _, exec_shiftIn s, Port.shiftInByte_extends _, nofun⟩
  | shiftReset => exact ⟨_, _, exec_shiftReset s, Port.shiftResetSeq_extends _, fun _ => rfl⟩
  | _ => cases hi

/-- Settles O22: every field but the port, `RESULT` and `BUSY` is that of `s`. -/
theorem transceiverCommandsCannotFail : Obligations.TransceiverCommandsCannotFail := by
  intro i s hi
  obtain ⟨p, r, he, hp, hr⟩ := exec_transceiver i s hi
  exact ⟨_, he, rfl, rfl, rfl, rfl, hr, rfl, rfl, rfl, rfl, ⟨rfl, rfl, rfl, rfl, rfl⟩, hp.trace, hp.slots⟩

/-! ### Loopback (R124) -/

/-- Driven slots added to the same wire tell the bits that were driven. -/
theorem drivenSlots_added_inj {bs cs : List Bool} {wire : List Slot}
    (h : (drivenSlots bs).reverse ++ wire = (drivenSlots cs).reverse ++ wire) : bs = cs := by
  have hslots : drivenSlots bs = drivenSlots cs := List.reverse_injective (List.append_cancel_right h)
  exact List.map_injective_iff.mpr (fun _ _ => Slot.driven.inj) hslots

/-- Every slot of a write data phase is driven (R96, R147). -/
theorem writeSlots_eq_drivenSlots (turn : Bool) (w : Word) :
    writeSlots turn w = drivenSlots (turn :: (bitsLsb w ++ [parity w])) := by
  simp [writeSlots, drivenSlots]

/-- Settles O29: the slots determine the bits that were driven, and those bits, listed, are the value received. -/
theorem loopbackRoundTrip : Obligations.LoopbackRoundTrip := by
  refine ⟨fun s t u b bs rest hout hslots hin => ?_, fun p q w turn bs rest hslots hdraws => ?_⟩
  · obtain ⟨t', ht, hsent, -⟩ := shiftOutResult s b
    obtain rfl : t = t' := Host.Outcome.next.inj (hout.symm.trans ht)
    obtain rfl : bitsLsb b = bs := drivenSlots_added_inj (hsent.symm.trans hslots)
    obtain ⟨u', hu, hbits, -⟩ := shiftInResult { t with port := { t.port with draws := bitsLsb b ++ rest } }
    obtain rfl : u = u' := Host.Outcome.next.inj (hin.symm.trans hu)
    apply BitVec.eq_of_getLsbD_eq
    intro j hj
    rw [hbits j hj, Port.drawAt_of_append _ _ rest rfl j (by simpa using hj), getElem_bitsLsb]
  · rw [Port.writePhase_slots, writeSlots_eq_drivenSlots] at hslots
    obtain ⟨-, rfl⟩ := List.cons.inj (drivenSlots_added_inj hslots)
    obtain ⟨hword, hparity⟩ := Port.readPhase_listed q w (parity w) rest (by rw [hdraws]; simp)
    refine ⟨hword, hparity, ?_⟩
    rw [Port.readPhase_draws, hdraws]
    exact List.drop_left' (by simp)

end Sys2Proof.Machine
end

section
/-! PROOFS. The packet framer (R140 to R156): what a packet reports, stores and puts on the wire for each answer of the target, its retries, and how every packet begins and ends. -/

namespace Sys2Proof.Machine

/-! ### What every packet writes and leaves (R148 to R150) -/

/-- Settles O33: the frame of a packet. -/
theorem packetFrame : Obligations.PacketFrame := exec_shiftPacket_frame

/-- A packet's port: attempts, data phase, final idle pulse (R141). -/
theorem shiftPacket_port (req retry : Byte) (s : State) :
    (shiftPacket req retry s).2.port =
      (dataPhase req ((Port.attempts req (attemptLimit retry - 1) 1 s.port).1.setWidth 4)
        { s with port := (Port.attempts req (attemptLimit retry - 1) 1 s.port).2 }).2.port.idlePulse := rfl

/-- Settles O32: the last thing a packet does is one idle pulse. -/
theorem packetLeavesLinesIdle : Obligations.PacketLeavesLinesIdle := by
  intro s req retry
  refine ⟨_, exec_shiftPacket req retry s, shiftPacket_pins req retry s, ?_⟩
  rw [shiftPacket_port, Port.idlePulse_slots, List.head?_cons]

/-! ### The attempts on the wire (R144) -/

theorem Port.slots_suffix_attempt (req : Byte) (p : Port) : p.slots <:+ (p.attempt req).2.slots := by
  rw [Port.attempt_slots]
  exact List.suffix_append _ _

/-- A retry adds its slots to those of the first attempt. -/
theorem Port.attempt_slots_suffix_attempts (req : Byte) (more a : Nat) (p : Port) :
    (p.attempt req).2.slots <:+ (Port.attempts req more a p).2.slots := by
  induction more generalizing a p with
  | zero => exact List.suffix_refl _
  | succ more ih =>
    by_cases hwait : (p.attempt req).1 = ackWait
    · rw [Port.attempts_wait req more a p hwait]
      have hnext := Port.slots_suffix_attempt req ((p.attempt req).2.delay (Config.waitDelay a (more + 1)))
      rw [Port.delay_slots] at hnext
      exact hnext.trans (ih (a + 1) _)
    · rw [Port.attempts_last req _ a p hwait]

theorem dataPhase_slots_suffix (req : Byte) (c : PacketResult) (s : State) :
    s.port.slots <:+ (dataPhase req c s).2.port.slots := by
  unfold dataPhase
  split
  · split
    · simp only [Port.readPhase_slots]
      exact List.suffix_append _ _
    · simp only [Port.writePhase_slots]
      exact List.suffix_append _ _
  · exact List.suffix_refl _

/-- Every packet begins with an attempt (R143, R144). -/
theorem attempt_slots_suffix_shiftPacket (req retry : Byte) (s : State) :
    (s.port.attempt req).2.slots <:+ (shiftPacket req retry s).2.port.slots := by
  rw [shiftPacket_port, Port.idlePulse_slots]
  have hattempts := Port.attempt_slots_suffix_attempts req (attemptLimit retry - 1) 1 s.port
  have hphase := dataPhase_slots_suffix req ((Port.attempts req (attemptLimit retry - 1) 1 s.port).1.setWidth 4)
    { s with port := (Port.attempts req (attemptLimit retry - 1) 1 s.port).2 }
  exact (hattempts.trans hphase).trans (List.suffix_cons _ _)

/-- Settles O35: the slots of one attempt, which no later part of the packet changes. -/
theorem attemptIsThirteenSlots : Obligations.AttemptSlots := by
  refine ⟨fun req p => ⟨?_, Port.attempt_getLsbD req p, Port.attempt_draws req p⟩, fun s req retry => ?_⟩
  · rw [Port.attempt_slots, List.reverse_append, List.reverse_reverse]
    rfl
  · obtain ⟨later, hlater⟩ := attempt_slots_suffix_shiftPacket req retry s
    refine ⟨_, later.reverse, exec_shiftPacket req retry s, ?_⟩
    rw [← List.reverse_append, hlater]
    rfl

/-! ### A packet by its acknowledges (R145 to R147, R149) -/

/-- Settles O30, by the last acknowledge and the direction of the header. -/
theorem packetOutcome : Obligations.PacketOutcome := by
  intro s req retry k ack rest hk hend hdraws
  have haccum := shiftPacket_accum req retry s
  refine ⟨_, exec_shiftPacket req retry s, fun hack => ?_, fun hack hwrite => ?_, fun hack hread w p left hrest => ?_⟩
  · obtain ⟨hresult, hrest⟩ := shiftPacket_no_data req retry s k ack rest hk hend hack hdraws
    rw [hresult, accumulate, if_neg (ack_not_ok hack)] at haccum
    exact ⟨hresult, haccum, hrest⟩
  · subst hack
    obtain ⟨hresult, hrest⟩ := shiftPacket_write req retry s k rest hk hwrite hdraws
    rw [hresult] at haccum
    exact ⟨hresult, haccum, hrest⟩
  · subst hack hrest
    obtain ⟨hresult, hdata, hrest⟩ := shiftPacket_read req retry s k w p left hk hread hdraws
    refine ⟨hdata, fun hp => ?_, fun hp => ?_, hrest⟩
    · rw [readResult, if_pos hp] at hresult
      rw [hresult] at haccum
      exact ⟨hresult, haccum⟩
    · rw [readResult, if_neg hp] at hresult
      rw [hresult] at haccum
      exact ⟨hresult, haccum⟩

/-- Settles O36: the slots of a write packet answered OK after `k` times WAIT. -/
theorem writePacketWire : Obligations.WritePacketWire := by
  intro s req retry k rest hwrite hk hdraws
  have hends : Answer.Ends (attemptLimit retry) ⟨k, 0b001#3, 0, false⟩ :=
    ⟨hk, Or.inl (show (0b001#3 : AckBits) ≠ 0b010#3 by decide)⟩
  have hok : [true, false, false] = bitsLsb (0b001#3) := by decide
  rw [hok] at hdraws
  obtain ⟨-, hdata, hrest, hslots⟩ := shiftPacket_writeAnswer req retry s _ rest hwrite hends hdraws
  refine ⟨_, attemptsSlots req k (0b001#3), exec_shiftPacket req retry s, hdata, hrest, length_attemptsSlots _ _ _, ?_⟩
  simp [State.slotsInOrder, hslots, Answer.sentSlots, Answer.slots, writeSlots]

/-! ### Every acknowledge WAIT (R151, R152) -/

/-- A WAIT after `k` others makes `k + 1` of them. -/
theorem waitDraws_succ_last (k : Nat) : waitDraws (k + 1) = waitDraws k ++ bitsLsb ackWait := by
  simp [waitDraws, List.replicate_succ']

/-- Attempts `a` to `a + more`, all answered WAIT: a delay after each but the last (R143, R151). -/
theorem delaySum_attempts_allWait (req : Byte) (more a : Nat) (p : Port) (rest : List Bool)
    (h : p.draws = waitDraws (more + 1) ++ rest) :
    delaySum (Port.attempts req more a p).2.trace =
      delaySum p.trace + ((List.range more).map (fun j => Config.waitDelay (a + j) (more - j))).sum := by
  induction more generalizing a p with
  | zero => exact delaySum_attempt req p
  | succ more ih =>
    obtain ⟨hack, hdraws, -⟩ := Port.attempt_listed req p ackWait (waitDraws (more + 1) ++ rest)
      (by rw [h, waitDraws_succ, List.append_assoc])
    rw [Port.attempts_wait req more a p hack, ih (a + 1) _ (by rw [Port.delay_draws, hdraws]), delaySum_delay, delaySum_attempt,
      List.range_succ_eq_map]
    simp [Function.comp_def, Nat.add_assoc, Nat.add_comm 1]

/-- Settles O31: the last of the allowed attempts ends the packet, and the attempts hold all its delays. -/
theorem retryExhaustion : Obligations.RetryExhaustion := by
  intro s req retry rest hdraws
  obtain ⟨more, hmore⟩ : ∃ more, attemptLimit retry = more + 1 := Nat.exists_eq_add_of_le' (attemptLimit_pos retry)
  rw [hmore] at hdraws ⊢
  have hlast : s.port.draws = waitDraws more ++ bitsLsb ackWait ++ rest := by rw [hdraws, waitDraws_succ_last]
  obtain ⟨t, ht, hwait, -⟩ := packetOutcome s req retry more ackWait rest hmore.ge (Or.inr hmore.symm) hlast
  obtain ⟨hack, haccum, -, hrest, hslots⟩ := hwait (by decide)
  refine ⟨t, ht, hack, haccum, hrest, hslots, ?_⟩
  have hanswer := (Port.attempts_listed req more more 1 ackWait rest s.port le_rfl (Or.inr rfl) hlast).1
  have hport : t.port = (Port.attempts req more 1 s.port).2.idlePulse := by
    rw [exec_shiftPacket] at ht
    obtain rfl := Host.Outcome.next.inj ht
    show (shiftPacket req retry s).2.port = _
    rw [shiftPacket_port, hmore, Nat.add_sub_cancel, hanswer]
    rfl
  rw [hport, delaySum_idlePulse, delaySum_attempts_allWait req more 1 s.port rest hdraws]
  simp only [Nat.add_sub_cancel, Nat.add_sub_add_right, Nat.add_comm 1]

end Sys2Proof.Machine
end

section
/-! PROOFS. The DAP transaction sequencer (R170 to R186): where a move completes and where it faults, what it leaves alone and depends on, how it ends and how long it can be. -/

namespace Sys2Proof.Machine

/-! ### What a move that answers a next state did (R173, R174) -/

/-- A move answers a next state by the read path, or by the write path with all its entries written. -/
theorem exec_dapMove_cases {c : Byte} {d : DapAddr} {f : Bool} {s t : State} (h : exec (.dapMove c d f) s = .next t) :
    (isRead d = true ∧ t = (endMove (moveReadPath c d (startMove s.accept))).finish) ∨
      (isRead d = false ∧ ∃ ws, Memory.gather s.words (moveLength c) 0 = .ok ws ∧
        t = (endMove (moveWrite d f ws (startMove s.accept))).finish) := by
  cases hr : isRead d with
  | true =>
    rw [exec_dapMove_read c d f s hr] at h
    exact .inl ⟨rfl, (Host.Outcome.next.inj h).symm⟩
  | false =>
    cases hg : Memory.gather s.words (moveLength c) 0 with
    | ok ws =>
      rw [exec_dapMove_write c d f s ws hr hg] at h
      exact .inr ⟨rfl, ws, rfl, (Host.Outcome.next.inj h).symm⟩
    | error i => rw [exec_dapMove_fault c d f s i hr hg] at h; cases h

/-- Settles O37: the map is the table of R177, and the end of a move writes `STATUS` by it. -/
theorem moveMapsAccumToStatus : Obligations.MoveMapsAccumToStatus := by
  refine ⟨fun r => rfl, fun count dap final s t h => ?_⟩
  obtain ⟨u, -, rfl⟩ := exec_dapMove_next count dap final s t h
  rfl

/-! ### The entries of a write move (R174, U7) -/

/-- Entries that are all written are gathered. -/
theorem Memory.gather_of_written {m : Memory} {n : Nat} (h : ∀ i, i < n → (Memory.read m i).isSome = true) :
    ∃ ws, Memory.gather m n 0 = .ok ws := by
  cases hg : Memory.gather m n 0 with
  | ok ws => exact ⟨ws, rfl⟩
  | error j =>
    obtain ⟨-, hj, hnone, -⟩ := Memory.gather_error m n 0 j hg
    exact absurd (h j (by omega)) (by simp [hnone])

/-- The entries gathered, by index. -/
theorem Memory.read_of_gather {m : Memory} {n i : Nat} {ws : List Word} (h : Memory.gather m n 0 = .ok ws)
    (hi : i < n) : Memory.read m i = ws[i]? := by
  simpa using (Memory.gather_ok m n 0 ws h).2 i hi

/-- A list that tells the first `n` entries is what is gathered of them. -/
theorem Memory.gather_of_read {m : Memory} {n : Nat} {ws : List Word} (hl : ws.length = n)
    (h : ∀ i, i < n → Memory.read m i = ws[i]?) : Memory.gather m n 0 = .ok ws := by
  obtain ⟨vs, hg⟩ := Memory.gather_of_written (m := m) (n := n) (fun i hi => by simp [h i hi, hl, hi])
  have hvl := (Memory.gather_ok m n 0 vs hg).1
  obtain rfl : vs = ws := by
    apply List.ext_getElem?
    intro i
    by_cases hi : i < n
    · rw [← Memory.read_of_gather hg hi, h i hi]
    · rw [List.getElem?_eq_none (by omega), List.getElem?_eq_none (by omega)]
  exact hg

/-- The last entry gathered is the one of index `count`. -/
theorem Memory.getLast?_of_gather {m : Memory} {c : Byte} {ws : List Word}
    (h : Memory.gather m (moveLength c) 0 = .ok ws) : ws.getLast? = Memory.read m c.toNat := by
  have hl := (Memory.gather_ok m (moveLength c) 0 ws h).1
  rw [Memory.read_of_gather h (Nat.lt_succ_self _), List.getLast?_eq_getElem?, hl]
  rfl

theorem Memory.ne_nil_of_gather {m : Memory} {c : Byte} {ws : List Word}
    (h : Memory.gather m (moveLength c) 0 = .ok ws) : ws ≠ [] := by
  have hl := (Memory.gather_ok m (moveLength c) 0 ws h).1
  rintro rfl
  cases hl

/-- Every read move completes, and every write move whose entries are all written (R173, R174). -/
theorem exec_dapMove_completes {c : Byte} {d : DapAddr} (f : Bool) {s : State}
    (h : isRead d = true ∨ ∀ i, i ≤ c.toNat → (Memory.read s.words i).isSome = true) :
    ∃ t, exec (.dapMove c d f) s = .next t := by
  cases hr : isRead d with
  | true => exact ⟨_, exec_dapMove_read c d f s hr⟩
  | false =>
    obtain ⟨ws, hg⟩ := Memory.gather_of_written (m := s.words) (n := moveLength c)
      (fun i hi => h.resolve_left (by simp [hr]) i (Nat.le_of_lt_succ hi))
    exact ⟨_, exec_dapMove_write c d f s ws hr hg⟩

/-- What `gather` stops at is the first entry nothing has written. -/
theorem Memory.gather_error_iff {m : Memory} {n i : Nat} : Memory.gather m n 0 = .error i ↔
    i < n ∧ Memory.read m i = none ∧ ∀ j, j < i → (Memory.read m j).isSome = true := by
  have hfirst {j : Nat} (h : Memory.gather m n 0 = .error j) :
      j < n ∧ Memory.read m j = none ∧ ∀ k, k < j → (Memory.read m k).isSome = true := by
    obtain ⟨-, hlt, hnone, hbelow⟩ := Memory.gather_error m n 0 j h
    exact ⟨by omega, hnone, fun k => hbelow k (Nat.zero_le k)⟩
  refine ⟨hfirst, fun ⟨hi, hnone, hbelow⟩ => ?_⟩
  cases hg : Memory.gather m n 0 with
  | ok ws =>
    have hread := Memory.read_of_gather hg hi
    simp [hnone, (Memory.gather_ok m n 0 ws hg).1, hi] at hread
  | error j =>
    obtain ⟨-, hjnone, hjbelow⟩ := hfirst hg
    rcases Nat.lt_trichotomy i j with hij | rfl | hij
    · exact absurd (hjbelow i hij) (by simp [hnone])
    · rfl
    · exact absurd (hbelow j hij) (by simp [hjnone])

/-- A write move faults with what `gather` stops at (R174, U7). -/
theorem exec_dapMove_fault_iff {c : Byte} {d : DapAddr} (f : Bool) {s : State} {i : Nat} (hw : isRead d = false) :
    exec (.dapMove c d f) s = .fault (.unwrittenWord i) ↔ Memory.gather s.words (moveLength c) 0 = .error i := by
  cases hg : Memory.gather s.words (moveLength c) 0 with
  | ok ws => simp [exec_dapMove_write c d f s ws hw hg]
  | error j => simp [exec_dapMove_fault c d f s j hw hg]

/-- Settles O42: the entries of a write move are gathered first, and `gather` stops at the first unwritten one. -/
theorem writePathFaultsOnUnwrittenWord : Obligations.WritePathFaultsOnUnwrittenWord := by
  intro s count dap final hw
  refine ⟨fun i => ?_, fun h => exec_dapMove_completes final (.inr h)⟩
  rw [exec_dapMove_fault_iff final hw, Memory.gather_error_iff, moveLength, Nat.lt_succ_iff]

/-! ### What a move leaves alone (R175, R180) -/

/-- Settles O43: a move is a run of packets and stores between its start and its end. -/
theorem moveFrame : Obligations.MoveFrame := by
  intro s count dap final h
  obtain ⟨t, ht⟩ := exec_dapMove_completes final h
  obtain ⟨u, hrun, rfl⟩ := exec_dapMove_next count dap final s t ht
  have hport : s.port.Extends (endMove u).finish.port := hrun.port.trans (Port.idlePulse_extends u.port)
  exact ⟨_, ht, hrun.result, hrun.link, hrun.pos, rfl, hrun.surroundings, ⟨hport.trace, hport.slots⟩, hrun.words⟩

/-- A write path without the RDBUFF read is its write loop (R175). -/
theorem moveWrite_plain {dap : DapAddr} {final : Bool} (h : (isAp dap && final) = false) (ws : List Word) (s : State) :
    moveWrite dap final ws s = writeWords (reqHeader dap) ws s := if_neg (Bool.eq_false_iff.mp h)

/-- Settles O44: a read path has no `final`, and a DP write path is its write loop alone. -/
theorem finalConcernsApWritesOnly : Obligations.FinalConcernsApWritesOnly := by
  intro s count dap h
  cases hr : isRead dap with
  | true => rw [exec_dapMove_read count dap true s hr, exec_dapMove_read count dap false s hr]
  | false =>
    have hdp : isAp dap = false := h.resolve_left (Bool.eq_false_iff.mp hr)
    cases hg : Memory.gather s.words (moveLength count) 0 with
    | ok ws =>
      rw [exec_dapMove_write count dap true s ws hr hg, exec_dapMove_write count dap false s ws hr hg,
        moveWrite_plain (by simp [hdp]), moveWrite_plain (by simp [hdp])]
    | error i => rw [exec_dapMove_fault count dap true s i hr hg, exec_dapMove_fault count dap false s i hr hg]

/-! ### The last slots of a move (R178) -/

/-- The newest slot is a driven 0, as after every packet (R148). -/
def Port.IdleLast (p : Port) : Prop := p.slots.head? = some (.driven false)

theorem movePacket_idleLast (h : Byte) (s : State) : (movePacket h s).port.IdleLast := by
  unfold Port.IdleLast movePacket
  rw [shiftPacket_port, Port.idlePulse_slots, List.head?_cons]

theorem readWords_idleLast (h : Byte) (n i : Nat) (s : State) (hn : n ≠ 0 ∨ s.port.IdleLast) :
    (readWords h n i s).port.IdleLast := by
  induction n generalizing i s with
  | zero => exact hn.resolve_left (by simp)
  | succ n ih =>
    refine ih (i + 1) _ (.inr ?_)
    rw [State.writeWord_port]
    exact movePacket_idleLast h s

theorem writeWords_idleLast (h : Byte) (ws : List Word) (s : State) (hws : ws ≠ [] ∨ s.port.IdleLast) :
    (writeWords h ws s).port.IdleLast := by
  induction ws generalizing s with
  | nil => exact hws.resolve_left (by simp)
  | cons w ws ih => exact ih _ (.inr (movePacket_idleLast h _))

theorem moveReadPath_idleLast (c : Byte) (d : DapAddr) (s : State) : (moveReadPath c d s).port.IdleLast := by
  unfold moveReadPath
  split
  · rw [moveApRead, State.writeWord_port]
    exact movePacket_idleLast _ _
  · exact readWords_idleLast _ _ 0 s (.inl (Nat.succ_ne_zero _))

theorem moveWrite_idleLast (d : DapAddr) (f : Bool) (ws : List Word) (s : State) (hws : ws ≠ []) :
    (moveWrite d f ws s).port.IdleLast := by
  unfold moveWrite
  split
  · exact movePacket_idleLast _ _
  · exact writeWords_idleLast _ ws s (.inl hws)

/-- The idle pulse at a move's end makes two slots 0 of a packet's last one. -/
theorem endMove_two_idle_slots {u : State} (h : u.port.IdleLast) :
    (endMove u).finish.port.slots.take 2 = [.driven false, .driven false] ∧
      (endMove u).finish.port.pins = ⟨true, false, true, false⟩ := by
  refine ⟨?_, Port.idlePulse_pins u.port⟩
  obtain ⟨older, hold⟩ := List.head?_eq_some_iff.mp h
  simp [hold]

/-- Settles O45: every path of a move ends in a packet, and every packet in a slot 0. -/
theorem moveEndsWithTwoIdleSlots : Obligations.MoveEndsWithTwoIdleSlots := by
  intro s t count dap final h
  obtain ⟨-, rfl⟩ | ⟨-, ws, hg, rfl⟩ := exec_dapMove_cases h
  · exact endMove_two_idle_slots (moveReadPath_idleLast count dap _)
  · exact endMove_two_idle_slots (moveWrite_idleLast dap final ws _ (Memory.ne_nil_of_gather hg))

/-! ### How long a move can be (R186) -/

theorem moveReadPath_slot_bound (c : Byte) (d : DapAddr) (s : State) :
    (moveReadPath c d s).port.slots.length ≤ s.port.slots.length + 257 * (13 * 255 + 1 + 34) := by
  have hc := c.isLt
  unfold moveReadPath
  split
  · have hfirst := movePacket_slot_bound (reqHeader d) s
    have hloop := readWords_slot_bound (reqHeader d) (moveLength c - 1) 0 (movePacket (reqHeader d) s)
    have hlast := movePacket_slot_bound (reqHeader dpRdbuffRd)
      (readWords (reqHeader d) (moveLength c - 1) 0 (movePacket (reqHeader d) s))
    simp only [moveApRead, State.writeWord_port]
    simp only [moveLength] at *
    omega
  · have hloop := readWords_slot_bound (reqHeader d) (moveLength c) 0 s
    exact hloop.trans (Nat.add_le_add_left (Nat.mul_le_mul_right _ (by simp only [moveLength]; omega)) _)

theorem moveWrite_slot_bound (d : DapAddr) (f : Bool) (ws : List Word) (s : State) (hl : ws.length ≤ 256) :
    (moveWrite d f ws s).port.slots.length ≤ s.port.slots.length + 257 * (13 * 255 + 1 + 34) := by
  have hloop := writeWords_slot_bound (reqHeader d) ws s
  unfold moveWrite
  dsimp only
  split
  · have hlast := movePacket_slot_bound (reqHeader dpRdbuffRd) (writeWords (reqHeader d) ws s)
    omega
  · exact hloop.trans (Nat.add_le_add_left (Nat.mul_le_mul_right _ (by omega)) _)

theorem endMove_slot_count (u : State) : (endMove u).finish.port.slots.length = u.port.slots.length + 1 := by
  simp

/-- Settles O46: at most 257 packets, each within its bound, and the final idle pulse. -/
theorem moveIsBounded : Obligations.MoveIsBounded := by
  intro s t count dap final h
  obtain ⟨-, rfl⟩ | ⟨-, ws, hg, rfl⟩ := exec_dapMove_cases h
  · have hpath := moveReadPath_slot_bound count dap (startMove s.accept)
    rw [endMove_slot_count]
    simp only [startMove_port, State.accept_port] at *
    omega
  · have hl : ws.length ≤ 256 := (Memory.gather_ok _ _ _ ws hg).1 ▸ Nat.succ_le_of_lt count.isLt
    have hpath := moveWrite_slot_bound dap final ws (startMove s.accept) hl
    rw [endMove_slot_count]
    simp only [startMove_port, State.accept_port] at *
    omega

/-! ### What a move depends on (R185) -/

/-- Two starts of a move on the same port, `DATA` and `WORDS` differ in what a run of packets may write in `ACK` alone. -/
theorem startMove_eq_withRun {s u : State} (hp : u.port = s.port) (hd : u.data = s.data) (hw : u.words = s.words) :
    startMove u.accept = { u.accept.withRun (startMove s.accept) with ack := u.ack } := by
  simp [startMove, State.accept, State.withRun, hp, hd, hw]

theorem moveReadPath_startMove (c : Byte) (d : DapAddr) {s u : State} (hp : u.port = s.port) (hd : u.data = s.data)
    (hw : u.words = s.words) :
    moveReadPath c d (startMove u.accept) = u.accept.withRun (moveReadPath c d (startMove s.accept)) := by
  rw [startMove_eq_withRun hp hd hw, moveReadPath_anyAck, moveReadPath_withRun]

theorem moveWrite_startMove (d : DapAddr) (f : Bool) {ws : List Word} (hws : ws ≠ []) {s u : State}
    (hp : u.port = s.port) (hd : u.data = s.data) (hw : u.words = s.words) :
    moveWrite d f ws (startMove u.accept) = u.accept.withRun (moveWrite d f ws (startMove s.accept)) := by
  obtain ⟨w, ws, rfl⟩ := List.exists_cons_of_ne_nil hws
  rw [startMove_eq_withRun hp hd hw, moveWrite_anyAck, moveWrite_withRun]

theorem some_getLastD_of_ne_nil {α : Type} {l : List α} {d : α} (h : l ≠ []) : some (l.getLastD d) = l.getLast? := by
  rw [List.getLastD_eq_getLast?, List.getLast?_eq_getLast_of_ne_nil h]
  rfl

/-- A write packet leaves `DATA` (R147). -/
theorem movePacket_data_of_write {h : Byte} (hw : headerIsRead h = false) (s : State) :
    (movePacket h s).data = s.data :=
  (shiftPacket_data h 0x00#8 s).resolve_right (by simp [hw])

/-- The write loop leaves its last word in `DATA` (R174). -/
theorem writeWords_data {h : Byte} (hw : headerIsRead h = false) (ws : List Word) (s : State) :
    (writeWords h ws s).data = ws.getLastD s.data := by
  induction ws generalizing s with
  | nil => rfl
  | cons w ws ih => rw [writeWords, ih, movePacket_data_of_write hw]; cases ws <;> rfl

/-- Settles O38: path by path, a move carries what it does not depend on along; a write loop ends with its last word in `DATA`. -/
theorem moveForgetsEarlierResults : Obligations.MoveForgetsEarlierResults := by
  refine ⟨fun count dap final s u hp hd hw => ?_, fun count dap final s t hwr hnof h => ?_⟩
  · cases hr : isRead dap with
    | true =>
      rw [exec_dapMove_read count dap final u hr, exec_dapMove_read count dap final s hr,
        moveReadPath_startMove count dap hp hd hw]
      generalize moveReadPath count dap (startMove s.accept) = x
      rfl
    | false =>
      cases hg : Memory.gather s.words (moveLength count) 0 with
      | ok ws =>
        rw [exec_dapMove_write count dap final u ws hr (hw ▸ hg), exec_dapMove_write count dap final s ws hr hg,
          moveWrite_startMove dap final (Memory.ne_nil_of_gather hg) hp hd hw]
        generalize moveWrite dap final ws (startMove s.accept) = x
        rfl
      | error i =>
        rw [exec_dapMove_fault count dap final u i hr (hw ▸ hg), exec_dapMove_fault count dap final s i hr hg]
  · obtain ⟨hr, -⟩ | ⟨hr, ws, hg, rfl⟩ := exec_dapMove_cases h
    · exact absurd (hr.symm.trans hwr) nofun
    · rw [← Memory.getLast?_of_gather hg, moveWrite_plain hnof, State.finish_data, endMove_data,
        writeWords_data ((headerIsRead_reqHeader dap).trans hr), some_getLastD_of_ne_nil (Memory.ne_nil_of_gather hg)]

end Sys2Proof.Machine
end

section
/-! PROOFS. Moves and the answers of their packets (R173 to R176, R181 to R183): the words a read move stores and a write move sends, what it reports and its slots, for any answers of the target and for all OK. -/

namespace Sys2Proof.Machine

/-! ### Packets all OK (R92, R94) -/

/-- A move whose results are all OK reports OK (R177, R183). -/
theorem status_of_all_ok {rs : List PacketResult} {t : State} (h : MoveReports rs t) (hok : ∀ r ∈ rs, r = 0x1#4) :
    t.status = 0#3 := by
  obtain ⟨-, -, hstatus⟩ := h
  have hnone : rs.filter (fun r => r ≠ 0x1#4) = [] := List.filter_eq_nil_iff.mpr (fun r hr => by simp [hok r hr])
  rw [hstatus, lastNonOk, accumAfter, hnone]
  rfl

theorem okAnswer_readResult (w : Word) : (okAnswer w).readResult = 0x1#4 := by simp [okAnswer, Answer.readResult]

theorem okAnswer_writeResult (w : Word) : (okAnswer w).writeResult = 0x1#4 := rfl

theorem length_okAnswer_readSlots (req : Byte) (w : Word) : ((okAnswer w).readSlots req).length = 47 := by
  simp [Answer.readSlots, Answer.slots, okAnswer, sampledSlots]

theorem length_okAnswer_sentSlots (req : Byte) (v w : Word) : ((okAnswer w).sentSlots req v).length = 48 := by
  simp [Answer.sentSlots, Answer.slots, okAnswer]

theorem length_okAnswers_readSlots (req : Byte) (ws : List Word) :
    ((ws.map okAnswer).flatMap (Answer.readSlots req)).length = 47 * ws.length := by
  simp [List.length_flatMap, Function.comp_def, length_okAnswer_readSlots, Nat.mul_comm]

/-- Exact slots give their number. -/
theorem addsSlotCount_of_addsSlots {l : List Slot} {n : Nat} {s t : State} (h : AddsSlots l s t) (hl : l.length = n) :
    AddsSlotCount n s t := by
  simp [AddsSlotCount, h, hl, Nat.add_comm]

/-- The RDBUFF read's header (R98). -/
theorem reqHeader_dpRdbuffRd : reqHeader dpRdbuffRd = 0xBD#8 := by decide

theorem okAnswers_end {ws : List Word} : ∀ a ∈ ws.map okAnswer, a.Ends 255 := by
  intro a ha
  obtain ⟨w, -, rfl⟩ := List.mem_map.mp ha
  exact okAnswer_ends w

theorem okAnswers_ok {ws : List Word} : ∀ r ∈ (ws.map okAnswer).map Answer.readResult, r = 0x1#4 := by
  simp [okAnswer_readResult]

/-! ### DP reads (R173, R181) -/

/-- Settles O40: the read loop for any answers; the first clause is the second with every answer OK. -/
theorem dpReadStoresEachWord : Obligations.DpReadStoresEachWord := by
  unfold Obligations.DpReadStoresEachWord
  refine (and_iff_right_of_imp fun hany s count dap final xs rest hr hdp hl hd => ?_).mpr
    fun s count dap final as rest hr hdp hl he hd => ?_
  · obtain ⟨t, ht, hwords, hdata, hreports, hrest, hslots⟩ := hany s count dap final (xs.map okAnswer) rest hr hdp
      (by simpa using hl) okAnswers_end (by rw [hd, flatMap_okAnswer_readDraws])
    rw [dataAfterEach_okAnswer] at hwords hdata
    refine ⟨t, ht, hwords, hdata, status_of_all_ok hreports okAnswers_ok, hrest, addsSlotCount_of_addsSlots hslots ?_⟩
    rw [List.length_append, length_okAnswers_readSlots, hl]
    rfl
  · obtain ⟨hanswered, hdata, hwords⟩ := readWords_answers (reqHeader dap) ((headerIsRead_reqHeader dap).trans hr) as 0
      (startMove s.accept) rest he hd
    have hpath : moveReadPath count dap (startMove s.accept) =
        readWords (reqHeader dap) as.length 0 (startMove s.accept) := by
      rw [hl]
      exact if_neg (Bool.eq_false_iff.mp hdp)
    refine ⟨_, exec_dapMove_read count dap final s hr, ?_⟩
    rw [hpath]
    generalize readWords (reqHeader dap) as.length 0 (startMove s.accept) = u at *
    refine ⟨fun i hi => ?_, ?_, hanswered.endMove (by simp [← List.length_pos_iff, hl])⟩
    · simpa using hwords i (by omega)
    · exact (congrArg some hdata).trans (some_getLastD_of_ne_nil (by simp [← List.length_pos_iff, hl]))

/-! ### AP reads (R173, R182) -/

/-- `RDBUFF` alone gives the last entry; the loop has stored the others (R173). -/
theorem moveApRead_read (h : Byte) (n : Nat) (s : State) (i : Nat) :
    Memory.read (moveApRead h (n + 1) s).words i = if i = n then some (moveApRead h (n + 1) s).data
      else Memory.read (readWords h n 0 (movePacket h s)).words i := by
  simp only [moveApRead, Nat.add_sub_cancel, State.writeWord_words, State.writeWord_data, Memory.read_write]
  rw [movePacket, shiftPacket_words]

/-- The packets of an AP read move for any answers: `DATA` after each goes one entry behind (R173, R176, R182). -/
theorem moveApRead_answers (h : Byte) (hr : headerIsRead h = true) (n : Nat) (as : List Answer) (b : Answer)
    (s : State) (rest : List Bool) (hl : as.length = n + 1) (he : ∀ x ∈ as ++ [b], x.Ends 255)
    (hd : s.port.draws = (as ++ [b]).flatMap Answer.readDraws ++ rest) :
    Answered ((as ++ [b]).map Answer.readResult) (as.flatMap (Answer.readSlots h) ++ b.readSlots 0xBD#8) rest s
        (moveApRead h (n + 1) s) ∧
      some (moveApRead h (n + 1) s).data = (Answer.dataAfterEach s.data (as ++ [b])).getLast? ∧
      ∀ i, i ≤ n → Memory.read (moveApRead h (n + 1) s).words i =
        (Answer.dataAfterEach s.data (as ++ [b]))[i + 1]? := by
  obtain ⟨a, as, rfl⟩ := List.exists_cons_of_length_eq_add_one hl
  obtain rfl : n = as.length := by simpa using hl.symm
  have hread := moveApRead_read h as.length s
  obtain ⟨hfirst, hdata⟩ := movePacket_readAnswer h s a (as.flatMap Answer.readDraws ++ (b.readDraws ++ rest)) hr
    (he a (by simp)) (by simpa using hd)
  obtain ⟨hloop, hdataLoop, hwords⟩ := readWords_answers h hr as 0 (movePacket h s) (b.readDraws ++ rest)
    (fun x hx => he x (by simp [hx])) hfirst.draws
  obtain ⟨hlast, hdataLast⟩ := movePacket_readAnswer (reqHeader dpRdbuffRd) (readWords h as.length 0 (movePacket h s)) b
    rest (by decide) (he b (by simp)) hloop.draws
  have hafter : Answer.dataAfterEach s.data (a :: as ++ [b]) = a.dataAfter s.data ::
      (Answer.dataAfterEach (movePacket h s).data as ++ [(moveApRead h (as.length + 1) s).data]) := by
    rw [List.cons_append, Answer.dataAfterEach, dataAfterEach_append, ← hdata, ← hdataLoop]
    simp only [Answer.dataAfterEach, moveApRead, State.writeWord_data, hdataLast, Nat.add_sub_cancel]
  rw [hafter]
  refine ⟨?_, by rw [List.getLast?_cons, List.getLast?_concat]; rfl, fun i hi => ?_⟩
  · have hall := (hfirst.trans (hloop.trans hlast)).store as.length
      (movePacket (reqHeader dpRdbuffRd) (readWords h as.length 0 (movePacket h s))).data
    simpa [moveApRead, reqHeader_dpRdbuffRd] using hall
  · rw [hread, List.getElem?_cons_succ]
    by_cases hlt : i < as.length
    · rw [if_neg (by omega), List.getElem?_append_left (by simpa using hlt)]
      simpa using hwords i hlt
    · obtain rfl : i = as.length := by omega
      simp

/-- Settles O39: the AP read path for any answers; the first clause is the second with every answer OK. -/
theorem apReadIsOneTransferBehind : Obligations.ApReadIsOneTransferBehind := by
  unfold Obligations.ApReadIsOneTransferBehind
  refine (and_iff_right_of_imp fun hany s count dap final x0 xs rest hr hap hl hd => ?_).mpr
    fun s count dap final as b rest hr hap hl he hd => ?_
  · obtain ⟨ys, y, hys⟩ : ∃ ys y, x0 :: xs = ys ++ [y] := ⟨_, _, (List.dropLast_append_getLast (by simp)).symm⟩
    have hlen : ys.length = count.toNat + 1 := by simpa [hl] using (congrArg List.length hys).symm
    have hok : ys.map okAnswer ++ [okAnswer y] = (x0 :: xs).map okAnswer := by simp [hys]
    obtain ⟨t, ht, hwords, hdata, hreports, hrest, hslots⟩ := hany s count dap final (ys.map okAnswer) (okAnswer y) rest
      hr hap (by simpa using hlen) (hok ▸ okAnswers_end) (by rw [hd, hok, flatMap_okAnswer_readDraws])
    rw [hok] at hwords hdata hreports
    rw [dataAfterEach_okAnswer] at hwords hdata
    refine ⟨t, ht, hwords, ?_, status_of_all_ok hreports okAnswers_ok, hrest, addsSlotCount_of_addsSlots hslots ?_⟩
    · obtain ⟨x, xs, rfl⟩ := List.exists_cons_of_length_eq_add_one hl
      exact hdata
    · rw [List.length_append, List.length_append, length_okAnswers_readSlots, length_okAnswer_readSlots, hlen]
      rfl
  · obtain ⟨hanswered, hdata, hwords⟩ := moveApRead_answers (reqHeader dap) ((headerIsRead_reqHeader dap).trans hr)
      count.toNat as b (startMove s.accept) rest hl he hd
    have hpath : moveReadPath count dap (startMove s.accept) =
        moveApRead (reqHeader dap) (count.toNat + 1) (startMove s.accept) := if_pos hap
    refine ⟨_, exec_dapMove_read count dap final s hr, ?_⟩
    rw [hpath]
    generalize moveApRead (reqHeader dap) (count.toNat + 1) (startMove s.accept) = u at *
    exact ⟨hwords, hdata, hanswered.endMove (by simp)⟩

/-! ### Writes (R174, R175) -/

/-- A write path with the RDBUFF read: one packet after the write loop (R175). -/
theorem moveWrite_rdbuff {dap : DapAddr} {final : Bool} (h : (isAp dap && final) = true) (ws : List Word) (s : State) :
    moveWrite dap final ws s = movePacket 0xBD#8 (writeWords (reqHeader dap) ws s) :=
  (if_pos h).trans (by rw [reqHeader_dpRdbuffRd])

/-- The packets of a write move for any answers, `bs` being that of the RDBUFF read where there is one (R174 to R176). -/
theorem moveWrite_answers {dap : DapAddr} {final : Bool} (hw : isRead dap = false) (ws : List Word)
    (as bs : List Answer) (s : State) (rest : List Bool) (hl : as.length = ws.length)
    (hbs : bs.length = if isAp dap && final then 1 else 0) (he : ∀ a ∈ as ++ bs, a.Ends 255)
    (hd : s.port.draws = as.flatMap Answer.writeDraws ++ bs.flatMap Answer.readDraws ++ rest) :
    Answered (as.map Answer.writeResult ++ bs.map Answer.readResult)
        ((List.zipWith (Answer.sentSlots (reqHeader dap)) ws as).flatten ++ bs.flatMap (Answer.readSlots 0xBD#8)) rest s
        (moveWrite dap final ws s) ∧
      some (moveWrite dap final ws s).data = bs.foldl (fun d b => d.map b.dataAfter) (some (ws.getLastD s.data)) ∧
      (moveWrite dap final ws s).words = s.words := by
  obtain ⟨hloop, hdata⟩ := writeWords_answers (reqHeader dap) ((headerIsRead_reqHeader dap).trans hw) ws as s
    (bs.flatMap Answer.readDraws ++ rest) hl (fun a ha => he a (List.mem_append_left _ ha))
    (by rw [hd, List.append_assoc])
  have hwords := writeWords_words (reqHeader dap) ws s
  cases hf : isAp dap && final with
  | false =>
    obtain rfl : bs = [] := List.eq_nil_of_length_eq_zero (by simpa [hf] using hbs)
    rw [moveWrite_plain hf]
    exact ⟨by simpa using hloop, congrArg some hdata, hwords⟩
  | true =>
    obtain ⟨b, rfl⟩ := List.length_eq_one_iff.mp (by simpa [hf] using hbs)
    obtain ⟨hlast, hdataLast⟩ := movePacket_readAnswer 0xBD#8 (writeWords (reqHeader dap) ws s) b rest (by decide)
      (he b (by simp)) (by simpa using hloop.draws)
    rw [moveWrite_rdbuff hf]
    refine ⟨by simpa using hloop.trans hlast, congrArg some (hdataLast.trans (by rw [hdata])), ?_⟩
    rw [movePacket, shiftPacket_words, hwords]

theorem okAnswers_writeDraws (ws : List Word) :
    (ws.map okAnswer).flatMap Answer.writeDraws = (List.replicate ws.length okWriteDraws).flatten := by
  have h : Answer.writeDraws ∘ okAnswer = Function.const Word okWriteDraws := rfl
  rw [List.flatMap, List.map_map, h, List.map_const]

theorem length_okAnswers_sentSlots (req : Byte) (ws : List Word) :
    (List.zipWith (Answer.sentSlots req) ws (ws.map okAnswer)).flatten.length = 48 * ws.length := by
  rw [List.zipWith_map_right, List.zipWith_self]
  simp [List.length_flatten, Function.comp_def, length_okAnswer_sentSlots, Nat.mul_comm]

/-- The words of an RDBUFF read that is there or not, answered OK (R175). -/
theorem exists_rdbuffWords (flag : Bool) (r : Word) :
    ∃ rs : List Word, rs.length = (if flag then 1 else 0) ∧ okReadsDraws rs = (if flag then okReadDraws r else []) ∧
      ∀ w, (rs.map okAnswer).foldl (fun d b => d.map b.dataAfter) (some w) = if flag then some r else some w := by
  cases flag with
  | false => exact ⟨[], rfl, rfl, fun w => rfl⟩
  | true => exact ⟨[r], rfl, by simp [okReadsDraws], fun w => rfl⟩

/-- Settles O41: the write path for any answers; the first clause is the second with every answer OK. -/
theorem writeMoveSendsItsWords : Obligations.WriteMoveSendsItsWords := by
  unfold Obligations.WriteMoveSendsItsWords
  refine (and_iff_right_of_imp fun hany s count dap final r rest hw hwritten hd => ?_).mpr
    fun s count dap final ws as bs rest hw hwl hws hl hbs he hd => ?_
  · obtain ⟨ws, hg⟩ := Memory.gather_of_written (n := moveLength count) (fun i hi => hwritten i (Nat.le_of_lt_succ hi))
    have hwl : ws.length = count.toNat + 1 := (Memory.gather_ok _ _ _ ws hg).1
    obtain ⟨rs, hrl, hrdraws, hrdata⟩ := exists_rdbuffWords (dap.getLsbD 0 && final) r
    obtain ⟨t, ht, hwords, hdata, hreports, hrest, hslots⟩ := hany s count dap final ws (ws.map okAnswer)
      (rs.map okAnswer) rest hw hwl (fun i hi => Memory.read_of_gather hg (Nat.lt_succ_of_le hi)) (by simpa using hwl)
      (by simpa using hrl) (by rw [← List.map_append]; exact okAnswers_end)
      (by rw [hd, okAnswers_writeDraws, flatMap_okAnswer_readDraws, hwl, hrdraws])
    refine ⟨t, ht, hwords, status_of_all_ok hreports ?_, ?_, hrest, addsSlotCount_of_addsSlots hslots ?_⟩
    · exact List.forall_mem_append.mpr ⟨by simp [okAnswer_writeResult], okAnswers_ok⟩
    · obtain ⟨w, hlast⟩ := Option.isSome_iff_exists.mp (hwritten count.toNat le_rfl)
      rw [hdata, Memory.getLast?_of_gather hg, hlast, hrdata]
    · rw [List.length_append, List.length_append, length_okAnswers_sentSlots, length_okAnswers_readSlots, hwl, hrl,
        mul_ite]
      rfl
  · have hg : Memory.gather s.words (moveLength count) 0 = .ok ws :=
      Memory.gather_of_read hwl (fun i hi => hws i (Nat.le_of_lt_succ hi))
    obtain ⟨hanswered, hdata, hwords⟩ := moveWrite_answers hw ws as bs (startMove s.accept) rest (hl.trans hwl.symm)
      hbs he hd
    refine ⟨_, exec_dapMove_write count dap final s ws hw hg, hwords, ?_, hanswered.endMove ?_⟩
    · rw [← some_getLastD_of_ne_nil (Memory.ne_nil_of_gather hg)]
      exact hdata
    · simp [← List.length_pos_iff, hl]

end Sys2Proof.Machine
end

section
/-! PROOFS. The target control sequencer (R200 to R211): what `CONNECT` and `LINE_RESET` report of the line reset they share, and their wire; `DISCONNECT`; the snapshots of `CLEAR_ERRORS`; and who writes `LINK`. -/

namespace Sys2Proof.Machine

/-! ### What commands outside moves and samples leave alone (R29, R31, R33) -/

/-- The frame of an instruction that writes neither `STATUS` nor `RESULT`. -/
theorem exec_frame {i : Instr} {s t : State} (hstatus : writesStatus i = false) (hresult : writesResult i = false)
    (h : exec i s = .next t) :
    t.result = s.result ∧ t.status = s.status ∧ t.pos = s.pos ∧ t.busy = false ∧ SameSurroundings s t ∧
      WireGrows s t ∧ WordsUnchangedOutside (storedBy i) s t := by
  have hexec := exec_run i s t h
  obtain ⟨u, hrun, ht⟩ := hexec.run
  rw [hstatus] at hrun ht
  refine ⟨hexec.result hresult, ?_⟩
  rw [ht]
  exact ⟨hrun.status, hrun.pos, rfl, hrun.surroundings, hrun.wire, hrun.words⟩

/-! ### The line reset of `CONNECT` and `LINE_RESET` (R202, R205, R206) -/

/-- The slots an instruction sends before its line reset: the switch bytes of `CONNECT` (R203, R205). -/
def switchSlots (i : Instr) : List Slot :=
  if i = .connect then drivenSlots (bitsLsb 0x9E#8) ++ drivenSlots (bitsLsb 0xE7#8) else []

/-- `u` is where the line reset of `i`, issued in `s`, begins: no draw taken, the switch bytes sent, `DATA`, `ACCUM` and `WORDS` untouched. -/
structure StartsLineReset (i : Instr) (s u : State) : Prop where
  data : u.data = s.data
  accum : u.accum = s.accum
  words : u.words = s.words
  draws : u.port.draws = s.port.draws
  slots : AddsSlots (switchSlots i) s u

theorem jtagToSwd_idleLines_slots (p : Port) :
    p.idleLines.jtagToSwd.slots = (switchSlots .connect).reverse ++ p.slots := by
  simp [Port.jtagToSwd, Port.idleLines, Port.shiftOutByte_slots, switchSlots]

/-- Both commands are a line reset from where their own start leads. -/
theorem exec_eq_lineResetSeq {i : Instr} (s : State) (hi : i = .connect ∨ i = .lineReset) :
    ∃ u, exec i s = .next (lineResetSeq u).finish ∧ StartsLineReset i s u := by
  obtain rfl | rfl := hi
  · exact ⟨_, exec_connect s, rfl, rfl, rfl, by simp [Port.jtagToSwd, Port.idleLines],
      jtagToSwd_idleLines_slots s.port⟩
  · exact ⟨_, exec_lineReset s, rfl, rfl, rfl, rfl, rfl⟩

theorem lineResetSeq_ack_le (s : State) : (lineResetSeq s).ack.toNat ≤ 8 := by
  simp only [lineResetSeq, sequencerPacket, shiftPacket_ack]
  exact shiftPacket_result_legal _ _ _

theorem lineResetSeq_words (s : State) : (lineResetSeq s).words = s.words := by
  simp only [lineResetSeq, sequencerPacket, shiftPacket_words]

/-- Settles O47: the reports of the line reset, and the frame of both commands. -/
theorem connectAndLineResetFrame : Obligations.ConnectAndLineResetFrame := by
  intro i s hi
  obtain ⟨u, hexec, hstart⟩ := exec_eq_lineResetSeq s hi
  have hwords := (lineResetSeq_words u).trans hstart.words
  have hack := lineResetSeq_ack_le u
  obtain ⟨hresult, hstatus, hpos, hbusy, hsurroundings, hwire, -⟩ :=
    exec_frame (by obtain rfl | rfl := hi <;> rfl) (by obtain rfl | rfl := hi <;> rfl) hexec
  obtain ⟨v, -, hv, haccum, hpins, hdata⟩ := lineResetSeq_run (fun _ => False) u
  rw [hstart.accum] at haccum
  rw [hstart.data] at hdata
  rw [hv] at hexec hwords hack hresult hstatus hpos hbusy hsurroundings hwire
  exact ⟨_, hexec, rfl, hack, haccum, hdata, hpins, hresult, hstatus, hwords, hpos, hbusy, hsurroundings, hwire⟩

/-! ### The answer to the IDCODE read (R202, R205, R206, R211) -/

/-- The answer OK after `k` times WAIT, with word `w` and its right parity. -/
def okAfterWaits (k : Nat) (w : Word) : Answer := { okAnswer w with waits := k }

theorem okAfterWaits_ends {k : Nat} (hk : k < 255) (w : Word) : (okAfterWaits k w).Ends 255 :=
  ⟨hk, Or.inl (show (0b001#3 : AckBits) ≠ 0b010#3 by decide)⟩

theorem okAfterWaits_readDraws (k : Nat) (w : Word) :
    (okAfterWaits k w).readDraws = waitDraws k ++ okReadDraws w := by
  simp [okAfterWaits, okAnswer, Answer.readDraws, Answer.writeDraws, okReadDraws, okWriteDraws]

/-- Each WAIT adds the 13 slots of an attempt (R153, R211). -/
theorem length_okAfterWaits_lineResetSlots (k : Nat) (w : Word) :
    (lineResetSlots (okAfterWaits k w)).length = 127 + 13 * k := by
  simp [lineResetSlots, okAfterWaits, okAnswer, Answer.readSlots, Answer.slots, sampledSlots]
  omega

/-- Settles O48: the line reset for any answer; the first clause is the second with OK after `k` times WAIT. -/
theorem connectReadsIdcode : Obligations.ConnectReadsIdcode := by
  unfold Obligations.ConnectReadsIdcode
  refine (and_iff_right_of_imp fun hany s k w rest hk hd => ?_).mpr fun s a rest he hd i hi => ?_
  · have hok : (okAfterWaits k w).readResult = 0x1#4 := okAnswer_readResult w
    have hcommand {i : Instr} {n : Nat} (hi : i = .connect ∨ i = .lineReset) (hn : (switchSlots i).length + 127 = n) :
        ∃ t, exec i s = .next t ∧ t.data = w ∧ t.ack = 0x1#4 ∧ t.accum = s.accum ∧ t.link = 2#2 ∧
          t.port.draws = rest ∧ AddsSlotCount (n + 13 * k) s t := by
      obtain ⟨t, ht, hdata, hack, haccum, hlink, hrest, hslots⟩ :=
        hany s (okAfterWaits k w) rest (okAfterWaits_ends hk w) (by rw [hd, okAfterWaits_readDraws]) i hi
      rw [hok] at hack haccum hlink
      refine ⟨t, ht, hdata, hack, haccum, hlink, hrest, addsSlotCount_of_addsSlots hslots ?_⟩
      rw [List.length_append, length_okAfterWaits_lineResetSlots, ← Nat.add_assoc]
      exact congrArg (· + 13 * k) hn
    exact ⟨hcommand (Or.inl rfl) rfl, hcommand (Or.inr rfl) rfl⟩
  · obtain ⟨u, hexec, hstart⟩ := exec_eq_lineResetSeq s hi
    obtain ⟨hdata, hack, haccum, hlink, hrest, hslots⟩ := lineResetSeq_answer u a rest he (hstart.draws.trans hd)
    rw [hstart.data] at hdata
    rw [hstart.accum] at haccum
    rw [hstart.slots, ← List.append_assoc, ← List.reverse_append] at hslots
    generalize lineResetSeq u = v at *
    exact ⟨_, hexec, hdata, hack, haccum.trans (foldl_accumulate s.accum [a.readResult]), hlink, hrest, hslots⟩

/-! ### The wire up to the IDCODE acknowledge (R202, R203) -/

/-- The slots of a line reset that no answer of the target changes: 64 of `1`, the idle byte, then the idle pulse, the header and the turnaround of the first attempt. -/
def lineResetOpening : List Slot :=
  List.replicate 64 (Slot.driven true) ++ List.replicate 8 (Slot.driven false) ++ [Slot.driven false] ++
    drivenSlots (bitsLsb 0xA5#8) ++ [Slot.released]

theorem slotsInOrder_of_suffix {s t : State} {l : List Slot} (h : l.reverse ++ s.port.slots <:+ t.port.slots) :
    ∃ more, t.slotsInOrder = s.slotsInOrder ++ l ++ more := by
  obtain ⟨later, hlater⟩ := h
  exact ⟨later.reverse, by simp [State.slotsInOrder, ← hlater]⟩

theorem drivenSlots_idleByte : drivenSlots (bitsLsb 0x00#8) = List.replicate 8 (.driven false) := by decide

/-- The IDCODE read's header (R98). -/
theorem reqHeader_dpIdcodeRd : reqHeader dpIdcodeRd = 0xA5#8 := by decide

theorem lineResetOpening_suffix_attempt (p : Port) :
    lineResetOpening.reverse ++ p.slots <:+ ((p.shiftResetSeq.shiftOutByte 0x00#8).attempt 0xA5#8).2.slots := by
  rw [Port.attempt_slots, Port.shiftOutByte_slots, Port.shiftResetSeq_slots, drivenSlots_idleByte]
  refine ⟨(sampledSlots ((p.shiftResetSeq.shiftOutByte 0x00#8).drawList 3)).reverse, ?_⟩
  simp [lineResetOpening, attemptSlots]

/-- The IDCODE packet begins with an attempt, and what comes after it only adds slots (R144, R202). -/
theorem lineResetOpening_suffix (s : State) :
    lineResetOpening.reverse ++ s.port.slots <:+ (lineResetSeq s).port.slots := by
  simp only [lineResetSeq, sequencerPacket, reqHeader_dpIdcodeRd, Port.shiftOutByte_slots]
  have hpacket := attempt_slots_suffix_shiftPacket 0xA5#8 0x00#8
    { s with port := s.port.shiftResetSeq.shiftOutByte 0x00#8 }
  dsimp only at hpacket
  exact ((lineResetOpening_suffix_attempt s.port).trans hpacket).trans (List.suffix_append _ _)

/-- Settles O49: the opening of the line reset, after the switch bytes where there are any. -/
theorem connectWire : Obligations.ConnectWire := by
  intro s
  have hwire {i : Instr} (hi : i = .connect ∨ i = .lineReset) :
      ∃ t more, exec i s = .next t ∧
        t.slotsInOrder = s.slotsInOrder ++ (switchSlots i ++ lineResetOpening) ++ more := by
    obtain ⟨u, hexec, hstart⟩ := exec_eq_lineResetSeq s hi
    have hopening := lineResetOpening_suffix u
    rw [hstart.slots, ← List.append_assoc, ← List.reverse_append] at hopening
    generalize lineResetSeq u = v at *
    obtain ⟨more, hmore⟩ := slotsInOrder_of_suffix (t := v.finish) hopening
    exact ⟨_, more, hexec, hmore⟩
  exact ⟨hwire (Or.inr rfl), hwire (Or.inl rfl)⟩

/-! ### `DISCONNECT` (R204, R207) -/

/-- Settles O50: two bytes, then both lines released. -/
theorem disconnectResult : Obligations.DisconnectResult := by
  intro s
  have hexec := exec_disconnect s
  have hslots : s.port.swdToJtag.slots =
      (drivenSlots (bitsLsb 0x3C#8) ++ drivenSlots (bitsLsb 0xE7#8)).reverse ++ s.port.slots := by
    simp [Port.swdToJtag, Port.shiftOutByte_slots]
  have hpins : s.port.swdToJtag.pins = ⟨true, false, true, true⟩ := by simp [Port.swdToJtag]
  have hdraws : s.port.swdToJtag.draws = s.port.draws := by simp [Port.swdToJtag]
  generalize s.port.swdToJtag = p at *
  exact ⟨_, hexec, by simpa [AddsSlots] using hslots, by simp [hpins], by simpa using hdraws, rfl⟩

/-! ### Who writes `LINK` (R200) -/

/-- Settles O17: `CONNECT`, `LINE_RESET` and `DISCONNECT` from what they answer, the rest from `ExecRun`. -/
theorem linkTransitions : Obligations.LinkTransitions := by
  intro i s t h
  refine ⟨fun hi => ?_, fun hi => ?_, (exec_run i s t h).link⟩
  · obtain ⟨u, hu, hlink, -⟩ := connectAndLineResetFrame i s hi
    obtain rfl := Host.Outcome.next.inj (h.symm.trans hu)
    exact hlink
  · subst hi
    obtain ⟨u, hu, -, -, -, hframe⟩ := disconnectResult s
    obtain rfl := Host.Outcome.next.inj (h.symm.trans hu)
    rw [hframe]

/-! ### `CLEAR_ERRORS` (R208, R209) -/

theorem clearErrorsRead_words (i : Nat) (s : State) :
    (clearErrorsRead i s).words = Memory.write s.words i (clearErrorsRead i s).data := by
  simp only [clearErrorsRead, sequencerPacket, State.writeWord_words, State.writeWord_data, shiftPacket_words]

theorem clearErrorsRead_accum (i : Nat) (s : State) :
    (clearErrorsRead i s).accum = accumulate s.accum (clearErrorsRead i s).ack := by
  simp only [clearErrorsRead, sequencerPacket, State.writeWord_accum, State.writeWord_ack, shiftPacket_accum,
    shiftPacket_ack]

/-- Whatever the target answers, both snapshots are stored and a failure of the last packet is recorded (R149, R208). -/
theorem exec_clearErrors_stores (s : State) :
    ∃ t, exec .clearErrors s = .next t ∧ (Memory.read t.words 0).isSome = true ∧
      Memory.read t.words 1 = some t.data ∧ (t.ack ≠ 0x1#4 → t.accum = t.ack) := by
  have hexec := exec_clearErrors s
  have hfirst := clearErrorsRead_words 0 s.accept
  generalize clearErrorsRead 0 s.accept = u at *
  have habort : (sequencerPacket dpAbortWr { u with data := abortMask }).2.words = u.words := shiftPacket_words _ _ _
  generalize (sequencerPacket dpAbortWr { u with data := abortMask }).2 = v at *
  have hsecond := clearErrorsRead_words 1 v
  have haccum := clearErrorsRead_accum 1 v
  generalize clearErrorsRead 1 v = t at *
  refine ⟨_, hexec, ?_, ?_, fun hack => ?_⟩
  · rw [State.finish_words, hsecond, Memory.read_write_other _ _ (by decide), habort, hfirst, Memory.read_write_same]
    rfl
  · rw [State.finish_words, hsecond, Memory.read_write_same, State.finish_data]
  · exact haccum.trans (if_neg hack)

/-- Settles O52: the frame of every instruction and the two stores; for any answers, the three packets in order. -/
theorem clearErrorsFrame : Obligations.ClearErrorsFrame := by
  refine ⟨fun s => ?_, fun s a b c rest ha hb hc hd => ?_⟩
  · obtain ⟨t, ht, hfirst, hsecond, haccum⟩ := exec_clearErrors_stores s
    obtain ⟨hresult, hstatus, hpos, hbusy, hsurroundings, hwire, hwords⟩ := exec_frame rfl rfl ht
    have hlink := (exec_run _ s t ht).link rfl
    exact ⟨t, ht, hstatus, hlink, hresult, hpos, hbusy, hsecond, hfirst, hwords, hsurroundings, hwire, haccum⟩
  · obtain ⟨t, ht, hfirst, hsecond, hdata, hanswered⟩ := exec_clearErrors_answers s a b c rest ha hb hc hd
    refine ⟨t, ht, hfirst, hsecond, hdata, hanswered.ack, ?_, hanswered.draws, hanswered.slots⟩
    rw [hanswered.accum, foldl_accumulate]

theorem okAnswer_readDraws (w : Word) : (okAnswer w).readDraws = okReadDraws w := okAfterWaits_readDraws 0 w

/-- The slots of the ABORT write answered OK: the 47 up to its parity, then the idle pulse (R147, R148, R208). -/
theorem okAnswer_abortSlots (w : Word) :
    (okAnswer w).sentSlots 0x81#8 0x0000001E#32 =
      [Slot.driven false] ++ drivenSlots (bitsLsb 0x81#8) ++ [Slot.released] ++ sampledSlots [true, false, false] ++
        [Slot.driven true] ++ drivenSlots (bitsLsb 0x0000001E#32) ++ [Slot.driven false] ++ [Slot.driven false] := by
  simp [Answer.sentSlots, Answer.slots, okAnswer, attemptsSlots_zero, attemptSlots, writeSlots,
    show bitsLsb (0b001#3) = [true, false, false] by decide, show parity 0x0000001E#32 = false by decide]

/-- Settles O51: the three packets with every answer OK. -/
theorem clearErrorsSnapshots : Obligations.ClearErrorsSnapshots := by
  intro s w0 w1 rest hd
  obtain ⟨-, hany⟩ := clearErrorsFrame
  obtain ⟨t, ht, hfirst, hsecond, hdata, hack, haccum, hrest, hslots⟩ :=
    hany s (okAnswer w0) (okAnswer 0) (okAnswer w1) rest (okAnswer_ends w0) (okAnswer_ends 0) (okAnswer_ends w1)
      (by rw [hd, okAnswer_readDraws, okAnswer_readDraws]; rfl)
  refine ⟨t, ht, hfirst, hsecond, hdata, hack.trans (okAnswer_readResult w1), ?_, hrest,
    addsSlotCount_of_addsSlots hslots ?_, ?_⟩
  · rw [haccum, okAnswer_readResult, okAnswer_writeResult, okAnswer_readResult]
    rfl
  · rw [List.length_append, List.length_append, length_okAnswer_readSlots, length_okAnswer_readSlots,
      length_okAnswer_sentSlots]
  · have hfirstLength : (s.slotsInOrder ++ (okAnswer w0).readSlots 0x8D#8).length = s.port.slots.length + 47 := by
      rw [List.length_append, length_okAnswer_readSlots, State.slotsInOrder, List.length_reverse]
    have hinOrder : t.slotsInOrder = (s.slotsInOrder ++ (okAnswer w0).readSlots 0x8D#8) ++
        ((okAnswer 0).sentSlots 0x81#8 0x0000001E#32 ++ (okAnswer w1).readSlots 0x8D#8) := by
      simp [State.slotsInOrder, hslots]
    rw [hinOrder, List.drop_left' hfirstLength, okAnswer_abortSlots, List.append_assoc _ [_]]
    exact List.take_left' (by decide)

end Sys2Proof.Machine
end

section
/-! PROOFS. Reset and timing (R260, R261, R277, R278): a low `RST_N` leaves the block at its reset values whatever the input, and what a shift takes. -/

namespace Sys2Proof.Machine

/-! ### Reset (R260, R261) -/

/-- A block left as it was at its reset values is still there. -/
theorem SameBlock.atReset {s t : State} (h : SameBlock s t) (hs : s.AtReset) : t.AtReset := by
  obtain ⟨hport, hdata, hresult, hack, haccum, hstatus, hlink, hbusy, hwords, hpos⟩ := h
  simpa only [State.AtReset, hport, hdata, hresult, hack, haccum, hstatus, hlink, hbusy, hwords, hpos] using hs

/-- A host read leaves the block as it is (R49). -/
theorem hostRead_sameBlock {width offset : Nat} {s t : State} (h : hostRead width offset s = .next t) :
    SameBlock s t := by
  cases hg : goodAccess width offset with
  | false => rw [hostRead_bad s hg] at h; cases h
  | true =>
    rw [hostRead_good s hg] at h
    obtain ⟨v, n, rfl⟩ := readReg_same _ s t h
    exact ⟨rfl, rfl, rfl, rfl, rfl, rfl, rfl, rfl, rfl, rfl⟩

/-- While `RST_N` is low no input reaches the block, the rise of `RST_N` among them (R260; log entry 10). -/
theorem handleInReset_sameBlock {a : Input} {s t : State} (h : handleInReset a s = .next t) : SameBlock s t := by
  cases a with
  | write width offset v =>
    simp only [handleInReset] at h
    split at h
    · cases h; exact ⟨rfl, rfl, rfl, rfl, rfl, rfl, rfl, rfl, rfl, rfl⟩
    · cases h
  | read width offset => exact hostRead_sameBlock h
  | waitIdle | tick | rstN _ | request _ => cases h; exact ⟨rfl, rfl, rfl, rfl, rfl, rfl, rfl, rfl, rfl, rfl⟩

/-- While `RST_N` is low and nothing is listed, a step is the reset of the block alone (R260). -/
theorem step_noInput_low {s : State} (hr : s.rstN = false) (hi : s.inputs = []) : step s = .next s.blockReset := by
  simp [step, stepAgents, hr, hi]

/-- Settles O11: the block is reset first, and what the input then does is not to the block. -/
theorem resetIsHeldWhileLow : Obligations.ResetIsHeldWhileLow := by
  intro s t hr h
  cases hi : s.inputs with
  | nil =>
    rw [step_noInput_low hr hi] at h
    cases h
    exact blockReset_atReset s
  | cons a rest =>
    rw [step_input_low hr hi] at h
    exact (handleInReset_sameBlock h).atReset (blockReset_atReset s)

/-- Settles O10: the input is a reset of the block, with no regard to `BUSY` or the position. -/
theorem resetEndsRunningCommand : Obligations.ResetEndsRunningCommand :=
  fun s _ hr hi => ⟨_, step_input hr hi, blockReset_atReset s, rfl, rfl⟩

/-! ### The time of a shift (R277, R278) -/

/-- A command that leaves the port `p`, with the slots `l` added and no delay, takes its slots' time and the fixed parts (R278). -/
theorem exec_commandCycles {i : Instr} {s : State} {p : Port} {r : Byte} {l : List Slot} {n : Nat} (overhead : Nat)
    (he : exec i s = .next { s with port := p, result := r, busy := false })
    (hslots : p.slots = l.reverse ++ s.port.slots) (hl : l.length = n)
    (hdelay : delaySum p.trace = delaySum s.port.trace) :
    ∃ t, exec i s = .next t ∧ commandCycles overhead s t = Config.tCmd + 2 * Config.tPhase * n + overhead := by
  refine ⟨_, he, ?_⟩
  have hcount : p.slots.length - s.port.slots.length = n := by simp [hslots, hl]
  simp [commandCycles, State.slotCount, hcount, hdelay]

/-- Settles O60: each shift adds 8 or 64 slots and keeps the delays. -/
theorem shiftCommandTime : Obligations.ShiftCommandTime := fun s b overhead =>
  ⟨exec_commandCycles overhead (exec_shiftOut b s) (Port.shiftOutByte_slots b s.port) (by simp [drivenSlots])
      (delaySum_shiftOutByte b s.port),
    exec_commandCycles overhead (exec_shiftIn s) (Port.shiftInByte_slots s.port) (by simp [sampledSlots])
      (delaySum_shiftInByte s.port),
    exec_commandCycles (l := List.replicate 64 (.driven true)) overhead (exec_shiftReset s)
      (by rw [List.reverse_replicate, Port.shiftResetSeq_slots]) List.length_replicate
      (delaySum_shiftResetSeq s.port)⟩

end Sys2Proof.Machine
end
